-- ==== Sys2Proof/Word.lean ====
section
/-! DEFINITION. The word types of the block (spec/20_memory.md R41, R42; spec/30_encoding.md R80, R84). -/

namespace Sys2Proof

/-- "The unit of storage and bus transfer" (R42, `BYTE_W = 8`). -/
abbrev Byte := BitVec 8

/-- A byte address of a backing chip, `0 .. 2^24 - 1` (R41, `ADDR_W = 24`). -/
abbrev Addr := BitVec 24

/-- The host command word `cmd[33:0]` (R80). -/
abbrev HostWord := BitVec 34

/-- The logical select vector `cs[2:0]`, 1 = asserted (R84). -/
abbrev Lines := BitVec 3

end Sys2Proof
end

