-- ==== Sys2Proof/Config.lean ====
section
/-! DEFINITION. What is fixed for a run (spec/00_scope.md R7 to R9) and the values the spec leaves open as draws
(R12 `draw`): the free values, which have no body. -/

namespace Sys2Proof

/-- A device handle: "the integers 0, 1, 2" (R8, `NUM_DEV = 3`). -/
inductive Dev where
  | dev0 | dev1 | dev2
  deriving DecidableEq, Repr

/-- Order of the bits of a byte on the serial lines (R9 `BIT_ORDER`); read by no rule. -/
inductive BitOrder where
  | msbFirst | lsbFirst
  deriving DecidableEq, Repr

/-- The open parameters of R9. "The model takes each as an argument; no rule fixes its value." A machine state carries
them in its field `cfg`, which nothing writes; a statement about every state is a statement about every value of them. -/
structure Config where
  /-- `DEV_SEL`: the device the Cached Store is bound to. -/
  devSel : Dev
  /-- `MEM_SIZE`: the bytes a backing chip stores; it answers addresses `0 .. MEM_SIZE-1`. -/
  memSize : Nat
  /-- `CS_ACTIVE_LEVEL`; no rule reads it. -/
  csActiveLevel : Bool
  /-- `BIT_ORDER`; no rule reads it. -/
  bitOrder : BitOrder
  /-- `CLOCK_MODE`; no rule reads it. -/
  clockMode : Fin 4
  deriving DecidableEq, Repr

/-- `2^24`, the size of the address space (R41). -/
abbrev Config.addrSpace : Nat := 16777216

/-- `MEM_SIZE` lies in `1 .. 2^24` (R9, R49). -/
abbrev Config.WF (c : Config) : Prop := 1 ≤ c.memSize ∧ c.memSize ≤ Config.addrSpace

/-- The wire opcode of a read frame (R7, R72). -/
abbrev Config.opRead : Byte := 0x03#8

/-- The wire opcode of a write frame (R7, R72). -/
abbrev Config.opWrite : Byte := 0x02#8

/-- The byte sent in each payload exchange of a read (R7, R74). -/
abbrev Config.filler : Byte := 0xFF#8

/-- Free value: the `n`-th draw of the run (R12 `draw`: "any value of the stated width, chosen by the environment, under
no law"). Every open byte of the spec but the power-up contents is one of these (notes/assumptions/3.md). -/
opaque Config.draw : Nat → Byte

/-- Free value: the byte that chip `d` holds at an address nothing has written since its contents last became
unspecified, `epoch` counting how often they did (R37, D17: "each byte is a draw made once at power-up and constant
until written"; notes/assumptions/4.md). -/
opaque Config.chipByte : (d : Dev) → (epoch : Nat) → (addr : Nat) → Byte

end Sys2Proof
end

