-- ==== Sys2Proof/Syntax.lean ====
section
/-! DEFINITION. The operations of the block: one constructor for each of the ten rows of spec/opcode_table.json
(spec/30_encoding.md R85, R87), with the operands R85 gives them. -/

namespace Sys2Proof

/-- The ten operations in three layers (R15). -/
inductive Instr where
  /-- `SELECT(d)` (R96). -/
  | select (d : Dev)
  /-- `EXCHANGE(o)` (R97). -/
  | exchange (o : Byte)
  /-- `DESELECT(d)` (R98). -/
  | deselect (d : Dev)
  /-- `DP_READ(d, a, n)` (R111). -/
  | dpRead (d : Dev) (a : Addr) (n : Nat)
  /-- `DP_WRITE(d, a, data)` (R112). -/
  | dpWrite (d : Dev) (a : Addr) (data : List Byte)
  /-- `MISS(a)`, internal (R126). -/
  | miss (a : Addr)
  /-- `READ_BYTE(a)` (R127). -/
  | readByte (a : Addr)
  /-- `WRITE_BYTE(a, v)` (R128). -/
  | writeByte (a : Addr) (v : Byte)
  /-- `FLUSH` (R129). -/
  | flush
  /-- `NOP` (R130). -/
  | nop
  deriving DecidableEq, Repr

end Sys2Proof
end

