-- ==== Sys2Proof/WellFormed.lean ====
section
/-! DEFINITION. Which operations name bytes that some chip could hold. The operand types already bound handles,
addresses and bytes (R8, R41, R42); what is left to check is that the payload interval `[a, a + n)` of a protocol
operation lies inside the address space (spec/20_memory.md R51). Execution does not consult this: an operation that fails
the check is run and refused by the rule R51 names. -/

namespace Sys2Proof

/-- `[a, a + n)` does not run past `2^24` (R51). -/
def fitsAddressSpace (a : Addr) (n : Nat) : Bool := decide (a.toNat + n ≤ Config.addrSpace)

/-- The operation's payload interval lies in the address space. -/
def Instr.wellFormed : Instr → Bool
  | .select _ => true
  | .exchange _ => true
  | .deselect _ => true
  | .dpRead _ a n => fitsAddressSpace a n
  | .dpWrite _ a data => fitsAddressSpace a data.length
  | .miss _ => true
  | .readByte _ => true
  | .writeByte _ _ => true
  | .flush => true
  | .nop => true

end Sys2Proof
end

