-- ==== Sys2Proof/Decode.lean ====
section
/-! DEFINITION. The encoded surfaces (spec/30_encoding.md): the wire frame (R71 to R76), the host command word (R80 to
R82), the port events (R84), the decoder, total and rejecting by name, and the encoder written from the same tables. -/

namespace Sys2Proof

/-! ## Fields -/

/-- `A2 = address[23:16]` (R73). -/
def addrB2 (a : Addr) : Byte := a.extractLsb' 16 8

/-- `A1 = address[15:8]` (R73). -/
def addrB1 (a : Addr) : Byte := a.extractLsb' 8 8

/-- `A0 = address[7:0]` (R73). -/
def addrB0 (a : Addr) : Byte := a.extractLsb' 0 8

/-- `address = A2 ++ A1 ++ A0` (R73). -/
def joinAddr (b2 b1 b0 : Byte) : Addr := b2 ++ b1 ++ b0

/-- The four header bytes in the order sent: opcode, then the address most significant byte first (R71, R43). -/
def header (op : Byte) (a : Addr) : List Byte := [op, addrB2 a, addrB1 a, addrB0 a]

/-- The 32-bit value `OP ++ address` of a header (R71). -/
def headerWord (op : Byte) (a : Addr) : BitVec 32 := op ++ a

/-- `1 << d`, the one-hot value of `cs[2:0]` that selects device `d` (R84). -/
def Dev.line : Dev → Lines
  | .dev0 => 0b001#3
  | .dev1 => 0b010#3
  | .dev2 => 0b100#3

/-- The device whose line alone is asserted in `l`, if exactly one is. -/
def Dev.ofLine? (l : Lines) : Option Dev :=
  if l = 0b001#3 then some .dev0
  else if l = 0b010#3 then some .dev1
  else if l = 0b100#3 then some .dev2
  else none

/-! ## What can be presented at the block's surfaces -/

/-- A change of signals at the port (R84). `lines before after` is a transition of the select vector; `shift o` is a
byte shifted out. -/
inductive PortEvent where
  | lines (before after : Lines)
  | shift (o : Byte)
  deriving DecidableEq, Repr

/-- One encoded operation. `wire d frame` is a transaction asked of the Device Protocol: the bytes to send between
`SEL(d)` and `DESEL(d)` (R75: the frame carries neither the device nor its own length). `internal a` stands for the row
`MISS`, whose encoding is empty (R87). -/
inductive Request where
  | host (w : HostWord)
  | wire (d : Dev) (frame : List Byte)
  | port (e : PortEvent)
  | internal (a : Addr)
  deriving DecidableEq, Repr

/-- Why an encoded operation is rejected. -/
inductive DecodeError where
  /-- A frame whose opcode is neither `0x02` nor `0x03` (R77, R54). -/
  | unknownOpcode (op : Byte)
  /-- A frame shorter than the four header bytes (R77, R54). -/
  | shortFrame
  /-- A read frame with a payload byte other than `0xFF`: the encoding of no operation (R74). -/
  | badFiller
  /-- A transition of the select vector that is neither `000` to one-hot nor one-hot to `000` (R84). -/
  | badLines (before after : Lines)
  deriving DecidableEq, Repr

/-! ## The decoder -/

/-- A host word: "A decoder for the host side tests `cmd[33:32]` only" (R87); R81 gives the four values, R82 the
ignored fields. -/
def decodeHost (w : HostWord) : Instr :=
  if w.extractLsb' 32 2 = 0b00#2 then .nop
  else if w.extractLsb' 32 2 = 0b01#2 then .flush
  else if w.extractLsb' 32 2 = 0b10#2 then .writeByte (w.extractLsb' 8 24) (w.extractLsb' 0 8)
  else .readByte (w.extractLsb' 8 24)

/-- A wire frame for device `d` (R71, R72, R74, R87). -/
def decodeWire (d : Dev) : List Byte → Except DecodeError Instr
  | op :: b2 :: b1 :: b0 :: payload =>
    if op = Config.opRead then
      if payload.all (fun b => b == Config.filler) then .ok (.dpRead d (joinAddr b2 b1 b0) payload.length)
      else .error .badFiller
    else if op = Config.opWrite then .ok (.dpWrite d (joinAddr b2 b1 b0) payload)
    else .error (.unknownOpcode op)
  | _ => .error .shortFrame

/-- A port event (R84). -/
def decodePort : PortEvent → Except DecodeError Instr
  | .shift o => .ok (.exchange o)
  | .lines before after =>
    match before == 0b000#3, after == 0b000#3, Dev.ofLine? before, Dev.ofLine? after with
    | true, _, _, some d => .ok (.select d)
    | _, true, some d, _ => .ok (.deselect d)
    | _, _, _, _ => .error (.badLines before after)

/-- The operation an encoded request asks for. -/
def decode : Request → Except DecodeError Instr
  | .host w => .ok (decodeHost w)
  | .wire d frame => decodeWire d frame
  | .port e => decodePort e
  | .internal a => .ok (.miss a)

/-! ## The encoder -/

/-- `cmd = op ++ addr ++ wdata` (R80). -/
def hostWord (op : BitVec 2) (addr : Addr) (wdata : Byte) : HostWord := op ++ addr ++ wdata

/-- The encoding of an operation, ignored bits zero (R71, R74, R80 to R82, R84). -/
def encode : Instr → Request
  | .select d => .port (.lines 0b000#3 d.line)
  | .exchange o => .port (.shift o)
  | .deselect d => .port (.lines d.line 0b000#3)
  | .dpRead d a n => .wire d (header Config.opRead a ++ List.replicate n Config.filler)
  | .dpWrite d a data => .wire d (header Config.opWrite a ++ data)
  | .miss a => .internal a
  | .readByte a => .host (hostWord 0b11#2 a 0#8)
  | .writeByte a v => .host (hostWord 0b10#2 a v)
  | .flush => .host (hostWord 0b01#2 0#24 0#8)
  | .nop => .host (hostWord 0b00#2 0#24 0#8)

/-! ## Words numbered as the opcode table numbers them -/

/-- The request that a table word of `nbits` bits stands for (notes/assumptions/8.md): no bits is the empty encoding of
`MISS`, address bits zero; 3 bits is the value that `cs[2:0]` takes; 8 bits is a byte shifted out; 32 bits is a wire
header, `header[31:24]` the opcode, sent first, with no payload; 34 bits, 40 in whole bytes, is a host word. The table's
words do not name a device where R87 lets the select lines name it: device 0 is taken. -/
def tableRequest (nbits w : Nat) : Option Request :=
  if nbits = 0 then some (.internal 0#24)
  else if nbits = 3 then
    if w % 8 = 0 then some (.port (.lines (Dev.line .dev0) 0b000#3))
    else some (.port (.lines 0b000#3 (BitVec.ofNat 3 w)))
  else if nbits = 8 then some (.port (.shift (BitVec.ofNat 8 w)))
  else if nbits = 32 then
    some (.wire .dev0 [BitVec.ofNat 8 (w / 16777216), BitVec.ofNat 8 (w / 65536), BitVec.ofNat 8 (w / 256), BitVec.ofNat 8 w])
  else if nbits = 34 ∨ nbits = 40 then
    if w < 17179869184 then some (.host (BitVec.ofNat 34 w)) else none
  else none

/-- The instruction the decoder reads from a word of spec/opcode_table.json. -/
def decodeTableWord (nbits w : Nat) : Option Instr :=
  match tableRequest nbits w with
  | some r => (decode r).toOption
  | none => none

end Sys2Proof
end

