-- ==== Sys2Proof/Machine/State.lean ====
section
/-! DEFINITION. The state of a run (spec/10_state.md R16: "The state of a run is exactly the following"), the few fields
the model adds to run the block against its environment, the reasons a step can stop, and the state after reset (R37). -/

namespace Sys2Proof.Machine

/-! ## The parts of the state -/

/-- One value for each of the three devices (R8). -/
structure PerDev (α : Type) where
  dev0 : α
  dev1 : α
  dev2 : α
  deriving DecidableEq, Repr

/-- The value for device `d`. -/
def PerDev.get {α : Type} (p : PerDev α) : Dev → α
  | .dev0 => p.dev0
  | .dev1 => p.dev1
  | .dev2 => p.dev2

/-- `p` with the value for device `d` replaced. -/
def PerDev.set {α : Type} (p : PerDev α) (d : Dev) (x : α) : PerDev α :=
  match d with
  | .dev0 => { p with dev0 := x }
  | .dev1 => { p with dev1 := x }
  | .dev2 => { p with dev2 := x }

/-- The same value for every device. -/
def PerDev.all {α : Type} (x : α) : PerDev α := ⟨x, x, x⟩

/-- The cache slot: `resident_address : Option<Address>` held as `valid` and `tag` (R17, R18), 34 bits in all (R27). -/
structure Slot where
  valid : Bool
  tag : Addr
  value : Byte
  dirty : Bool
  deriving DecidableEq, Repr

/-- The transport micro-operations a plan is made of (R28). -/
inductive BusOp where
  | select (d : Dev)
  | exchange (o : Byte)
  | deselect (d : Dev)
  deriving DecidableEq, Repr

/-- What the layer above does when a transport operation of a plan returns (R111, R126): nothing; keep the returned
byte (`out[j] <-`); mark the slot clean (`slot.dirty <- 0`, after `T_W`); load the slot with address `a` and the kept
byte (after `T_R(a)`). -/
inductive OnReturn where
  | ignore
  | capture
  | clean
  | load (a : Addr)
  deriving DecidableEq, Repr

/-- One entry of a plan. -/
structure PlanStep where
  op : BusOp
  after : OnReturn
  deriving DecidableEq, Repr

/-- "The finite list of transport micro-operations that command will perform" (R28, R131). -/
abbrev Plan := List PlanStep

/-- `seq` (R28): `Idle`, or `Run(cmd, plan, k, cap)`. `cap` is a list because a direct `DP_READ` captures `n` bytes. -/
inductive Seq where
  | idle
  | run (cmd : Instr) (plan : Plan) (k : Nat) (cap : List Byte)
  deriving DecidableEq, Repr

/-- `DevFrame[d]` (R33): how much of the frame of the open transaction chip `d` has taken. `k0` to `k3` count the
exchanges of the header and hold its bytes so far; `payload op a j` is a whole header with `j` payload bytes taken. -/
inductive Frame where
  | closed
  | k0
  | k1 (op : Byte)
  | k2 (op b2 : Byte)
  | k3 (op b2 b1 : Byte)
  | payload (op : Byte) (a : Addr) (j : Nat)
  deriving DecidableEq, Repr

/-- The three kinds of bus event (R13). -/
inductive BusEvent where
  | sel (d : Dev)
  | xchg (o i : Byte)
  | desel (d : Dev)
  deriving DecidableEq, Repr

/-- What the last completed operation returned to its caller (R85, column "result"); `none` also while no operation has
completed since a hang began or since reset. A host command always gives `byte`, `rsp_rdata` of R83. -/
inductive Response where
  | none
  | byte (b : Byte)
  | bytes (bs : List Byte)
  deriving DecidableEq, Repr

/-- What the agents outside CTRL do next (R6): the host presents an encoded operation; the board is initialised (R178);
the environment grants the bus `n` more exchanges, or all of them (R154); OTHER writes a byte of a chip (D26); a chip
starts or stops conforming (D27); the Store is constructed again (R176); the power goes and comes back (R66). -/
inductive Input where
  | present (r : Request)
  | boardInit
  | grant (n : Option Nat)
  | other (d : Dev) (a : Addr) (v : Byte)
  | conform (d : Dev) (b : Bool)
  | reset
  | powerCycle
  deriving DecidableEq, Repr

/-- The written bytes of one chip: (address, byte) pairs, addresses strictly rising. An unlisted address has not been
written since the chip's contents last became unspecified (notes/assumptions/4.md). -/
abbrev Memory := List Host.Cell

/-! ## The state -/

/-- The state of a run: the rows of R16, the configuration of R9, then the model's own fields. -/
structure State where
  /-- The open parameters (R9); written by nothing. -/
  cfg : Config
  /-- `slot.valid`, `slot.tag`, `slot.value`, `slot.dirty` (R16, R18). -/
  slot : Slot
  /-- `cs[2:0]`, 1 = asserted (R16, R32). -/
  cs : Lines
  /-- `seq` (R16, R28). -/
  seq : Seq
  /-- `DevMem[d]` (R16, R34), as the bytes written. -/
  devMem : PerDev Memory
  /-- How often the contents of chip `d` have become unspecified as a whole: selects the draws of its unwritten bytes. -/
  epoch : PerDev Nat
  /-- `DevFrame[d]` (R16, R33). -/
  devFrame : PerDev Frame
  /-- Ghost: the bus events since reset, oldest first (R13, D20). -/
  trace : List BusEvent
  /-- Ghost: READ transactions since reset (R13). -/
  nREAD : Nat
  /-- Ghost: WRITE transactions since reset (R13). -/
  nWRITE : Nat
  /-- Model's own: what the last operation returned (R83, R85). -/
  response : Response
  /-- Environment: the premise `BoardInit` holds (R178). -/
  boardInit : Bool
  /-- Environment: how many more exchanges will complete; `none` is the premise `BusLive` (R154). -/
  bus : Option Nat
  /-- Environment: chip `d` behaves as the reference device model, premise `DeviceConforms` (R52, R53). -/
  conforms : PerDev Bool
  /-- Model's own: how many draws have been used. -/
  draws : Nat
  /-- The host and environment still to act, in order (R6): an input, not state of the block (R16). -/
  inputs : List Input
  deriving DecidableEq, Repr

/-! ## Why a step stops -/

/-- The spec raises nothing (R151). The one fault is its outcome `stuck`. -/
inductive Fault where
  /-- `stuck` (R12, R154): CTRL waits for an exchange that the bus does not complete and no input is left. Raised by
  `step` alone, in that state. Safe: the hardware too takes no further step. -/
  | stuck
  deriving DecidableEq, Repr

/-- The refusals of R168, "A model must give none of them a next state", and the two the interface needs. Each is safe:
the model stops where the hardware, undetected, would go on, so it errs toward unprovable. -/
inductive Refusal where
  /-- An instruction without a meaning; raised by no arm of `exec`. Safe. -/
  | notModelled (mnemonic : String)
  /-- SELECT while any select line is asserted (R96, R102); raised by the SELECT of any operation. Safe. -/
  | selectOverlap
  /-- EXCHANGE unless exactly one line is asserted (R97, R103); raised by EXCHANGE presented on its own. Safe. -/
  | exchangeWithoutSelect
  /-- DESELECT of a released line (R98, R103); raised by DESELECT presented on its own. Safe. -/
  | deselectUnselected
  /-- A frame address at or above `MEM_SIZE` (R49); raised by the fourth header exchange, and by an OTHER write there.
  Safe. -/
  | addressBeyondDevice
  /-- A payload that runs past `MEM_SIZE` (R51); raised by its first payload exchange beyond. Safe. -/
  | rangeBeyondDevice
  /-- A transaction whose opcode is neither `0x02` nor `0x03`, or shorter than four exchanges (R54); raised when such a
  frame is presented, and by the payload EXCHANGE or the DESELECT of one. Safe. -/
  | unknownFrame
  /-- A transport operation before the boot precondition holds (R178); raised by each of the three. Safe. -/
  | beforeBoardInit
  /-- An operation presented while another is executing (R80); raised by every operation. Safe. -/
  | commandWhileBusy
  /-- An encoded request that is the encoding of no operation (R74, R84); raised when `step` decodes it. Safe. -/
  | noSuchOperation (e : DecodeError)
  deriving DecidableEq, Repr

/-! ## Reset -/

/-- The parameters at `State.reset` (notes/assumptions/6.md): R9 gives none a value. -/
def resetConfig : Config :=
  { devSel := .dev0, memSize := Config.addrSpace, csActiveLevel := false, bitOrder := .msbFirst, clockMode := 0 }

/-- The state after reset for parameters `c` (R37): `slot.tag` and `slot.value`, which R37 leaves unspecified, are zero
(notes/assumptions/5.md); the environment's fields are those of a run in which the premises hold
(notes/assumptions/7.md). -/
def State.resetWith (c : Config) : State :=
  { cfg := c
    slot := { valid := false, tag := 0#24, value := 0#8, dirty := false }
    cs := 0b000#3
    seq := .idle
    devMem := .all []
    epoch := .all 0
    devFrame := .all .closed
    trace := []
    nREAD := 0
    nWRITE := 0
    response := .none
    boardInit := true
    bus := none
    conforms := .all true
    draws := 0
    inputs := [] }

/-- The machine right after reset (R36, R37). -/
def State.reset : State := State.resetWith resetConfig

end Sys2Proof.Machine
end

