-- ==== Sys2Proof/Machine/Flags.lean ====
section
/-! DEFINITION. The block's two flags, `slot.valid` and `slot.dirty` (spec/10_state.md R29): every test that reads them
and every update that writes them. "No operation writes a flag as a side effect beyond this table." -/

namespace Sys2Proof.Machine

/-- The hit test: `slot.valid = 1 and slot.tag = a`, all 24 bits compared, false when the slot is empty (R132, R19). -/
def Slot.hit (s : Slot) (a : Addr) : Bool := s.valid && s.tag == a

/-- The write-back test inside MISS: `slot.valid = 1 and slot.dirty = 1` (R126, R134). -/
def Slot.mustEvict (s : Slot) : Bool := s.valid && s.dirty

/-- The test of FLUSH: `slot.dirty = 1` alone (R129; spec/90_conflicts.md C5). -/
def Slot.mustFlush (s : Slot) : Bool := s.dirty

/-- `slot.dirty <- 0`, nothing else (R126, R129). -/
def Slot.markClean (s : Slot) : Slot := { s with dirty := false }

/-- The load step of MISS: value, valid, tag, dirty (R126). -/
def Slot.load (s : Slot) (a : Addr) (b : Byte) : Slot := { s with value := b, valid := true, tag := a, dirty := false }

/-- The assignment step of WRITE_BYTE (R128): `dirty` is set without comparing values (R21). -/
def Slot.store (s : Slot) (a : Addr) (v : Byte) : Slot := { s with value := v, valid := true, tag := a, dirty := true }

end Sys2Proof.Machine
end

