-- ==== Sys2Proof/Machine/Operands.lean ====
section
/-! DEFINITION. The operand forms: addresses (spec/20_memory.md R50, R52), select lines (spec/30_encoding.md R84) and the
frames of a plan (spec/30_encoding.md R71 to R75). -/

namespace Sys2Proof.Machine

/-- `trunc_24` of a host integer, at the address port, before the hit test (R50). -/
def truncAddr (n : Nat) : Addr := BitVec.ofNat 24 n

/-- The host word of an operation whose address operand the host holds as an integer of any width (R50, R80). -/
def hostWordOfInt (op : BitVec 2) (n : Nat) (wdata : Byte) : HostWord := hostWord op (truncAddr n) wdata

/-- `A + j`, the address of payload byte `j`, "formed by the chip, not the block" (R52, R135). -/
def payloadAddr (a : Addr) (j : Nat) : Nat := a.toNat + j

/-- Whether line `d` of the select vector is asserted. -/
def lineAsserted (cs : Lines) (d : Dev) : Bool := (cs &&& d.line) != 0b000#3

/-- The exchanges that send `bytes` in order, each treated as `after` says when it returns. -/
def exchanges (bytes : List Byte) (after : OnReturn) : Plan := bytes.map fun b => ⟨.exchange b, after⟩

/-- A read transaction for `n` bytes: select, header, `n` captured fillers, deselect (R111; `T_R(a)` of R131 is `n = 1`).
`last` is done when the deselect returns. -/
def readPlan (d : Dev) (a : Addr) (n : Nat) (last : OnReturn) : Plan :=
  ⟨.select d, .ignore⟩ :: (exchanges (header Config.opRead a) .ignore ++
    (exchanges (List.replicate n Config.filler) .capture ++ [⟨.deselect d, last⟩]))

/-- A write transaction of `data`: select, header, data, deselect, every returned byte ignored (R112; `T_W(b, v)` of
R131 is one byte). -/
def writePlan (d : Dev) (a : Addr) (data : List Byte) (last : OnReturn) : Plan :=
  ⟨.select d, .ignore⟩ :: (exchanges (header Config.opWrite a) .ignore ++
    (exchanges data .ignore ++ [⟨.deselect d, last⟩]))

end Sys2Proof.Machine
end

