-- ==== Sys2Proof/Machine/Ops.lean ====
section
/-! DEFINITION. The shared operations: memory of a chip, updates of the state, the reference device model
(spec/20_memory.md R52 to R54), the three transport operations (spec/40_transport.md), the sequencer that performs a plan
(spec/10_state.md R28, spec/42_cached_store.md R131), and what stands in place of an exception: the hang and the reset
that leaves it (spec/60_exceptions.md R154, R160; spec/70_reset_and_hazards.md R176, R177). The block takes no exception
and returns from none (R151, R159, R160), so there is no exception entry to define. -/

namespace Sys2Proof.Machine

/-! ## Memory -/

/-- The written byte at an address, if any. -/
def Memory.find : Memory → Nat → Option Byte
  | [], _ => none
  | (b, w) :: m, a => if a = b then some w else Memory.find m a

/-- Write one byte, keeping the addresses strictly rising. -/
def Memory.write : Memory → Nat → Byte → Memory
  | [], a, v => [(a, v)]
  | (b, w) :: m, a, v =>
    if a < b then (a, v) :: (b, w) :: m
    else if a = b then (a, v) :: m
    else (b, w) :: Memory.write m a v

/-- The canonical form: addresses strictly rising, so none is listed twice. -/
abbrev Memory.wf (m : Memory) : Prop := List.Pairwise (fun x y : Host.Cell => x.1 < y.1) m

/-- `DevMem[d][a]`: the byte written there last, or the chip's unspecified content (R34, R37). -/
def State.byteAt (s : State) (d : Dev) (a : Nat) : Byte :=
  ((s.devMem.get d).find a).getD (Config.chipByte d (s.epoch.get d) a)

/-- `DevMem[d][a] <- v`. -/
def State.writeByteAt (s : State) (d : Dev) (a : Nat) (v : Byte) : State :=
  { s with devMem := s.devMem.set d ((s.devMem.get d).write a v) }

/-- Every byte of chip `d` becomes unspecified (R66, D27): its next draws. -/
def State.forgetChip (s : State) (d : Dev) : State :=
  { s with devMem := s.devMem.set d [], epoch := s.epoch.set d (s.epoch.get d + 1) }

/-! ## Updates of the other fields -/

/-- The next draw (R12). -/
def State.nextDraw (s : State) : Byte := Config.draw s.draws

/-- Use `n` draws up. -/
def State.spendDraws (s : State) (n : Nat) : State := { s with draws := s.draws + n }

/-- `emit e` (R12). -/
def State.emit (s : State) (e : BusEvent) : State := { s with trace := s.trace ++ [e] }

/-- `cs[d] <- 1`. -/
def State.assertLine (s : State) (d : Dev) : State := { s with cs := s.cs ||| d.line }

/-- `cs[d] <- 0`. -/
def State.releaseLine (s : State) (d : Dev) : State := { s with cs := s.cs &&& ~~~d.line }

/-- `DevFrame[d] <- f`. -/
def State.setFrame (s : State) (d : Dev) (f : Frame) : State := { s with devFrame := s.devFrame.set d f }

/-- The environment has completed one exchange (R154). -/
def State.spendExchange (s : State) : State := { s with bus := s.bus.map (· - 1) }

/-- Replace the slot. -/
def State.setSlot (s : State) (x : Slot) : State := { s with slot := x }

/-- Replace `seq`. -/
def State.setSeq (s : State) (q : Seq) : State := { s with seq := q }

/-- Give the caller its result. -/
def State.respond (s : State) (r : Response) : State := { s with response := r }

/-- The response of a host command that returns nothing: a draw (R83). -/
def State.respondDraw (s : State) : State := (s.spendDraws 1).respond (.byte s.nextDraw)

/-- `nREAD <- nREAD + 1`. -/
def State.countRead (s : State) : State := { s with nREAD := s.nREAD + 1 }

/-- `nWRITE <- nWRITE + 1`. -/
def State.countWrite (s : State) : State := { s with nWRITE := s.nWRITE + 1 }

/-! ## The chip's side of an exchange -/

/-- The chip returns a draw and takes the frame position `f` (R54 (a)). -/
def answerDraw (d : Dev) (f : Frame) (s : State) : Byte × State := (s.nextDraw, (s.spendDraws 1).setFrame d f)

/-- A chip that does not conform may do anything to its own bytes when it takes a WRITE frame (D27). -/
def State.forgetUnlessConforming (s : State) (d : Dev) : State :=
  if s.conforms.get d then s else s.forgetChip d

/-- The payload byte of a READ frame: the stored byte, and memory unchanged (R52); without `DeviceConforms` a draw
(R54 (c)). -/
def answerRead (d : Dev) (a : Addr) (j : Nat) (s : State) : Byte × State :=
  if s.conforms.get d then
    (s.byteAt d (payloadAddr a j), s.setFrame d (.payload Config.opRead a (j + 1)))
  else answerDraw d (.payload Config.opRead a (j + 1)) s

/-- The payload byte of a WRITE frame: stored at `A + j` at its own exchange (R53, D16), the returned byte a draw;
without `DeviceConforms` the chip may be left in any state. -/
def answerWrite (d : Dev) (a : Addr) (j : Nat) (o : Byte) (s : State) : Byte × State :=
  answerDraw d (.payload Config.opWrite a (j + 1))
    ((s.writeByteAt d (payloadAddr a j) o).forgetUnlessConforming d)

/-- Chip `d` takes the last header byte: the frame's address is complete (R52), and one at or above `MEM_SIZE` is
refused (R49). -/
def answerHeaderEnd (d : Dev) (op : Byte) (a : Addr) (s : State) : Except Refusal (Byte × State) :=
  if s.cfg.memSize ≤ a.toNat then .error .addressBeyondDevice
  else if op = Config.opWrite then .ok (answerDraw d (.payload op a 0) (s.forgetUnlessConforming d))
  else .ok (answerDraw d (.payload op a 0) s)

/-- A payload exchange (R52, R53). `A + j >= MEM_SIZE` is refused as R49 for the frame's own address and as R51 past
it; a frame with another opcode as R54 (b). -/
def answerPayload (d : Dev) (op : Byte) (a : Addr) (j : Nat) (o : Byte) (s : State) : Except Refusal (Byte × State) :=
  if op = Config.opRead ∨ op = Config.opWrite then
    if s.cfg.memSize ≤ payloadAddr a j then
      .error (if j = 0 then .addressBeyondDevice else .rangeBeyondDevice)
    else if op = Config.opRead then .ok (answerRead d a j s)
    else .ok (answerWrite d a j o s)
  else .error .unknownFrame

/-- What the selected chip does in one exchange: the byte it returns and the state after (R52 to R54). -/
def chipAnswer (d : Dev) (o : Byte) (s : State) : Except Refusal (Byte × State) :=
  match s.devFrame.get d with
  | .closed => .error .unknownFrame
  | .k0 => .ok (answerDraw d (.k1 o) s)
  | .k1 op => .ok (answerDraw d (.k2 op o) s)
  | .k2 op b2 => .ok (answerDraw d (.k3 op b2 o) s)
  | .k3 op b2 b1 => answerHeaderEnd d op (joinAddr b2 b1 o) s
  | .payload op a j => answerPayload d op a j o s

/-! ## The transport operations -/

/-- How a transport operation ends: it returns, with a byte if it is an exchange; it waits (R154); it is refused. -/
inductive BusResult where
  | done (s : State) (i : Option Byte)
  | waiting
  | refused (r : Refusal)
  deriving DecidableEq, Repr

/-- SELECT(d) (R96). -/
def performSelect (d : Dev) (s : State) : BusResult :=
  if s.boardInit = false then .refused .beforeBoardInit
  else if s.cs ≠ 0b000#3 then .refused .selectOverlap
  else .done (((s.assertLine d).emit (.sel d)).setFrame d .k0) none

/-- EXCHANGE(o) (R97): "require exactly one d with `cs[d] = 1`", wait, then the chip's answer. -/
def performExchange (o : Byte) (s : State) : BusResult :=
  if s.boardInit = false then .refused .beforeBoardInit
  else
    match Dev.ofLine? s.cs with
    | none => .refused .exchangeWithoutSelect
    | some d =>
      if s.bus = some 0 then .waiting
      else
        match chipAnswer d o s with
        | .error r => .refused r
        | .ok (i, s') => .done (s'.spendExchange.emit (.xchg o i)) (some i)

/-- The end of a transaction at the port: line released, event, frame closed (R98). -/
def endTransaction (d : Dev) (s : State) : State := ((s.releaseLine d).emit (.desel d)).setFrame d .closed

/-- DESELECT(d) (R98). The transaction it ends is counted by its first byte (R13, D20); one that is short or of another
opcode is refused (R54 (b), R168). -/
def performDeselect (d : Dev) (s : State) : BusResult :=
  if s.boardInit = false then .refused .beforeBoardInit
  else if lineAsserted s.cs d = false then .refused .deselectUnselected
  else
    match s.devFrame.get d with
    | .closed => .done (endTransaction d s) none
    | .payload op _ _ =>
      if op = Config.opRead then .done (endTransaction d s).countRead none
      else if op = Config.opWrite then .done (endTransaction d s).countWrite none
      else .refused .unknownFrame
    | .k0 => .refused .unknownFrame
    | .k1 _ => .refused .unknownFrame
    | .k2 _ _ => .refused .unknownFrame
    | .k3 _ _ _ => .refused .unknownFrame

/-- One transport operation. -/
def perform : BusOp → State → BusResult
  | .select d, s => performSelect d s
  | .exchange o, s => performExchange o s
  | .deselect d, s => performDeselect d s

/-! ## The sequencer -/

/-- The bytes captured so far, after a plan step has returned `i`. -/
def capAfter (after : OnReturn) (i : Option Byte) (cap : List Byte) : List Byte :=
  match after, i with
  | .capture, some b => cap ++ [b]
  | _, _ => cap

/-- What the layer above does to the slot when a plan step returns (R126, R131). -/
def slotAfter (after : OnReturn) (cap : List Byte) (x : Slot) : Slot :=
  match after with
  | .ignore => x
  | .capture => x
  | .clean => x.markClean
  | .load a => x.load a (cap.headD x.value)

/-- What an operation does when its plan is done: the host's value goes into the slot last (R131), and the caller gets
its result (R83, R85). -/
def complete (i : Instr) (cap : List Byte) (s : State) : State :=
  match i with
  | .select _ => s.respond .none
  | .exchange _ => s.respond (.byte (cap.headD 0#8))
  | .deselect _ => s.respond .none
  | .dpRead _ _ _ => s.respond (.bytes cap)
  | .dpWrite _ _ _ => s.respond .none
  | .miss _ => s.respond .none
  | .readByte _ => s.respond (.byte s.slot.value)
  | .writeByte a v => (s.setSlot (s.slot.store a v)).respondDraw
  | .flush => s.respondDraw
  | .nop => s.respondDraw

/-- CTRL stops at step `k` of its plan, waiting for the bus: `seq = Run(..)`, no response (R154). -/
def hang (i : Instr) (p : Plan) (k : Nat) (cap : List Byte) (s : State) : State :=
  (s.setSeq (.run i p k cap)).respond .none

/-- Perform the rest of the plan `p` of operation `i`, of which `k` steps are done (R28, R131). -/
def drive (i : Instr) (p : Plan) : (k : Nat) → (cap : List Byte) → (rest : Plan) → State → Host.Outcome State Fault Refusal
  | _, cap, [], s => .next (complete i cap s)
  | k, cap, x :: rest, s =>
    match perform x.op s with
    | .refused r => .refused r
    | .waiting => .next (hang i p k cap s)
    | .done s' b =>
      drive i p (k + 1) (capAfter x.after b cap) rest (s'.setSlot (slotAfter x.after (capAfter x.after b cap) s'.slot))

/-- Start operation `i` with plan `p`, fixed now (R131); one presented while another is executing is refused (R80). -/
def start (i : Instr) (p : Plan) (s : State) : Host.Outcome State Fault Refusal :=
  match s.seq with
  | .idle => drive i p 0 [] p s
  | .run _ _ _ _ => .refused .commandWhileBusy

/-! ## Reset -/

/-- `n` bytes of chip `d` from address `a` on become draws, those below `MEM_SIZE` (N10, U19). -/
def scramble (d : Dev) : (a n : Nat) → State → State
  | _, 0, s => s
  | a, n + 1, s =>
    scramble d (a + 1) n
      (if a < s.cfg.memSize then (s.writeByteAt d a s.nextDraw).spendDraws 1 else s)

/-- The bytes of its frame that chip `d` has taken as a header (R52). -/
def Frame.taken : Frame → List Byte
  | .closed => []
  | .k0 => []
  | .k1 op => [op]
  | .k2 op b2 => [op, b2]
  | .k3 op b2 b1 => [op, b2, b1]
  | .payload op a _ => header op a

/-- The bytes that the rest of a plan sends before it leaves the open transaction. -/
def Plan.sending : Plan → List Byte
  | ⟨.exchange o, _⟩ :: rest => o :: Plan.sending rest
  | _ => []

/-- The bytes that a stopped operation was still to send in its open transaction, the one in flight first (R154). -/
def Seq.sending : Seq → List Byte
  | .idle => []
  | .run _ p k _ => Plan.sending (p.drop k)

/-- The frame that a reset cuts at chip `d`: what the chip has taken, then what was still to be sent to it. -/
def State.cutBytes (s : State) (d : Dev) : List Byte := (s.devFrame.get d).taken ++ s.seq.sending

/-- The address of a WRITE frame, if its header is whole (R71). -/
def writeAddress? : List Byte → Option Addr
  | op :: b2 :: b1 :: b0 :: _ => if op = Config.opWrite then some (joinAddr b2 b1 b0) else none
  | _ => none

/-- A frame cut in its header: a READ changes no byte (R52), a WRITE leaves "`DevMem` at the frame's address" any value
(U19, N10), and a chip that does not conform may do anything with a WRITE (D27). A header whose address no agent was
still to send has no such address, and nothing is stored (R53). -/
def cutHeader (d : Dev) (s : State) : State :=
  match writeAddress? (s.cutBytes d) with
  | some a => (scramble d a.toNat 1 s).forgetUnlessConforming d
  | none => s

/-- A frame cut after chip `d` took the opcode `op`: what the chip makes of an opcode other than READ and WRITE is in no
source, whatever cuts it (R54 (b), U20), and may leave any contents; of the two, `known` says. -/
def cutCommand (d : Dev) (op : Byte) (known s : State) : State :=
  if op = Config.opRead ∨ op = Config.opWrite then known else s.forgetChip d

/-- How many bytes of a WRITE payload a reset leaves open, `j` of them taken: those taken, and the one in flight if the
stopped operation was still to send one. Where neither is, it is the frame's own address (U19), by the model's choice
(notes/assumptions/13.md). -/
def cutCount (j : Nat) (q : Seq) : Nat := if q.sending.isEmpty then max j 1 else j + 1

/-- What a frame cut short by a reset leaves in chip `d` (U19, R177; notes/assumptions/13.md): a READ frame nothing; a
WRITE frame any value at the frame's addresses, in its payload those of the bytes taken or in flight. No other byte is
touched (R176). -/
def cutFrame (d : Dev) (s : State) : State :=
  match s.devFrame.get d with
  | .closed => s
  | .k0 => cutHeader d s
  | .k1 op => cutCommand d op (cutHeader d s) s
  | .k2 op _ => cutCommand d op (cutHeader d s) s
  | .k3 op _ _ => cutCommand d op (cutHeader d s) s
  | .payload op a j => cutCommand d op (if op = Config.opWrite then scramble d a.toNat (cutCount j s.seq) s else s) s

/-- The chips' side of a reset: every open frame is cut. -/
def cutFrames (s : State) : State := cutFrame .dev2 (cutFrame .dev1 (cutFrame .dev0 s))

/-- The four draws an unspecified slot holds after reset: 24 bits of tag, 8 of value (R37, U13). -/
def drawnSlot (n : Nat) : Slot :=
  { valid := false
    tag := joinAddr (Config.draw n) (Config.draw (n + 1)) (Config.draw (n + 2))
    value := Config.draw (n + 3)
    dirty := false }

/-- CTRL's side of a reset (R176, R37): no bus operation, no flush; a dirty byte is discarded (R177). -/
def clearBlock (s : State) : State :=
  { s with
    slot := drawnSlot s.draws
    draws := s.draws + 4
    cs := 0b000#3
    seq := .idle
    devFrame := .all .closed
    trace := []
    nREAD := 0
    nWRITE := 0
    response := .none }

/-- Reset: Store construction (R176). -/
def resetBlock (s : State) : State := clearBlock (cutFrames s)

end Sys2Proof.Machine
end

