-- ==== Sys2Proof/Machine/Protocol.lean ====
section
/-! DEFINITION. The Device Protocol operations (spec/41_protocol.md R111, R112): one transaction each, for any of the
three devices. -/

namespace Sys2Proof.Machine

/-- DP_READ(d, a, n) (R111, R116 for `n = 0`); the `n` captured bytes are its result. -/
def execDpRead (d : Dev) (a : Addr) (n : Nat) (s : State) : Host.Outcome State Fault Refusal :=
  start (.dpRead d a n) (readPlan d a n .ignore) s

/-- DP_WRITE(d, a, data) (R112, R116 for no data). -/
def execDpWrite (d : Dev) (a : Addr) (data : List Byte) (s : State) : Host.Outcome State Fault Refusal :=
  start (.dpWrite d a data) (writePlan d a data .ignore) s

end Sys2Proof.Machine
end

