-- ==== Sys2Proof/Machine/Store.lean ====
section
/-! DEFINITION. The Cached Store operations (spec/42_cached_store.md R126 to R131), each by the plan R131 fixes from the
slot at its start. -/

namespace Sys2Proof.Machine

/-- `T_W(tag, value)`, then `slot.dirty <- 0` (R126 step 2, R129). -/
def writeBackPlan (s : State) : Plan := writePlan s.cfg.devSel s.slot.tag [s.slot.value] .clean

/-- The plan of MISS(a): write back the old byte if valid and dirty, then load `a` (R126). -/
def missPlan (a : Addr) (s : State) : Plan :=
  (if s.slot.mustEvict then writeBackPlan s else []) ++ readPlan s.cfg.devSel a 1 (.load a)

/-- The plan of READ_BYTE(a) and WRITE_BYTE(a, v): empty on a hit, else that of MISS(a) (R131). -/
def accessPlan (a : Addr) (s : State) : Plan := if s.slot.hit a then [] else missPlan a s

/-- The plan of FLUSH (R129, R131). -/
def flushPlan (s : State) : Plan := if s.slot.mustFlush then writeBackPlan s else []

/-- MISS(a) (R126). It has no test of its own precondition: run where the slot is resident for `a` it does what the
pseudocode says (notes/assumptions/9.md). -/
def execMiss (a : Addr) (s : State) : Host.Outcome State Fault Refusal := start (.miss a) (missPlan a s) s

/-- READ_BYTE(a) (R127). -/
def execReadByte (a : Addr) (s : State) : Host.Outcome State Fault Refusal := start (.readByte a) (accessPlan a s) s

/-- WRITE_BYTE(a, v) (R128); a miss reads the byte about to be overwritten (R133). -/
def execWriteByte (a : Addr) (v : Byte) (s : State) : Host.Outcome State Fault Refusal :=
  start (.writeByte a v) (accessPlan a s) s

/-- FLUSH (R129). -/
def execFlush (s : State) : Host.Outcome State Fault Refusal := start .flush (flushPlan s) s

/-- NOP (R130). -/
def execNop (s : State) : Host.Outcome State Fault Refusal := start .nop [] s

end Sys2Proof.Machine
end

