-- ==== Sys2Proof/Machine/Transport.lean ====
section
/-! DEFINITION. The Bus Transport operations as instructions of their own (spec/40_transport.md R96 to R98): each is a
plan of the one transport operation. -/

namespace Sys2Proof.Machine

/-- SELECT(d) (R96). -/
def execSelect (d : Dev) (s : State) : Host.Outcome State Fault Refusal :=
  start (.select d) [⟨.select d, .ignore⟩] s

/-- EXCHANGE(o) (R97); the returned byte is its result. -/
def execExchange (o : Byte) (s : State) : Host.Outcome State Fault Refusal :=
  start (.exchange o) [⟨.exchange o, .capture⟩] s

/-- DESELECT(d) (R98). -/
def execDeselect (d : Dev) (s : State) : Host.Outcome State Fault Refusal :=
  start (.deselect d) [⟨.deselect d, .ignore⟩] s

end Sys2Proof.Machine
end

