-- ==== Sys2Proof/Machine/Dispatch.lean ====
section
/-! DEFINITION. The meaning of every operation of spec/opcode_table.json: one arm per constructor of `Instr`. -/

namespace Sys2Proof.Machine

def exec (i : Instr) (s : State) : Host.Outcome State Fault Refusal :=
  match i with
  -- Bus Transport
  | .select d => Sys2Proof.Machine.execSelect d s
  | .exchange o => Sys2Proof.Machine.execExchange o s
  | .deselect d => Sys2Proof.Machine.execDeselect d s
  -- Device Protocol
  | .dpRead d a n => Sys2Proof.Machine.execDpRead d a n s
  | .dpWrite d a data => Sys2Proof.Machine.execDpWrite d a data s
  -- Cached Store
  | .miss a => Sys2Proof.Machine.execMiss a s
  | .readByte a => Sys2Proof.Machine.execReadByte a s
  | .writeByte a v => Sys2Proof.Machine.execWriteByte a v s
  | .flush => Sys2Proof.Machine.execFlush s
  | .nop => Sys2Proof.Machine.execNop s

end Sys2Proof.Machine
end

