-- ==== Sys2Proof/Machine/Environment.lean ====
section
/-! DEFINITION. The agents outside CTRL (spec/00_scope.md R6) and whose turn it is: what each input does, and what `step`
fetches. -/

namespace Sys2Proof.Machine

/-- The power goes and comes back (R66): `DevMem` is unspecified again, the slot is empty, the board is to be
initialised again (R178). -/
def powerCycle (s : State) : State :=
  { resetBlock s with
    devMem := .all []
    epoch := ⟨s.epoch.dev0 + 1, s.epoch.dev1 + 1, s.epoch.dev2 + 1⟩
    boardInit := false }

/-- The refusal a rejected request ends in: the frames of R54 (b) under R168's own name. -/
def rejection : DecodeError → Refusal
  | .unknownOpcode _ => .unknownFrame
  | .shortFrame => .unknownFrame
  | .badFiller => .noSuchOperation .badFiller
  | .badLines before after => .noSuchOperation (.badLines before after)

/-- What `step` does next: an instruction to execute in a state, or an outcome that needs none. -/
inductive Turn where
  | execute (i : Instr) (s : State)
  | outcome (o : Host.Outcome State Fault Refusal)
  deriving Repr

/-- What input `x` does in state `s`, from which it has been taken. -/
def applyInput (x : Input) (s : State) : Turn :=
  match x with
  | .present r =>
    match decode r with
    | .ok i => .execute i s
    | .error e => .outcome (.refused (rejection e))
  | .boardInit => .outcome (.next { s with boardInit := true })
  | .grant n => .outcome (.next { s with bus := n })
  | .other d a v =>
    if a.toNat < s.cfg.memSize then .outcome (.next (s.writeByteAt d a.toNat v))
    else .outcome (.refused .addressBeyondDevice)
  | .conform d b => .outcome (.next { s with conforms := s.conforms.set d b })
  | .reset => .outcome (.next (resetBlock s))
  | .powerCycle => .outcome (.next (powerCycle s))

/-- Whether CTRL, stopped at step `k` of its plan, still has to wait for the bus (R154). -/
def blocked (p : Plan) (k : Nat) (s : State) : Bool :=
  match p[k]? with
  | some ⟨.exchange _, _⟩ => decide (s.bus = some 0)
  | _ => false

/-- Whose turn it is: a stopped operation goes on as soon as the bus lets it; else the next input acts. With no input
left the block waits for a command (R167), or is stuck (R154). -/
def turn (s : State) : Turn :=
  match s.seq with
  | .idle =>
    match s.inputs with
    | [] => .outcome (.next s)
    | x :: rest => applyInput x { s with inputs := rest }
  | .run i p k cap =>
    if blocked p k s then
      match s.inputs with
      | [] => .outcome (.fault .stuck)
      | x :: rest => applyInput x { s with inputs := rest }
    else .outcome (drive i p k cap (p.drop k) (s.setSeq .idle))

/-- `s` with request `r` next to be presented, at a block that waits for a command. -/
def placeRequest (s : State) (r : Request) : State := { s with seq := .idle, inputs := .present r :: s.inputs }

/-- `s` with the request of a table word next to be presented; a word the table's numbering gives no request is a frame
without a header, which is refused. -/
def placeWord (s : State) (nbits w : Nat) : State :=
  placeRequest s ((tableRequest nbits w).getD (.wire .dev0 []))

end Sys2Proof.Machine
end

