-- ==== Sys2Proof/Machine/Step.lean ====
section
/-! DEFINITION. One step: an operation runs to completion in one step unless the bus stops it (spec/10_state.md R28, D1),
or one input of the environment acts. -/

namespace Sys2Proof.Machine

/-- One step of the run. -/
def step (s : State) : Host.Outcome State Fault Refusal :=
  match turn s with
  | .execute i s' => exec i s'
  | .outcome o => o

/-- `s` with a word of spec/opcode_table.json where `step` fetches its next instruction. -/
def State.withFetchWord (s : State) (nbits w : Nat) : State := placeWord s nbits w

end Sys2Proof.Machine
end

