-- ==== Sys2Proof/Safety.lean ====
section
/-! DEFINITION. The terms in which claims are made: the named premises of a run (spec/00_scope.md section 9), what a
transaction is on the trace (R13), the effect of whole transactions and of a miss, the memory the host sees
(spec/10_state.md R25), and the invariant of the machine. -/

namespace Sys2Proof

/-- A host command, an operation the host may send (R81). -/
def Instr.isHost : Instr → Bool
  | .select _ => false
  | .exchange _ => false
  | .deselect _ => false
  | .dpRead _ _ _ => false
  | .dpWrite _ _ _ => false
  | .miss _ => false
  | .readByte _ => true
  | .writeByte _ _ => true
  | .flush => true
  | .nop => true

end Sys2Proof

namespace Sys2Proof.Machine

/-! ## Premises -/

/-- Between two operations, with the premises `BoardInit` (R178) and `BusLive` (R154), all lines released (R32). -/
structure State.Ready (s : State) : Prop where
  board : s.boardInit = true
  idle : s.seq = .idle
  released : s.cs = 0b000#3
  live : s.bus = none

/-- `DeviceConforms` for chip `d` (R52, R53). -/
abbrev State.Conforming (s : State) (d : Dev) : Prop := s.conforms.get d = true

/-- `InRange` for one address (R49). -/
abbrev State.InRange (s : State) (a : Addr) : Prop := a.toNat < s.cfg.memSize

/-- `InRange` for the byte that a write-back would send: a dirty byte's address is below `MEM_SIZE`. -/
abbrev State.DirtyInRange (s : State) : Prop := s.slot.dirty = true → s.InRange s.slot.tag

/-! ## Transactions on the trace (R13) -/

/-- Where a reading of the trace stands: the open transaction, its device and the bytes sent in it so far, and how many
READ and WRITE transactions were closed. -/
structure Scan where
  openTx : Option (Dev × List Byte)
  reads : Nat
  writes : Nat
  deriving DecidableEq, Repr

/-- Close a transaction that sent `sent`: it is a READ or a WRITE by its first byte and has its four header bytes. -/
def Scan.close (sc : Scan) (sent : List Byte) : Option Scan :=
  if sent.length < 4 then none
  else if sent.head? = some Config.opRead then some { sc with openTx := none, reads := sc.reads + 1 }
  else if sent.head? = some Config.opWrite then some { sc with openTx := none, writes := sc.writes + 1 }
  else none

/-- Read one event; `none` if it breaks the form `SEL(d) · XCHG(..)* · DESEL(d)`. -/
def Scan.next (sc : Scan) (e : BusEvent) : Option Scan :=
  match e, sc.openTx with
  | .sel d, none => some { sc with openTx := some (d, []) }
  | .xchg o _, some (d, sent) => some { sc with openTx := some (d, sent ++ [o]) }
  | .desel e, some (d, sent) => if e = d then sc.close sent else none
  | _, _ => none

/-- Read a whole trace from reset. -/
def scanTrace (t : List BusEvent) : Option Scan :=
  t.foldl (fun acc e => acc.bind fun sc => sc.next e) (some ⟨none, 0, 0⟩)

/-- The chip's frame position is that of a transaction that has sent `sent` (R33, R52). -/
def Frame.matches : Frame → List Byte → Prop
  | .closed, _ => False
  | .k0, sent => sent = []
  | .k1 op, sent => sent = [op]
  | .k2 op b2, sent => sent = [op, b2]
  | .k3 op b2 b1, sent => sent = [op, b2, b1]
  | .payload op a j, sent => sent.take 4 = header op a ∧ sent.length = 4 + j

/-! ## The effect of whole transactions -/

/-- The four header exchanges, the returned bytes being the draws from `n` on (R54). -/
def headerEvents (op : Byte) (a : Addr) (n : Nat) : List BusEvent :=
  [.xchg op (Config.draw n), .xchg (addrB2 a) (Config.draw (n + 1)), .xchg (addrB1 a) (Config.draw (n + 2)),
    .xchg (addrB0 a) (Config.draw (n + 3))]

/-- The payload exchanges of a WRITE, the returned bytes being the draws from `n` on (R53). -/
def dataEvents : (n : Nat) → List Byte → List BusEvent
  | _, [] => []
  | n, b :: bs => .xchg b (Config.draw n) :: dataEvents (n + 1) bs

/-- The trace of `DP_READ(d, a, n)` that captures `bytes` (R111). -/
def readEvents (d : Dev) (a : Addr) (n : Nat) (bytes : List Byte) : List BusEvent :=
  .sel d :: (headerEvents Config.opRead a n ++ (bytes.map (.xchg Config.filler) ++ [.desel d]))

/-- The trace of `DP_WRITE(d, a, data)` (R112). -/
def writeEvents (d : Dev) (a : Addr) (n : Nat) (data : List Byte) : List BusEvent :=
  .sel d :: (headerEvents Config.opWrite a n ++ (dataEvents (n + 4) data ++ [.desel d]))

/-- The bytes chip `d` stores at `[a, a + n)`. -/
def State.chipBytes (s : State) (d : Dev) : (a n : Nat) → List Byte
  | _, 0 => []
  | a, n + 1 => s.byteAt d a :: s.chipBytes d (a + 1) n

/-- `DevMem[d][a + j] <- data[j]` for every `j` (R112). -/
def State.storeBytes (s : State) (d : Dev) : (a : Nat) → List Byte → State
  | _, [] => s
  | a, b :: bs => (s.writeByteAt d a b).storeBytes d (a + 1) bs

/-- The state after a READ transaction for `n` bytes on a conforming chip (R111). -/
def State.afterRead (s : State) (d : Dev) (a : Addr) (n : Nat) : State :=
  { s with
    devFrame := s.devFrame.set d .closed
    trace := s.trace ++ readEvents d a s.draws (s.chipBytes d a.toNat n)
    nREAD := s.nREAD + 1
    draws := s.draws + 4 }

/-- The state after a WRITE transaction of `data` on a conforming chip (R112). -/
def State.afterWrite (s : State) (d : Dev) (a : Addr) (data : List Byte) : State :=
  { s.storeBytes d a.toNat data with
    devFrame := s.devFrame.set d .closed
    trace := s.trace ++ writeEvents d a s.draws data
    nWRITE := s.nWRITE + 1
    draws := s.draws + 4 + data.length }

/-- A write-back of the slot: the WRITE transaction, then `dirty <- 0`, the byte staying resident (R126, R129). -/
def State.afterWriteBack (s : State) : State :=
  (s.afterWrite s.cfg.devSel s.slot.tag [s.slot.value]).setSlot s.slot.markClean

/-- The load of address `a` into the slot (R126 step 3). -/
def State.afterLoad (s : State) (a : Addr) : State :=
  (s.afterRead s.cfg.devSel a 1).setSlot
    { valid := true, tag := a, value := s.byteAt s.cfg.devSel a.toNat, dirty := false }

/-- MISS(a): the write-back if valid and dirty, then the load (R126). -/
def State.afterMiss (s : State) (a : Addr) : State :=
  if s.slot.valid = true ∧ s.slot.dirty = true then s.afterWriteBack.afterLoad a else s.afterLoad a

/-- The access step of READ_BYTE and WRITE_BYTE: nothing on a hit, MISS(a) else (R127, R128). -/
def State.afterAccess (s : State) (a : Addr) : State :=
  if s.slot.valid = true ∧ s.slot.tag = a then s else s.afterMiss a

/-! ## The memory the host sees (R25) -/

/-- `AM(a)`: the slot's byte if the slot is resident for `a`, else the chip's. -/
def State.am (s : State) (a : Addr) : Byte :=
  if s.slot.valid = true ∧ s.slot.tag = a then s.slot.value else s.byteAt s.cfg.devSel a.toNat

/-- A clean resident byte equals the chip's (R24). -/
def State.Coherent (s : State) : Prop :=
  s.slot.valid = true → s.slot.dirty = false → s.byteAt s.cfg.devSel s.slot.tag.toNat = s.slot.value

/-- What a run of host commands needs between two of them: the premises of R24, the slot's own invariant (R23), and
coherence. -/
structure State.HostReady (s : State) : Prop where
  ready : s.Ready
  conforms : s.Conforming s.cfg.devSel
  inRange : s.slot.valid = true → s.InRange s.slot.tag
  dirtyValid : s.slot.dirty = true → s.slot.valid = true
  coherent : s.Coherent

/-- The address a host command names, if any, is below `MEM_SIZE`. -/
def State.CommandInRange (s : State) : Instr → Prop
  | .readByte a => s.InRange a
  | .writeByte a _ => s.InRange a
  | _ => True

/-- What a host command does to a plain byte array (R25). -/
def arrayAfter (i : Instr) (m : Addr → Byte) : Addr → Byte :=
  match i with
  | .writeByte a v => fun x => if x = a then v else m x
  | _ => m

/-- `s` with the host about to present the commands `is`, and nothing else. -/
def State.presenting (s : State) (is : List Instr) : State :=
  { s with inputs := is.map fun i => .present (encode i) }

/-! ## What a run of host commands costs (R190, R191) -/

/-- The slot resident for `a` and clean, its value left out of account. -/
def Slot.residentClean (x : Slot) (a : Addr) : Slot := { x with valid := true, tag := a, dirty := false }

/-- The slot after a host command, its value left out of account (`value` is kept, or the host's). -/
def Slot.afterCommand (x : Slot) (i : Instr) : Slot :=
  match i with
  | .select _ => x
  | .exchange _ => x
  | .deselect _ => x
  | .dpRead _ _ _ => x
  | .dpWrite _ _ _ => x
  | .miss _ => x
  | .readByte a => if x.hit a then x else x.residentClean a
  | .writeByte a v => x.store a v
  | .flush => x.markClean
  | .nop => x

/-- READ transactions of READ_BYTE(a) and WRITE_BYTE(a, v): one on a miss (R190). -/
def Slot.accessReads (x : Slot) (a : Addr) : Nat := if x.hit a then 0 else 1

/-- WRITE transactions of READ_BYTE(a) and WRITE_BYTE(a, v): one on a miss that finds the slot dirty (R190). -/
def Slot.accessWrites (x : Slot) (a : Addr) : Nat := if x.hit a then 0 else if x.mustEvict then 1 else 0

/-- READ transactions of one host command (R190). -/
def Slot.readsOf (x : Slot) (i : Instr) : Nat :=
  match i with
  | .select _ => 0
  | .exchange _ => 0
  | .deselect _ => 0
  | .dpRead _ _ _ => 0
  | .dpWrite _ _ _ => 0
  | .miss _ => 0
  | .readByte a => x.accessReads a
  | .writeByte a _ => x.accessReads a
  | .flush => 0
  | .nop => 0

/-- WRITE transactions of one host command: those of an access, one on a FLUSH that finds the slot dirty (R190). -/
def Slot.writesOf (x : Slot) (i : Instr) : Nat :=
  match i with
  | .select _ => 0
  | .exchange _ => 0
  | .deselect _ => 0
  | .dpRead _ _ _ => 0
  | .dpWrite _ _ _ => 0
  | .miss _ => 0
  | .readByte a => x.accessWrites a
  | .writeByte a _ => x.accessWrites a
  | .flush => if x.mustFlush then 1 else 0
  | .nop => 0

/-- READ transactions of a sequence of host commands. -/
def readsOfRun : Slot → List Instr → Nat
  | _, [] => 0
  | x, i :: is => x.readsOf i + readsOfRun (x.afterCommand i) is

/-- WRITE transactions of a sequence of host commands. -/
def writesOfRun : Slot → List Instr → Nat
  | _, [] => 0
  | x, i :: is => x.writesOf i + writesOfRun (x.afterCommand i) is

/-- How many WRITE_BYTE commands a sequence holds. -/
def countWriteByte (is : List Instr) : Nat :=
  is.countP fun i => match i with | .writeByte _ _ => true | _ => false

/-- How many FLUSH commands a sequence holds. -/
def countFlush (is : List Instr) : Nat := is.countP fun i => i == .flush

/-! ## The invariant of the machine -/

/-- Every chip's list of written bytes is in canonical form and holds only addresses the chip has. -/
def State.MemoryOK (s : State) : Prop :=
  ∀ d, (s.devMem.get d).wf ∧ ∀ c ∈ s.devMem.get d, c.1 < s.cfg.memSize

/-- `slot.dirty = 1` implies `slot.valid = 1` (R23). -/
def State.SlotOK (s : State) : Prop := s.slot.dirty = true → s.slot.valid = true

/-- The trace is a sequence of transactions, the last perhaps open; the counters count the closed ones; at most one line
is asserted, that of the open transaction, and its chip alone has an open frame, at the transaction's position (R13, R32,
R33, R101, R102). -/
def State.BusOK (s : State) : Prop :=
  ∃ sc, scanTrace s.trace = some sc ∧ sc.reads = s.nREAD ∧ sc.writes = s.nWRITE ∧
    match sc.openTx with
    | none => s.cs = 0b000#3 ∧ ∀ d, s.devFrame.get d = .closed
    | some (d, sent) => s.cs = d.line ∧ (s.devFrame.get d).matches sent ∧ ∀ e, e ≠ d → s.devFrame.get e = .closed

/-- A frame whose header is complete lies inside its chip (R49, R51). -/
def State.FrameOK (s : State) : Prop :=
  ∀ d op a j, s.devFrame.get d = .payload op a j → s.InRange a ∧ payloadAddr a j ≤ s.cfg.memSize

/-- A stopped operation waits at an exchange of its plan, with a select line asserted (R154). -/
def State.SeqOK (s : State) : Prop :=
  ∀ i p k cap, s.seq = .run i p k cap →
    (∃ o after, p[k]? = some ⟨.exchange o, after⟩) ∧ s.boardInit = true ∧ s.cs ≠ 0b000#3

/-- The invariant every step keeps. -/
structure State.Inv (s : State) : Prop where
  config : s.cfg.WF
  memory : s.MemoryOK
  slot : s.SlotOK
  bus : s.BusOK
  frame : s.FrameOK
  seq : s.SeqOK

/-! ## Comparing outcomes -/

/-- An outcome with its next state changed by `f`. -/
def mapNext (f : State → State) : Host.Outcome State Fault Refusal → Host.Outcome State Fault Refusal
  | .next s => .next (f s)
  | .fault r => .fault r
  | .refused r => .refused r

/-- `s` with other values of the parameters that no rule reads (R9). -/
def State.withElectrical (level : Bool) (order : BitOrder) (mode : Fin 4) (s : State) : State :=
  { s with cfg := { s.cfg with csActiveLevel := level, bitOrder := order, clockMode := mode } }

/-- `s` with other bits in `slot.tag` and `slot.value` if the slot is empty, `s` itself if it is not (R18). -/
def State.withDeadSlot (t : Addr) (v : Byte) (s : State) : State :=
  if s.slot.valid = true then s else { s with slot := { s.slot with tag := t, value := v } }

end Sys2Proof.Machine
end

