-- ==== Sys2Proof/Certificates/Slice0/Obligations.lean ====
section
/-! DEFINITION. The statements for the provers: one `def Obligations.<Name> : Prop` each, listed in OBLIGATIONS.json. They
follow the numbered rules of spec/, layer by layer: encoding, step, transport, protocol, store, hang, reset, frames, and
the whole-machine rules. Every free value (`Config.draw`, `Config.chipByte`) stands in them as a constant without a body,
so each holds whatever its value is. -/

open Sys2Proof Sys2Proof.Machine

/-! ## Encoding -/

/-- Every operation is what its encoding decodes to, with every operand at every value (R71, R80, R84, R87). -/
def Obligations.DecodeEncodeRoundTrip : Prop :=
  ∀ i : Instr, decode (encode i) = .ok i

/-- R81, R82: the four values of `op`, each with the operands it uses and no other; ignored fields change nothing, and
every host word is one of these; the canonical encodings have the ignored bits zero. -/
def Obligations.HostWordMeaning : Prop :=
  (∀ (a : Addr) (v : Byte), decode (.host (hostWord 0b00#2 a v)) = .ok .nop) ∧
  (∀ (a : Addr) (v : Byte), decode (.host (hostWord 0b01#2 a v)) = .ok .flush) ∧
  (∀ (a : Addr) (v : Byte), decode (.host (hostWord 0b10#2 a v)) = .ok (.writeByte a v)) ∧
  (∀ (a : Addr) (v : Byte), decode (.host (hostWord 0b11#2 a v)) = .ok (.readByte a)) ∧
  (∀ w : HostWord, ∃ op a v, w = hostWord op a v) ∧
  (∀ a : Addr, encode (.readByte a) = .host (hostWord 0b11#2 a 0#8)) ∧
  encode .flush = .host 0x100000000#34 ∧ encode .nop = .host 0x000000000#34

/-- R71, R72, R74, R77: a frame the decoder accepts is the encoding of the operation it gives. -/
def Obligations.AcceptedFrameIsEncoding : Prop :=
  ∀ (d : Dev) (frame : List Byte) (i : Instr), decode (.wire d frame) = .ok i → encode i = .wire d frame

/-- R50: the address port truncates before anything looks at the address, so host integers that agree in their low 24
bits ask for the same operation. -/
def Obligations.HostIntegersTruncate : Prop :=
  ∀ (m n : Nat) (v : Byte), m % 16777216 = n % 16777216 →
    decode (.host (hostWordOfInt 0b11#2 m v)) = decode (.host (hostWordOfInt 0b11#2 n v)) ∧
    decode (.host (hostWordOfInt 0b10#2 m v)) = decode (.host (hostWordOfInt 0b10#2 n v)) ∧
    decode (.host (hostWordOfInt 0b11#2 m v)) = .ok (.readByte (BitVec.ofNat 24 (m % 16777216)))

/-- Words written out from the spec's tables decode to the operations they stand for (spec/95_test_vectors.md: S1; PR3;
C16; C15; S5 twice; spec/30_encoding.md R84 twice). -/
def Obligations.SpecWordsDecode : Prop :=
  decode (.host 0x2000005C3#34) = .ok (.writeByte 0x000005#24 0xC3#8) ∧
  decode (.host 0x3FFFFFF00#34) = .ok (.readByte 0xFFFFFF#24) ∧
  decode (.host 0x1ABCDEF12#34) = .ok .flush ∧
  decode (.host 0x000000000#34) = .ok .nop ∧
  decode (.wire .dev0 [0x03#8, 0x12#8, 0x34#8, 0x56#8, 0xFF#8]) = .ok (.dpRead .dev0 0x123456#24 1) ∧
  decode (.wire .dev0 [0x02#8, 0x12#8, 0x34#8, 0x56#8, 0xA5#8]) = .ok (.dpWrite .dev0 0x123456#24 [0xA5#8]) ∧
  decode (.port (.lines 0b000#3 0b100#3)) = .ok (.select .dev2) ∧
  decode (.port (.lines 0b010#3 0b000#3)) = .ok (.deselect .dev1)

/-! ## The step -/

/-- When the block waits for a command and the next thing presented decodes to an operation, the step is that operation's
meaning in the state with the request taken. -/
def Obligations.StepRunsDecodedInstruction : Prop :=
  ∀ (s : State) (r : Request) (rest : List Input) (i : Instr), s.seq = .idle → s.inputs = .present r :: rest →
    decode r = .ok i → step s = exec i { s with inputs := rest }

/-- R80, R168 for a host command: one presented while another is executing is refused. That the same holds of SELECT,
EXCHANGE, DESELECT, DP_READ, DP_WRITE and MISS, and comes before every other refusal, is the model's choice
(notes/assumptions/20.md). -/
def Obligations.BusyBlockRefusesCommands : Prop :=
  ∀ (s : State) (i j : Instr) (p : Plan) (k : Nat) (cap : List Byte), s.seq = .run j p k cap →
    exec i s = .refused .commandWhileBusy

/-- R54 (b), R77, R168: a frame of another opcode, or shorter than four bytes, is refused when it is presented. -/
def Obligations.UnknownFramesRefused : Prop :=
  ∀ (s : State) (d : Dev) (frame : List Byte) (rest : List Input), s.seq = .idle →
    s.inputs = .present (.wire d frame) :: rest →
    (frame.length < 4 ∨ ∃ op, frame.head? = some op ∧ op ≠ Config.opRead ∧ op ≠ Config.opWrite) →
    step s = .refused .unknownFrame

/-- R151, R154: nothing raises a fault. The one fault is `stuck`, and a step answers it exactly when an operation is
stopped at an exchange that the bus does not complete and no input is left. -/
def Obligations.OnlyHangsAreStuck : Prop :=
  (∀ (i : Instr) (s : State) (f : Fault), exec i s ≠ .fault f) ∧
  (∀ (s : State) (f : Fault), step s = .fault f ↔
    s.inputs = [] ∧ s.bus = some 0 ∧ ∃ i p k cap o after, s.seq = .run i p k cap ∧ p[k]? = some ⟨.exchange o, after⟩)

/-- R167: with nothing presented an idle block waits, and nothing changes. -/
def Obligations.IdleBlockWaits : Prop :=
  ∀ s : State, s.seq = .idle → s.inputs = [] → step s = .next s

/-! ## Bus Transport -/

/-- R96, R84, R102: SELECT(d) with all lines released asserts line `d` alone, emits `SEL(d)` and opens the chip's frame,
whatever the bus does; with any line asserted it is refused. -/
def Obligations.SelectAssertsOneLine : Prop :=
  ∀ (d : Dev) (s : State), s.boardInit = true → s.seq = .idle →
    (s.cs = 0b000#3 → exec (.select d) s =
      .next { s with cs := d.line, devFrame := s.devFrame.set d .k0, trace := s.trace ++ [.sel d], response := .none }) ∧
    (s.cs ≠ 0b000#3 → exec (.select d) s = .refused .selectOverlap)

/-- R98, R13: DESELECT(d) ends a READ or a WRITE transaction of any length: line released, `DESEL(d)`, frame closed, the
transaction counted by its first byte; of a released line it is refused. That it is counted at its DESELECT is read from
R13 (notes/assumptions/11.md). That `DevMem` is as before also where a WRITE frame ends is the model's choice
(notes/assumptions/12.md): it commits each byte at its own exchange, of the two times D16 and R53 allow. -/
def Obligations.DeselectEndsTransaction : Prop :=
  ∀ (d : Dev) (s : State), s.boardInit = true → s.seq = .idle →
    (∀ a j, s.cs = d.line → s.devFrame.get d = .payload Config.opRead a j → exec (.deselect d) s =
      .next { s with cs := 0b000#3, devFrame := s.devFrame.set d .closed, trace := s.trace ++ [.desel d],
                     nREAD := s.nREAD + 1, response := .none }) ∧
    (∀ a j, s.cs = d.line → s.devFrame.get d = .payload Config.opWrite a j → exec (.deselect d) s =
      .next { s with cs := 0b000#3, devFrame := s.devFrame.set d .closed, trace := s.trace ++ [.desel d],
                     nWRITE := s.nWRITE + 1, response := .none }) ∧
    (lineAsserted s.cs d = false → exec (.deselect d) s = .refused .deselectUnselected)

/-- R54 (b), R168: DESELECT of a transaction shorter than four exchanges, or of another opcode, is refused. -/
def Obligations.DeselectRefusesUnknownFrame : Prop :=
  ∀ (d : Dev) (s : State), s.boardInit = true → s.seq = .idle → s.cs = d.line →
    ((∃ sent, sent.length < 4 ∧ (s.devFrame.get d).matches sent) ∨
      ∃ op a j, s.devFrame.get d = .payload op a j ∧ op ≠ Config.opRead ∧ op ≠ Config.opWrite) →
    exec (.deselect d) s = .refused .unknownFrame

/-- R52, R54 (a): the first three header exchanges of any frame return a draw and move the chip's frame on by the byte
sent. -/
def Obligations.ExchangeTakesHeaderByte : Prop :=
  ∀ (d : Dev) (o : Byte) (s : State), s.boardInit = true → s.seq = .idle → s.cs = d.line → s.bus ≠ some 0 →
    ∀ g, ((s.devFrame.get d = .k0 ∧ g = .k1 o) ∨ (∃ op, s.devFrame.get d = .k1 op ∧ g = .k2 op o) ∨
        (∃ op b2, s.devFrame.get d = .k2 op b2 ∧ g = .k3 op b2 o)) →
      exec (.exchange o) s =
        .next { s with devFrame := s.devFrame.set d g, trace := s.trace ++ [.xchg o (Config.draw s.draws)],
                       draws := s.draws + 1, bus := s.bus.map (· - 1), response := .byte (Config.draw s.draws) }

/-- R52, R49: the fourth exchange completes the address, most significant byte first; an address the chip has opens the
payload, one at or above `MEM_SIZE` is refused. -/
def Obligations.ExchangeCompletesAddress : Prop :=
  ∀ (d : Dev) (op b2 b1 o : Byte) (s : State), s.boardInit = true → s.seq = .idle → s.cs = d.line → s.bus ≠ some 0 →
    s.devFrame.get d = .k3 op b2 b1 →
    (s.Conforming d → b2.toNat * 65536 + b1.toNat * 256 + o.toNat < s.cfg.memSize → exec (.exchange o) s =
      .next { s with devFrame := s.devFrame.set d (.payload op (b2 ++ b1 ++ o) 0),
                     trace := s.trace ++ [.xchg o (Config.draw s.draws)], draws := s.draws + 1,
                     bus := s.bus.map (· - 1), response := .byte (Config.draw s.draws) }) ∧
    (s.cfg.memSize ≤ b2.toNat * 65536 + b1.toNat * 256 + o.toNat → exec (.exchange o) s = .refused .addressBeyondDevice)

/-- R52, R97 (a): payload exchange `4 + j` of a READ frame returns the byte the selected chip stores at `A + j`, whatever
byte is sent, and changes no byte of any chip. -/
def Obligations.ExchangeReadsStoredByte : Prop :=
  ∀ (d : Dev) (o : Byte) (a : Addr) (j : Nat) (s : State), s.boardInit = true → s.seq = .idle → s.cs = d.line →
    s.bus ≠ some 0 → s.Conforming d → s.devFrame.get d = .payload Config.opRead a j → a.toNat + j < s.cfg.memSize →
    exec (.exchange o) s =
      .next { s with devFrame := s.devFrame.set d (.payload Config.opRead a (j + 1)),
                     trace := s.trace ++ [.xchg o (s.byteAt d (a.toNat + j))],
                     bus := s.bus.map (· - 1), response := .byte (s.byteAt d (a.toNat + j)) }

/-- R53: payload exchange `4 + j` of a WRITE frame stores the byte sent at `A + j` of the selected chip, and no other
byte of any chip changes; the byte returned is a draw. -/
def Obligations.ExchangeStoresSentByte : Prop :=
  ∀ (d : Dev) (o : Byte) (a : Addr) (j : Nat) (s : State), s.boardInit = true → s.seq = .idle → s.cs = d.line →
    s.bus ≠ some 0 → s.Conforming d → s.devFrame.get d = .payload Config.opWrite a j → a.toNat + j < s.cfg.memSize →
    ∃ t, exec (.exchange o) s = .next t ∧ t.byteAt d (a.toNat + j) = o ∧
      (∀ e x, e ≠ d ∨ x ≠ a.toNat + j → t.byteAt e x = s.byteAt e x) ∧
      t.devFrame = s.devFrame.set d (.payload Config.opWrite a (j + 1)) ∧
      t.trace = s.trace ++ [.xchg o (Config.draw s.draws)] ∧ t.response = .byte (Config.draw s.draws) ∧
      t.cs = s.cs ∧ t.slot = s.slot ∧ t.seq = .idle ∧ t.nREAD = s.nREAD ∧ t.nWRITE = s.nWRITE

/-- R97, R103: EXCHANGE unless exactly one line is asserted is refused; R51: so is one whose payload byte lies past the
chip's end; R54 (b), R168: so is one in the payload of a frame whose opcode is neither `0x02` nor `0x03` (refused there by
the model's reading, notes/assumptions/10.md). -/
def Obligations.ExchangeRefusals : Prop :=
  ∀ (o : Byte) (s : State), s.boardInit = true → s.seq = .idle →
    ((∀ d : Dev, s.cs ≠ d.line) → exec (.exchange o) s = .refused .exchangeWithoutSelect) ∧
    (∀ (d : Dev) (op : Byte) (a : Addr) (j : Nat), s.cs = d.line → s.bus ≠ some 0 →
      s.devFrame.get d = .payload op a j → op = Config.opRead ∨ op = Config.opWrite → 0 < j →
      s.cfg.memSize ≤ a.toNat + j → exec (.exchange o) s = .refused .rangeBeyondDevice) ∧
    (∀ (d : Dev) (op : Byte) (a : Addr) (j : Nat), s.cs = d.line → s.bus ≠ some 0 →
      s.devFrame.get d = .payload op a j → op ≠ Config.opRead → op ≠ Config.opWrite →
      exec (.exchange o) s = .refused .unknownFrame)

/-- R178: before Board Init every transport operation is refused, and with it every operation that would perform one. -/
def Obligations.NothingOnTheBusBeforeBoardInit : Prop :=
  ∀ s : State, s.boardInit = false → s.seq = .idle →
    (∀ d, exec (.select d) s = .refused .beforeBoardInit) ∧ (∀ o, exec (.exchange o) s = .refused .beforeBoardInit) ∧
    (∀ d, exec (.deselect d) s = .refused .beforeBoardInit) ∧
    (∀ d a n, exec (.dpRead d a n) s = .refused .beforeBoardInit) ∧
    (∀ d a data, exec (.dpWrite d a data) s = .refused .beforeBoardInit) ∧
    (∀ a, exec (.miss a) s = .refused .beforeBoardInit) ∧
    (∀ a, s.slot.hit a = false → exec (.readByte a) s = .refused .beforeBoardInit) ∧
    (∀ a v, s.slot.hit a = false → exec (.writeByte a v) s = .refused .beforeBoardInit) ∧
    (s.slot.dirty = true → exec .flush s = .refused .beforeBoardInit)

/-! ## Device Protocol -/

/-- R111, R116: DP_READ(d, a, n) on a conforming chip: its trace, one READ counted, the stored bytes of `[a, a + n)`
returned, every other piece of state as it was. -/
def Obligations.DpReadReturnsStoredBytes : Prop :=
  ∀ (d : Dev) (a : Addr) (n : Nat) (s : State), s.Ready → s.Conforming d → s.InRange a → a.toNat + n ≤ s.cfg.memSize →
    exec (.dpRead d a n) s =
      .next { s with devFrame := s.devFrame.set d .closed,
                     trace := s.trace ++ readEvents d a s.draws (s.chipBytes d a.toNat n),
                     nREAD := s.nREAD + 1, draws := s.draws + 4, response := .bytes (s.chipBytes d a.toNat n) }

/-- R112, R116: DP_WRITE(d, a, data) on a conforming chip: its trace, one WRITE counted, `DevMem[d][a + j] = data[j]` for
every `j`, no other byte of any chip changed, every other piece of state as it was. -/
def Obligations.DpWriteStoresBytes : Prop :=
  ∀ (d : Dev) (a : Addr) (data : List Byte) (s : State), s.Ready → s.Conforming d → s.InRange a →
    a.toNat + data.length ≤ s.cfg.memSize →
    ∃ m, exec (.dpWrite d a data) s =
        .next { s with devMem := m, devFrame := s.devFrame.set d .closed,
                       trace := s.trace ++ writeEvents d a s.draws data, nWRITE := s.nWRITE + 1,
                       draws := s.draws + 4 + data.length, response := .none } ∧
      (∀ (j : Nat) (h : j < data.length), State.byteAt { s with devMem := m } d (a.toNat + j) = data[j]) ∧
      (∀ e x, e ≠ d ∨ x < a.toNat ∨ a.toNat + data.length ≤ x →
        State.byteAt { s with devMem := m } e x = s.byteAt e x)

/-- R49, R51: a frame address at or above `MEM_SIZE` is refused, and so is a payload that runs past it, for a conforming
chip or not. -/
def Obligations.ProtocolRefusesBeyondDevice : Prop :=
  ∀ (d : Dev) (a : Addr) (s : State), s.Ready →
    (s.cfg.memSize ≤ a.toNat → ∀ n data, exec (.dpRead d a n) s = .refused .addressBeyondDevice ∧
      exec (.dpWrite d a data) s = .refused .addressBeyondDevice) ∧
    (s.InRange a → ∀ n, s.cfg.memSize < a.toNat + n → exec (.dpRead d a n) s = .refused .rangeBeyondDevice) ∧
    (s.InRange a → ∀ data : List Byte, s.cfg.memSize < a.toNat + data.length →
      exec (.dpWrite d a data) s = .refused .rangeBeyondDevice)

/-- R54 (c), R114, R156: without `DeviceConforms` DP_READ completes all the same, each byte it returns is a draw taken as
data, and no other piece of state is different from what a conforming chip leaves but the draws used. That the faulty chip
keeps its own bytes over a READ frame is the model's choice (notes/assumptions/14.md), no rule of the spec. -/
def Obligations.DpReadOfFaultyChipReturnsDraws : Prop :=
  ∀ (d : Dev) (a : Addr) (n : Nat) (s : State), s.Ready → ¬ s.Conforming d → s.InRange a →
    a.toNat + n ≤ s.cfg.memSize →
    ∃ bytes : List Byte, bytes = (List.range n).map (fun j => Config.draw (s.draws + 4 + j)) ∧
      exec (.dpRead d a n) s =
        .next { s with devFrame := s.devFrame.set d .closed, trace := s.trace ++ readEvents d a s.draws bytes,
                       nREAD := s.nREAD + 1, draws := s.draws + 4 + n, response := .bytes bytes }

/-- P11 of spec/95_test_vectors.md, from R52 and R53: what DP_WRITE sends to a conforming chip, DP_READ of the same range
returns. -/
def Obligations.DpReadAfterDpWrite : Prop :=
  ∀ (d : Dev) (a : Addr) (data : List Byte) (s : State), s.Ready → s.Conforming d → s.InRange a →
    a.toNat + data.length ≤ s.cfg.memSize →
    ∃ t u, exec (.dpWrite d a data) s = .next t ∧ exec (.dpRead d a data.length) t = .next u ∧ u.response = .bytes data

/-! ## Cached Store -/

/-- R126: MISS(a) writes the old byte back if the slot is valid and dirty, then loads `a`; it returns nothing.
Where the slot is resident for `a`, outside the precondition of R126, that is the model's choice
(notes/assumptions/9.md). -/
def Obligations.MissWritesBackThenLoads : Prop :=
  ∀ (a : Addr) (s : State), s.Ready → s.Conforming s.cfg.devSel → s.InRange a → s.DirtyInRange →
    exec (.miss a) s = .next ((s.afterMiss a).respond .none)

/-- R127: READ_BYTE(a) makes the slot resident for `a` by MISS unless it is, and returns the slot's byte. -/
def Obligations.ReadByteReturnsSlotByte : Prop :=
  ∀ (a : Addr) (s : State), s.Ready → s.Conforming s.cfg.devSel → s.InRange a → s.DirtyInRange →
    exec (.readByte a) s = .next ((s.afterAccess a).respond (.byte (s.afterAccess a).slot.value))

/-- R128, R133: WRITE_BYTE(a, v) makes the slot resident for `a` by MISS unless it is, the load included, then sets it to
`(a, v, dirty)`; the chip is not written at `a`. -/
def Obligations.WriteByteSetsSlotDirty : Prop :=
  ∀ (a : Addr) (v : Byte) (s : State), s.Ready → s.Conforming s.cfg.devSel → s.InRange a → s.DirtyInRange →
    exec (.writeByte a v) s =
      .next { s.afterAccess a with
              slot := { valid := true, tag := a, value := v, dirty := true }
              response := .byte (Config.draw (s.afterAccess a).draws)
              draws := (s.afterAccess a).draws + 1 }

/-- R129: FLUSH writes a dirty byte to the chip and clears `dirty`; the byte stays resident. With the slot clean or empty
nothing is sent and the slot is as it was, whatever the bus and the board are. The response is a draw (R83). -/
def Obligations.FlushWritesDirtyByte : Prop :=
  (∀ s : State, s.Ready → s.slot.dirty = true → s.Conforming s.cfg.devSel → s.InRange s.slot.tag →
    exec .flush s = .next s.afterWriteBack.respondDraw) ∧
  (∀ s : State, s.seq = .idle → s.slot.dirty = false →
    exec .flush s = .next { s with response := .byte (Config.draw s.draws), draws := s.draws + 1 })

/-- R130, R83: NOP changes nothing but the response, which is a draw. -/
def Obligations.NopChangesNothing : Prop :=
  ∀ s : State, s.seq = .idle →
    exec .nop s = .next { s with response := .byte (Config.draw s.draws), draws := s.draws + 1 }

/-- R127, R128, R132: a hit costs no bus traffic and needs none of the premises: READ_BYTE returns the slot's byte and
changes no field of the slot; WRITE_BYTE sets value and `dirty`. -/
def Obligations.HitsNeedNoBus : Prop :=
  ∀ (a : Addr) (v : Byte) (s : State), s.seq = .idle → s.slot.valid = true → s.slot.tag = a →
    exec (.readByte a) s = .next { s with response := .byte s.slot.value } ∧
    exec (.writeByte a v) s =
      .next { s with slot := { valid := true, tag := a, value := v, dirty := true },
                     response := .byte (Config.draw s.draws), draws := s.draws + 1 }

/-- R49 and vector C23: a miss on an address the chip does not have is refused, after a write-back as without one. -/
def Obligations.MissBeyondDeviceRefused : Prop :=
  ∀ (a : Addr) (v : Byte) (s : State), s.Ready → s.Conforming s.cfg.devSel → s.DirtyInRange → s.cfg.memSize ≤ a.toNat →
    s.slot.hit a = false →
    exec (.readByte a) s = .refused .addressBeyondDevice ∧ exec (.writeByte a v) s = .refused .addressBeyondDevice ∧
    exec (.miss a) s = .refused .addressBeyondDevice

/-- R138 (a), R57: WRITE_BYTE(a, v) and then READ_BYTE(a) returns `v` with no bus event between or in the read, from
whatever state and on whatever chip. -/
def Obligations.RoundTripThroughTheSlot : Prop :=
  ∀ (a : Addr) (v : Byte) (s t : State), exec (.writeByte a v) s = .next t → t.seq = .idle →
    exec (.readByte a) t = .next { t with response := .byte v }

/-- R138 (b), R59: WRITE_BYTE(a, v1), then READ_BYTE(b) with `b ≠ a` sends exactly one WRITE of `v1` to `a` and then one
READ of `b`; READ_BYTE(a) after it issues a READ and returns `v1`. -/
def Obligations.EvictionWritesThenReads : Prop :=
  ∀ (a b : Addr) (v1 : Byte) (s : State), s.HostReady → s.InRange a → s.InRange b → a ≠ b →
    ∃ t u w, exec (.writeByte a v1) s = .next t ∧ exec (.readByte b) t = .next u ∧
      u.trace = t.trace ++ writeEvents s.cfg.devSel a t.draws [v1] ++
        readEvents s.cfg.devSel b (t.draws + 5) [t.byteAt s.cfg.devSel b.toNat] ∧
      u.nWRITE = t.nWRITE + 1 ∧ u.nREAD = t.nREAD + 1 ∧ u.byteAt s.cfg.devSel a.toNat = v1 ∧
      exec (.readByte a) u = .next w ∧ w.response = .byte v1 ∧ w.nREAD = u.nREAD + 1 ∧ w.nWRITE = u.nWRITE

/-- R138 (c): from a clean slot, READ_BYTE of another address issues no WRITE and exactly one READ. -/
def Obligations.CleanEvictionOnlyReads : Prop :=
  ∀ (b : Addr) (s : State), s.Ready → s.Conforming s.cfg.devSel → s.InRange b → s.slot.dirty = false →
    s.slot.hit b = false →
    ∃ t, exec (.readByte b) s = .next t ∧
      t.trace = s.trace ++ readEvents s.cfg.devSel b s.draws [s.byteAt s.cfg.devSel b.toNat] ∧
      t.nWRITE = s.nWRITE ∧ t.nREAD = s.nREAD + 1 ∧ t.response = .byte (s.byteAt s.cfg.devSel b.toNat) ∧
      (∀ d x, t.byteAt d x = s.byteAt d x)

/-- R48, R138 (d): a FLUSH that completed leaves nothing to do for the next: it sends nothing and changes no slot field,
no byte, no counter. -/
def Obligations.FlushIsIdempotent : Prop :=
  ∀ s t : State, exec .flush s = .next t → t.seq = .idle →
    exec .flush t = .next { t with response := .byte (Config.draw t.draws), draws := t.draws + 1 }

/-- R155, R114, R156: nothing that writes a chip can tell failure from success; each completes alike on a chip that
conforms and on one that does not. FLUSH leaves the slot clean and resident; a READ_BYTE, WRITE_BYTE or MISS that writes
back clears `dirty`, then loads the byte `b` it is given, on a faulty chip a draw; DP_WRITE ends. Each counts one WRITE.
That the other chips are untouched is, for a chip that does not conform, the model's choice (notes/assumptions/14.md). -/
def Obligations.FlushCannotDetectFailure : Prop :=
  (∀ s : State, s.Ready → s.slot.dirty = true → s.InRange s.slot.tag →
    ∃ t, exec .flush s = .next t ∧ t.slot = { s.slot with dirty := false } ∧ t.nWRITE = s.nWRITE + 1 ∧
      t.nREAD = s.nREAD ∧ t.cs = 0b000#3 ∧ t.seq = .idle ∧
      t.trace = s.trace ++ writeEvents s.cfg.devSel s.slot.tag s.draws [s.slot.value] ∧
      ∀ d x, d ≠ s.cfg.devSel → t.byteAt d x = s.byteAt d x) ∧
  (∀ (i : Instr) (a : Addr) (v : Byte) (s : State), s.Ready → s.slot.valid = true → s.slot.dirty = true →
    s.InRange s.slot.tag → s.InRange a → s.slot.hit a = false → i = .readByte a ∨ i = .writeByte a v ∨ i = .miss a →
    ∃ t b, exec i s = .next t ∧
      t.slot = (if i = .writeByte a v then { valid := true, tag := a, value := v, dirty := true }
        else { valid := true, tag := a, value := b, dirty := false }) ∧
      (i = .readByte a → t.response = .byte b) ∧ (¬ s.Conforming s.cfg.devSel → b = Config.draw (s.draws + 9)) ∧
      t.nWRITE = s.nWRITE + 1 ∧ t.nREAD = s.nREAD + 1 ∧ t.cs = 0b000#3 ∧ t.seq = .idle ∧
      t.trace = s.trace ++ writeEvents s.cfg.devSel s.slot.tag s.draws [s.slot.value] ++
        readEvents s.cfg.devSel a (s.draws + 5) [b] ∧
      ∀ d x, d ≠ s.cfg.devSel → t.byteAt d x = s.byteAt d x) ∧
  (∀ (d : Dev) (a : Addr) (data : List Byte) (s : State), s.Ready → s.InRange a →
    a.toNat + data.length ≤ s.cfg.memSize →
    ∃ t, exec (.dpWrite d a data) s = .next t ∧ t.nWRITE = s.nWRITE + 1 ∧ t.nREAD = s.nREAD ∧ t.slot = s.slot ∧
      t.cs = 0b000#3 ∧ t.seq = .idle ∧ t.response = .none ∧ t.draws = s.draws + 4 + data.length ∧
      t.devFrame = s.devFrame.set d .closed ∧ t.trace = s.trace ++ writeEvents d a s.draws data ∧
      ∀ e x, e ≠ d → t.byteAt e x = s.byteAt e x)

/-- R156: a miss on a chip that does not conform takes the draw it is given as data, into the slot and to the host. -/
def Obligations.FaultyByteTakenAsData : Prop :=
  ∀ (a : Addr) (s : State), s.Ready → ¬ s.Conforming s.cfg.devSel → s.InRange a → s.slot.hit a = false →
    s.slot.mustEvict = false →
    ∃ t, exec (.readByte a) s = .next t ∧
      t.slot = { valid := true, tag := a, value := Config.draw (s.draws + 4), dirty := false } ∧
      t.response = .byte (Config.draw (s.draws + 4)) ∧ t.nREAD = s.nREAD + 1 ∧ t.nWRITE = s.nWRITE

/-- R190: the table of transactions, exchanges and bus events per command. -/
def Obligations.BusCostOfEachCommand : Prop :=
  ∀ (a : Addr) (v : Byte) (s : State), s.HostReady → s.InRange a →
    ∀ i, i = .readByte a ∨ i = .writeByte a v ∨ i = .flush ∨ i = .nop →
    ∃ t es, exec i s = .next t ∧ t.trace = s.trace ++ es ∧
      t.nWRITE = s.nWRITE + s.slot.writesOf i ∧ t.nREAD = s.nREAD + s.slot.readsOf i ∧
      es.length = 7 * (s.slot.writesOf i + s.slot.readsOf i) ∧
      es.countP (fun e => match e with | .xchg _ _ => true | _ => false) = 5 * (s.slot.writesOf i + s.slot.readsOf i)

/-! ## The hang -/

/-- R154, R28, R131, vector C24: if the bus completes only `m < 5` exchanges, a command stops at exchange `m` of its first
transaction: `seq = Run(..)` there, the line of `DEV_SEL` asserted, the slot as it was, no transaction counted, no response;
with no input left the next step is stuck. So it is with a READ_BYTE, WRITE_BYTE or MISS that need not write back, in
`T_R(a)`, and with one that must, and FLUSH of a dirty slot, in `T_W`: there the slot is still dirty, and no byte of a
conforming chip is stored. The model's own in it: that no response stands during the hang (notes/assumptions/15.md), and
that a hang with no input left ends in the fault `stuck` (notes/assumptions/2.md and 17.md). -/
def Obligations.HangStopsInMidFrame : Prop :=
  (∀ (i : Instr) (a : Addr) (v : Byte) (m : Nat) (s : State), m < 5 → s.boardInit = true → s.seq = .idle →
    s.cs = 0b000#3 → s.bus = some m → s.Conforming s.cfg.devSel → s.InRange a → s.slot.hit a = false →
    s.slot.mustEvict = false → i = .readByte a ∨ i = .writeByte a v ∨ i = .miss a →
    ∃ t, exec i s = .next t ∧ t.seq = .run i (readPlan s.cfg.devSel a 1 (.load a)) (m + 1) [] ∧
      t.cs = s.cfg.devSel.line ∧ t.slot = s.slot ∧ t.response = .none ∧ t.bus = some 0 ∧
      t.nREAD = s.nREAD ∧ t.nWRITE = s.nWRITE ∧
      t.trace = s.trace ++ (readEvents s.cfg.devSel a s.draws [s.byteAt s.cfg.devSel a.toNat]).take (m + 1) ∧
      step { t with inputs := [] } = .fault .stuck) ∧
  (∀ (i : Instr) (a : Addr) (v : Byte) (m : Nat) (s : State), m < 5 → s.boardInit = true → s.seq = .idle →
    s.cs = 0b000#3 → s.bus = some m → s.InRange s.slot.tag → s.slot.dirty = true →
    i = .flush ∨ (s.slot.valid = true ∧ s.slot.hit a = false ∧
      (i = .readByte a ∨ i = .writeByte a v ∨ i = .miss a)) →
    ∃ t rest, exec i s = .next t ∧ t.seq = .run i (writeBackPlan s ++ rest) (m + 1) [] ∧
      t.cs = s.cfg.devSel.line ∧ t.slot = s.slot ∧ t.response = .none ∧ t.bus = some 0 ∧
      t.nREAD = s.nREAD ∧ t.nWRITE = s.nWRITE ∧
      t.trace = s.trace ++ (writeEvents s.cfg.devSel s.slot.tag s.draws [s.slot.value]).take (m + 1) ∧
      (s.Conforming s.cfg.devSel → ∀ e x, t.byteAt e x = s.byteAt e x) ∧
      step { t with inputs := [] } = .fault .stuck)

/-- R126 (e), R131: if the write-back of a READ_BYTE, WRITE_BYTE or MISS completes and the load then hangs, the slot holds
the old byte, clean. -/
def Obligations.HangAfterWriteBack : Prop :=
  ∀ (i : Instr) (a : Addr) (v : Byte) (m : Nat) (s : State), 5 ≤ m → m < 10 → s.boardInit = true → s.seq = .idle →
    s.cs = 0b000#3 → s.bus = some m → s.Conforming s.cfg.devSel → s.InRange a → s.InRange s.slot.tag →
    s.slot.hit a = false → s.slot.valid = true → s.slot.dirty = true →
    i = .readByte a ∨ i = .writeByte a v ∨ i = .miss a →
    ∃ t p, exec i s = .next t ∧ t.seq = .run i p (m + 3) [] ∧
      p = writeBackPlan s ++ readPlan s.cfg.devSel a 1 (.load a) ∧ p.length = 14 ∧
      t.slot = { s.slot with dirty := false } ∧ t.byteAt s.cfg.devSel s.slot.tag.toNat = s.slot.value ∧
      t.cs = s.cfg.devSel.line ∧ t.nWRITE = s.nWRITE + 1 ∧ t.nREAD = s.nREAD

/-- R154, R28: a hang only delays. If an operation stops because the bus granted too few exchanges, and the bus is then
granted for good, the operation ends as it would have ended had the bus been live from the start. -/
def Obligations.ResumedCommandEndsAsIfLive : Prop :=
  ∀ (i : Instr) (m : Nat) (s t : State), exec i { s with bus := some m, inputs := [] } = .next t → t.seq ≠ .idle →
    ∃ u, step { t with inputs := [.grant none] } = .next u ∧ step u = exec i { s with bus := none, inputs := [] }

/-! ## Reset and power -/

/-- R176, R177: a reset empties the slot without flushing it, releases the lines, clears the ghost state, performs no bus
operation, keeps the configuration, and leaves every byte of every chip alone whose frame is not open or is a READ's,
hung or cut at any exchange of it, the first included. -/
def Obligations.ResetDiscardsDirtyByte : Prop :=
  ∀ (s : State) (rest : List Input), s.inputs = .reset :: rest →
    (∀ i p k cap, s.seq = .run i p k cap → blocked p k s = true) →
    ∃ t, step s = .next t ∧ t.slot.valid = false ∧ t.slot.dirty = false ∧ t.cs = 0b000#3 ∧ t.seq = .idle ∧
      t.trace = [] ∧ t.nREAD = 0 ∧ t.nWRITE = 0 ∧ (∀ d, t.devFrame.get d = .closed) ∧ t.cfg = s.cfg ∧
      t.inputs = rest ∧
      ∀ d, s.devFrame.get d = .closed ∨ (s.cutBytes d).head? = some Config.opRead → ∀ x, t.byteAt d x = s.byteAt d x

/-- U19, R177, R176: a reset in the middle of a WRITE frame leaves every byte outside the frame's addresses alone: in the
payload, outside those taken and the one in flight, if one is; in the header of a conforming chip, outside the one address that the
header, taken and still to be sent, names. That these other bytes are kept is the model's reading
(notes/assumptions/13.md), in the payload of a chip that does not conform notes/assumptions/14.md too. -/
def Obligations.ResetInMidWriteKeepsOtherBytes : Prop :=
  (∀ (d : Dev) (a : Addr) (j : Nat) (s : State), s.devFrame = (PerDev.all .closed).set d (.payload Config.opWrite a j) →
    ∀ e x, e ≠ d ∨ x < a.toNat ∨ a.toNat + j < x ∨ (s.seq.sending = [] ∧ 0 < j ∧ a.toNat + j ≤ x) →
      (resetBlock s).byteAt e x = s.byteAt e x) ∧
  (∀ (d : Dev) (f : Frame) (sent : List Byte) (a : Addr) (s : State), s.devFrame = (PerDev.all .closed).set d f →
    f.matches sent → sent.length < 4 → s.Conforming d → (s.cutBytes d).take 4 = header Config.opWrite a →
    ∀ e x, e ≠ d ∨ x ≠ a.toNat → (resetBlock s).byteAt e x = s.byteAt e x)

/-- R66: after the power went and came back the slot is empty, every byte of every chip is its next power-up draw, and
Board Init is to be done again (notes/assumptions/18.md). -/
def Obligations.PowerCycleLosesEverything : Prop :=
  ∀ (s : State) (rest : List Input), s.inputs = .powerCycle :: rest →
    (∀ i p k cap, s.seq = .run i p k cap → blocked p k s = true) →
    ∃ t, step s = .next t ∧ t.slot.valid = false ∧ t.slot.dirty = false ∧ t.cs = 0b000#3 ∧ t.seq = .idle ∧
      t.boardInit = false ∧ t.cfg = s.cfg ∧ t.inputs = rest ∧
      ∀ d x, t.byteAt d x = Config.chipByte d (s.epoch.get d + 1) x

/-- The invariant holds after reset, for every legal configuration (R37). -/
def Obligations.InvariantAtReset : Prop :=
  (∀ c : Config, c.WF → (State.resetWith c).Inv) ∧ State.reset.Inv ∧ State.reset.HostReady

/-! ## Frames -/

/-- R16, R117, R189: every operation keeps the configuration, Board Init, the chips' conformance and the inputs; the trace,
the counters and the count of draws only grow. -/
def Obligations.ExecFrameOfEnvironment : Prop :=
  ∀ (i : Instr) (s t : State), exec i s = .next t →
    t.cfg = s.cfg ∧ t.boardInit = s.boardInit ∧ t.conforms = s.conforms ∧ t.inputs = s.inputs ∧
      (∃ es, t.trace = s.trace ++ es) ∧ s.nREAD ≤ t.nREAD ∧ s.nWRITE ≤ t.nWRITE ∧ s.draws ≤ t.draws

/-- R17, R29, R99, R117: the transport, the protocol and NOP leave the slot alone, done or stopped. -/
def Obligations.LowerLayersLeaveTheSlot : Prop :=
  ∀ (i : Instr) (s t : State), exec i s = .next t →
    (∃ d, i = .select d) ∨ (∃ o, i = .exchange o) ∨ (∃ d, i = .deselect d) ∨ (∃ d a n, i = .dpRead d a n) ∨
      (∃ d a data, i = .dpWrite d a data) ∨ i = .nop → t.slot = s.slot

/-- R47, R52, R96, R98: SELECT, DESELECT, DP_READ and NOP store nothing: every byte of every chip reads as before, done
or stopped, on a conforming chip or not. Two clauses are the model's choice: that DESELECT stores nothing where it ends a
WRITE frame, since the model commits each byte at its own exchange, of the two times D16 and R53 allow
(notes/assumptions/12.md); and that a chip that does not conform keeps its bytes over a READ frame
(notes/assumptions/14.md). -/
def Obligations.NonStoringOperationsFrame : Prop :=
  ∀ (i : Instr) (s t : State), exec i s = .next t →
    (∃ d, i = .select d) ∨ (∃ d, i = .deselect d) ∨ (∃ d a n, i = .dpRead d a n) ∨ i = .nop →
    ∀ e x, t.byteAt e x = s.byteAt e x

/-- R53, R63: EXCHANGE stores at most the one byte its chip's open WRITE frame is at: of the conforming chip `d` that is
selected, the byte at `A + j`; every other byte reads as before. -/
def Obligations.ExchangeFrame : Prop :=
  ∀ (o : Byte) (d : Dev) (s t : State), exec (.exchange o) s = .next t → s.cs = d.line → s.Conforming d →
    (∀ a j, s.devFrame.get d = .payload Config.opWrite a j →
      ∀ e x, e ≠ d ∨ x ≠ payloadAddr a j → t.byteAt e x = s.byteAt e x) ∧
    ((∀ a j, s.devFrame.get d ≠ .payload Config.opWrite a j) → ∀ e x, t.byteAt e x = s.byteAt e x)

/-- R112, R53, R63: DP_WRITE(d, a, data) changes no byte outside `[a, a + n)` of the conforming chip `d`, done or
stopped, and whatever chip `d` does no byte of another chip (for a chip that does not conform the model's choice,
notes/assumptions/14.md). -/
def Obligations.DpWriteFrame : Prop :=
  ∀ (d : Dev) (a : Addr) (data : List Byte) (s t : State), exec (.dpWrite d a data) s = .next t →
    (∀ e x, e ≠ d → t.byteAt e x = s.byteAt e x) ∧
    (s.Conforming d → ∀ x, x < a.toNat ∨ a.toNat + data.length ≤ x → t.byteAt d x = s.byteAt d x)

/-- R47, R56, R32: a store operation writes no chip but `DEV_SEL`, opens no other frame, and on a conforming chip changes
no byte but the one at the slot's own address, and that only if the slot is dirty; done or stopped. That a chip that does
not conform touches no other chip is the model's choice (notes/assumptions/14.md). -/
def Obligations.StoreOperationsFrame : Prop :=
  ∀ (i : Instr) (s t : State), exec i s = .next t →
    (∃ a, i = .miss a) ∨ (∃ a, i = .readByte a) ∨ (∃ a v, i = .writeByte a v) ∨ i = .flush →
    (∀ e, e ≠ s.cfg.devSel → (∀ x, t.byteAt e x = s.byteAt e x) ∧ t.devFrame.get e = s.devFrame.get e) ∧
    (s.Conforming s.cfg.devSel → ∀ x, s.slot.dirty = false ∨ x ≠ s.slot.tag.toNat →
      t.byteAt s.cfg.devSel x = s.byteAt s.cfg.devSel x)

/-! ## Whole-machine rules -/

/-- Every step keeps the invariant: legal configuration; every chip's memory canonical and inside the chip; `dirty`
implies `valid` (R23); the trace a sequence of transactions that the counters count, at most one line asserted, and the
chips' frames where the trace says (R13, R32, R33, R101, R102); frames inside their chips (R49, R51); a stopped operation
at an exchange with a line asserted (R154). -/
def Obligations.StepKeepsInvariant : Prop :=
  ∀ s t : State, s.Inv → step s = .next t → t.Inv

/-- R30, R189: no step changes `DEV_SEL` or any other parameter. -/
def Obligations.ConfigurationNeverChanges : Prop :=
  ∀ s t : State, step s = .next t → t.cfg = s.cfg

/-- R24, R25: to the host the block is a byte array. In a state between two host commands under the premises, each host
command in range completes, leaves such a state, changes `AM` as it would change an array, READ_BYTE(a) returns
`AM(a)`, and after a FLUSH `AM` is what the chip holds. -/
def Obligations.HostSeesByteArray : Prop :=
  ∀ (i : Instr) (s : State), i.isHost = true → s.HostReady → s.CommandInRange i →
    ∃ t, exec i s = .next t ∧ t.HostReady ∧ (∀ x, t.am x = arrayAfter i s.am x) ∧
      (∀ a, i = .readByte a → t.response = .byte (s.am a)) ∧
      (i = .flush → ∀ x : Addr, t.am x = t.byteAt t.cfg.devSel x.toNat)

/-- R25, R55, R57 for every sequence of host commands: run step by step they all complete, in order, and the memory the
host sees at the end is the array they describe. -/
def Obligations.HostCommandSequenceIsArray : Prop :=
  ∀ (is : List Instr) (s : State), s.HostReady → (∀ i ∈ is, i.isHost = true ∧ s.CommandInRange i) →
    ∃ t, Sys2Proof.core.run is.length (s.presenting is) = .next t ∧ t.HostReady ∧ t.inputs = [] ∧
      ∀ x, t.am x = (is.foldl (fun m i => arrayAfter i m) s.am) x

/-- R191: what a sequence of host commands costs. READ transactions are the misses, WRITE transactions the dirty misses
and dirty FLUSHes; from a clean slot there are at most as many WRITEs as WRITE_BYTE commands, and at most as many as READs
and FLUSHes together. -/
def Obligations.CostOfACommandSequence : Prop :=
  ∀ (is : List Instr) (s : State), s.HostReady → (∀ i ∈ is, i.isHost = true ∧ s.CommandInRange i) →
    (∃ t, Sys2Proof.core.run is.length (s.presenting is) = .next t ∧ t.nREAD = s.nREAD + readsOfRun s.slot is ∧
      t.nWRITE = s.nWRITE + writesOfRun s.slot is) ∧
    (s.slot.dirty = false → writesOfRun s.slot is ≤ countWriteByte is) ∧
    writesOfRun s.slot is ≤ readsOfRun s.slot is + countFlush is

/-- R61: FLUSH is the consistency point: after it the chip holds, at every address, what the host sees, which is what the
host saw before. -/
def Obligations.FlushIsConsistencyPoint : Prop :=
  ∀ s : State, s.HostReady →
    ∃ t, exec .flush s = .next t ∧ t.slot.dirty = false ∧
      ∀ x : Addr, t.byteAt s.cfg.devSel x.toNat = t.am x ∧ t.am x = s.am x

/-- R62: the block does not see another writer. After OTHER writes a byte of the chip, READ_BYTE of the resident address
still returns the slot's byte. -/
def Obligations.OtherWriterIsNotSeen : Prop :=
  ∀ (d : Dev) (a b : Addr) (v : Byte) (s : State) (rest : List Input), s.seq = .idle →
    s.inputs = .other d a v :: rest → s.InRange a →
    ∃ t, step s = .next t ∧ t.byteAt d a.toNat = v ∧ t.slot = s.slot ∧
      (∀ e x, e ≠ d ∨ x ≠ a.toNat → t.byteAt e x = s.byteAt e x) ∧
      (s.slot.valid = true → s.slot.tag = b → exec (.readByte b) t = .next { t with response := .byte s.slot.value })

/-- R9: no rule reads `CS_ACTIVE_LEVEL`, `BIT_ORDER` or `CLOCK_MODE`: whatever their values, a step does the same. -/
def Obligations.ElectricalParametersUnread : Prop :=
  ∀ (level : Bool) (order : BitOrder) (mode : Fin 4) (s : State),
    step (s.withElectrical level order mode) = mapNext (State.withElectrical level order mode) (step s)

/-- R18, R19, R37: no operation reads `slot.tag` or `slot.value` while the slot is empty, so the values State.reset gives
them (notes/assumptions/5.md) decide nothing. -/
def Obligations.EmptySlotBitsUnread : Prop :=
  ∀ (i : Instr) (t : Addr) (v : Byte) (s : State), s.slot.valid = false → s.slot.dirty = false →
    exec i (s.withDeadSlot t v) = mapNext (State.withDeadSlot t v) (exec i s)
end

