-- ==== Sys2Proof/Laws/Encoding.lean ====
section
/-! SUPPORT. The fields of the encodings: taking an address apart and putting it together (R73), select lines (R84), the
fields of a host word (R80). -/

namespace Sys2Proof

/-- Concatenation of bit vectors as arithmetic (R11: `a ++ b`, `a` on the more significant side). -/
theorem append_toNat {m n : Nat} (x : BitVec m) (y : BitVec n) : (x ++ y).toNat = x.toNat * 2 ^ n + y.toNat := by
  rw [BitVec.toNat_append, ← Nat.shiftLeft_add_eq_or_of_lt y.isLt, Nat.shiftLeft_eq]

theorem joinAddr_toNat (b2 b1 b0 : Byte) :
    (joinAddr b2 b1 b0).toNat = b2.toNat * 65536 + b1.toNat * 256 + b0.toNat := by
  have h := append_toNat (b2 ++ b1) b0
  rw [append_toNat b2 b1] at h
  unfold joinAddr
  rw [h]
  omega

/-- `A2 ++ A1 ++ A0` is the address whose bytes they are (R73). -/
@[simp] theorem joinAddr_bytes (a : Addr) : joinAddr (addrB2 a) (addrB1 a) (addrB0 a) = a := by
  apply BitVec.eq_of_toNat_eq
  have h := a.isLt
  rw [joinAddr_toNat]
  simp only [addrB2, addrB1, addrB0, BitVec.extractLsb'_toNat, Nat.shiftRight_eq_div_pow]
  omega

@[simp] theorem addrB2_joinAddr (b2 b1 b0 : Byte) : addrB2 (joinAddr b2 b1 b0) = b2 := by
  apply BitVec.eq_of_toNat_eq
  have h1 := b1.isLt
  have h0 := b0.isLt
  have h2 := b2.isLt
  rw [addrB2, BitVec.extractLsb'_toNat, joinAddr_toNat, Nat.shiftRight_eq_div_pow]
  omega

@[simp] theorem addrB1_joinAddr (b2 b1 b0 : Byte) : addrB1 (joinAddr b2 b1 b0) = b1 := by
  apply BitVec.eq_of_toNat_eq
  have h1 := b1.isLt
  have h0 := b0.isLt
  rw [addrB1, BitVec.extractLsb'_toNat, joinAddr_toNat, Nat.shiftRight_eq_div_pow]
  omega

@[simp] theorem addrB0_joinAddr (b2 b1 b0 : Byte) : addrB0 (joinAddr b2 b1 b0) = b0 := by
  apply BitVec.eq_of_toNat_eq
  have h0 := b0.isLt
  rw [addrB0, BitVec.extractLsb'_toNat, joinAddr_toNat, Nat.shiftRight_eq_div_pow]
  omega

@[simp] theorem Dev.ofLine?_line (d : Dev) : Dev.ofLine? d.line = some d := by cases d <;> decide

theorem Dev.line_ne_zero (d : Dev) : d.line ≠ 0b000#3 := by cases d <;> decide

theorem Dev.line_of_ofLine? {l : Lines} {d : Dev} (h : Dev.ofLine? l = some d) : l = d.line := by
  unfold Dev.ofLine? at h
  split at h
  · next hl => cases h; exact hl
  · split at h
    · next hl => cases h; exact hl
    · split at h
      · next hl => cases h; exact hl
      · cases h

@[simp] theorem Dev.ofLine?_zero : Dev.ofLine? 0b000#3 = none := by decide

/-- `cmd = op * 2^32 + addr * 2^8 + wdata` (R80). -/
theorem hostWord_toNat (op : BitVec 2) (a : Addr) (v : Byte) :
    (hostWord op a v).toNat = op.toNat * 4294967296 + a.toNat * 256 + v.toNat := by
  have h := append_toNat (op ++ a) v
  rw [append_toNat op a] at h
  unfold hostWord
  rw [h]
  omega

/-- `cmd[33:32]` (R80). -/
@[simp] theorem hostWord_op (op : BitVec 2) (a : Addr) (v : Byte) : (hostWord op a v).extractLsb' 32 2 = op := by
  apply BitVec.eq_of_toNat_eq
  have h := op.isLt
  have ha := a.isLt
  have hv := v.isLt
  rw [BitVec.extractLsb'_toNat, hostWord_toNat, Nat.shiftRight_eq_div_pow]
  omega

/-- `cmd[31:8]` (R80). -/
@[simp] theorem hostWord_addr (op : BitVec 2) (a : Addr) (v : Byte) : (hostWord op a v).extractLsb' 8 24 = a := by
  apply BitVec.eq_of_toNat_eq
  have ha := a.isLt
  have hv := v.isLt
  rw [BitVec.extractLsb'_toNat, hostWord_toNat, Nat.shiftRight_eq_div_pow]
  omega

/-- `cmd[7:0]` (R80). -/
@[simp] theorem hostWord_wdata (op : BitVec 2) (a : Addr) (v : Byte) : (hostWord op a v).extractLsb' 0 8 = v := by
  apply BitVec.eq_of_toNat_eq
  have hv := v.isLt
  rw [BitVec.extractLsb'_toNat, hostWord_toNat, Nat.shiftRight_eq_div_pow]
  omega

end Sys2Proof
end

