-- ==== Sys2Proof/Laws/State.lean ====
section
/-! SUPPORT. One lemma per field per update of the state, and how the per-device values read after a write. -/

namespace Sys2Proof.Machine

/-! ## Per-device values -/

@[simp] theorem PerDev.get_all {α : Type} (x : α) (d : Dev) : (PerDev.all x).get d = x := by cases d <;> rfl

@[simp] theorem PerDev.get_set_same {α : Type} (p : PerDev α) (d : Dev) (x : α) : (p.set d x).get d = x := by
  cases d <;> rfl

theorem PerDev.get_set_ne {α : Type} (p : PerDev α) (x : α) {d e : Dev} (h : e ≠ d) : (p.set d x).get e = p.get e := by
  cases d <;> cases e <;> first | rfl | exact absurd rfl h

theorem PerDev.get_set {α : Type} (p : PerDev α) (d e : Dev) (x : α) :
    (p.set d x).get e = if e = d then x else p.get e := by
  cases d <;> cases e <;> rfl

@[simp] theorem PerDev.set_set {α : Type} (p : PerDev α) (d : Dev) (x y : α) : (p.set d x).set d y = p.set d y := by
  cases d <;> rfl

theorem PerDev.set_get {α : Type} (p : PerDev α) (d : Dev) : p.set d (p.get d) = p := by cases d <;> rfl

theorem PerDev.ext_get {α : Type} {p q : PerDev α} (h : ∀ d, p.get d = q.get d) : p = q := by
  obtain ⟨a, b, c⟩ := p
  obtain ⟨a', b', c'⟩ := q
  have h0 : a = a' := h .dev0
  have h1 : b = b' := h .dev1
  have h2 : c = c' := h .dev2
  rw [h0, h1, h2]

/-! ## Fields after an update -/

section
variable (s : State) (d : Dev) (a : Nat) (v : Byte)

@[simp] theorem State.writeByteAt_cfg : (s.writeByteAt d a v).cfg = s.cfg := rfl
@[simp] theorem State.writeByteAt_slot : (s.writeByteAt d a v).slot = s.slot := rfl
@[simp] theorem State.writeByteAt_cs : (s.writeByteAt d a v).cs = s.cs := rfl
@[simp] theorem State.writeByteAt_seq : (s.writeByteAt d a v).seq = s.seq := rfl
@[simp] theorem State.writeByteAt_devMem : (s.writeByteAt d a v).devMem = s.devMem.set d ((s.devMem.get d).write a v) := rfl
@[simp] theorem State.writeByteAt_epoch : (s.writeByteAt d a v).epoch = s.epoch := rfl
@[simp] theorem State.writeByteAt_devFrame : (s.writeByteAt d a v).devFrame = s.devFrame := rfl
@[simp] theorem State.writeByteAt_trace : (s.writeByteAt d a v).trace = s.trace := rfl
@[simp] theorem State.writeByteAt_nREAD : (s.writeByteAt d a v).nREAD = s.nREAD := rfl
@[simp] theorem State.writeByteAt_nWRITE : (s.writeByteAt d a v).nWRITE = s.nWRITE := rfl
@[simp] theorem State.writeByteAt_response : (s.writeByteAt d a v).response = s.response := rfl
@[simp] theorem State.writeByteAt_boardInit : (s.writeByteAt d a v).boardInit = s.boardInit := rfl
@[simp] theorem State.writeByteAt_bus : (s.writeByteAt d a v).bus = s.bus := rfl
@[simp] theorem State.writeByteAt_conforms : (s.writeByteAt d a v).conforms = s.conforms := rfl
@[simp] theorem State.writeByteAt_draws : (s.writeByteAt d a v).draws = s.draws := rfl
@[simp] theorem State.writeByteAt_inputs : (s.writeByteAt d a v).inputs = s.inputs := rfl

end

section
variable (s : State) (d : Dev)

@[simp] theorem State.forgetChip_cfg : (s.forgetChip d).cfg = s.cfg := rfl
@[simp] theorem State.forgetChip_slot : (s.forgetChip d).slot = s.slot := rfl
@[simp] theorem State.forgetChip_cs : (s.forgetChip d).cs = s.cs := rfl
@[simp] theorem State.forgetChip_seq : (s.forgetChip d).seq = s.seq := rfl
@[simp] theorem State.forgetChip_devMem : (s.forgetChip d).devMem = s.devMem.set d [] := rfl
@[simp] theorem State.forgetChip_epoch : (s.forgetChip d).epoch = s.epoch.set d (s.epoch.get d + 1) := rfl
@[simp] theorem State.forgetChip_devFrame : (s.forgetChip d).devFrame = s.devFrame := rfl
@[simp] theorem State.forgetChip_trace : (s.forgetChip d).trace = s.trace := rfl
@[simp] theorem State.forgetChip_nREAD : (s.forgetChip d).nREAD = s.nREAD := rfl
@[simp] theorem State.forgetChip_nWRITE : (s.forgetChip d).nWRITE = s.nWRITE := rfl
@[simp] theorem State.forgetChip_response : (s.forgetChip d).response = s.response := rfl
@[simp] theorem State.forgetChip_boardInit : (s.forgetChip d).boardInit = s.boardInit := rfl
@[simp] theorem State.forgetChip_bus : (s.forgetChip d).bus = s.bus := rfl
@[simp] theorem State.forgetChip_conforms : (s.forgetChip d).conforms = s.conforms := rfl
@[simp] theorem State.forgetChip_draws : (s.forgetChip d).draws = s.draws := rfl
@[simp] theorem State.forgetChip_inputs : (s.forgetChip d).inputs = s.inputs := rfl

end

section
variable (s : State) (n : Nat)

@[simp] theorem State.spendDraws_cfg : (s.spendDraws n).cfg = s.cfg := rfl
@[simp] theorem State.spendDraws_slot : (s.spendDraws n).slot = s.slot := rfl
@[simp] theorem State.spendDraws_cs : (s.spendDraws n).cs = s.cs := rfl
@[simp] theorem State.spendDraws_seq : (s.spendDraws n).seq = s.seq := rfl
@[simp] theorem State.spendDraws_devMem : (s.spendDraws n).devMem = s.devMem := rfl
@[simp] theorem State.spendDraws_epoch : (s.spendDraws n).epoch = s.epoch := rfl
@[simp] theorem State.spendDraws_devFrame : (s.spendDraws n).devFrame = s.devFrame := rfl
@[simp] theorem State.spendDraws_trace : (s.spendDraws n).trace = s.trace := rfl
@[simp] theorem State.spendDraws_nREAD : (s.spendDraws n).nREAD = s.nREAD := rfl
@[simp] theorem State.spendDraws_nWRITE : (s.spendDraws n).nWRITE = s.nWRITE := rfl
@[simp] theorem State.spendDraws_response : (s.spendDraws n).response = s.response := rfl
@[simp] theorem State.spendDraws_boardInit : (s.spendDraws n).boardInit = s.boardInit := rfl
@[simp] theorem State.spendDraws_bus : (s.spendDraws n).bus = s.bus := rfl
@[simp] theorem State.spendDraws_conforms : (s.spendDraws n).conforms = s.conforms := rfl
@[simp] theorem State.spendDraws_draws : (s.spendDraws n).draws = s.draws + n := rfl
@[simp] theorem State.spendDraws_inputs : (s.spendDraws n).inputs = s.inputs := rfl

end

section
variable (s : State) (e : BusEvent)

@[simp] theorem State.emit_cfg : (s.emit e).cfg = s.cfg := rfl
@[simp] theorem State.emit_slot : (s.emit e).slot = s.slot := rfl
@[simp] theorem State.emit_cs : (s.emit e).cs = s.cs := rfl
@[simp] theorem State.emit_seq : (s.emit e).seq = s.seq := rfl
@[simp] theorem State.emit_devMem : (s.emit e).devMem = s.devMem := rfl
@[simp] theorem State.emit_epoch : (s.emit e).epoch = s.epoch := rfl
@[simp] theorem State.emit_devFrame : (s.emit e).devFrame = s.devFrame := rfl
@[simp] theorem State.emit_trace : (s.emit e).trace = s.trace ++ [e] := rfl
@[simp] theorem State.emit_nREAD : (s.emit e).nREAD = s.nREAD := rfl
@[simp] theorem State.emit_nWRITE : (s.emit e).nWRITE = s.nWRITE := rfl
@[simp] theorem State.emit_response : (s.emit e).response = s.response := rfl
@[simp] theorem State.emit_boardInit : (s.emit e).boardInit = s.boardInit := rfl
@[simp] theorem State.emit_bus : (s.emit e).bus = s.bus := rfl
@[simp] theorem State.emit_conforms : (s.emit e).conforms = s.conforms := rfl
@[simp] theorem State.emit_draws : (s.emit e).draws = s.draws := rfl
@[simp] theorem State.emit_inputs : (s.emit e).inputs = s.inputs := rfl

end

section
variable (s : State) (d : Dev)

@[simp] theorem State.assertLine_cfg : (s.assertLine d).cfg = s.cfg := rfl
@[simp] theorem State.assertLine_slot : (s.assertLine d).slot = s.slot := rfl
@[simp] theorem State.assertLine_cs : (s.assertLine d).cs = s.cs ||| d.line := rfl
@[simp] theorem State.assertLine_seq : (s.assertLine d).seq = s.seq := rfl
@[simp] theorem State.assertLine_devMem : (s.assertLine d).devMem = s.devMem := rfl
@[simp] theorem State.assertLine_epoch : (s.assertLine d).epoch = s.epoch := rfl
@[simp] theorem State.assertLine_devFrame : (s.assertLine d).devFrame = s.devFrame := rfl
@[simp] theorem State.assertLine_trace : (s.assertLine d).trace = s.trace := rfl
@[simp] theorem State.assertLine_nREAD : (s.assertLine d).nREAD = s.nREAD := rfl
@[simp] theorem State.assertLine_nWRITE : (s.assertLine d).nWRITE = s.nWRITE := rfl
@[simp] theorem State.assertLine_response : (s.assertLine d).response = s.response := rfl
@[simp] theorem State.assertLine_boardInit : (s.assertLine d).boardInit = s.boardInit := rfl
@[simp] theorem State.assertLine_bus : (s.assertLine d).bus = s.bus := rfl
@[simp] theorem State.assertLine_conforms : (s.assertLine d).conforms = s.conforms := rfl
@[simp] theorem State.assertLine_draws : (s.assertLine d).draws = s.draws := rfl
@[simp] theorem State.assertLine_inputs : (s.assertLine d).inputs = s.inputs := rfl

end

section
variable (s : State) (d : Dev)

@[simp] theorem State.releaseLine_cfg : (s.releaseLine d).cfg = s.cfg := rfl
@[simp] theorem State.releaseLine_slot : (s.releaseLine d).slot = s.slot := rfl
@[simp] theorem State.releaseLine_cs : (s.releaseLine d).cs = s.cs &&& ~~~d.line := rfl
@[simp] theorem State.releaseLine_seq : (s.releaseLine d).seq = s.seq := rfl
@[simp] theorem State.releaseLine_devMem : (s.releaseLine d).devMem = s.devMem := rfl
@[simp] theorem State.releaseLine_epoch : (s.releaseLine d).epoch = s.epoch := rfl
@[simp] theorem State.releaseLine_devFrame : (s.releaseLine d).devFrame = s.devFrame := rfl
@[simp] theorem State.releaseLine_trace : (s.releaseLine d).trace = s.trace := rfl
@[simp] theorem State.releaseLine_nREAD : (s.releaseLine d).nREAD = s.nREAD := rfl
@[simp] theorem State.releaseLine_nWRITE : (s.releaseLine d).nWRITE = s.nWRITE := rfl
@[simp] theorem State.releaseLine_response : (s.releaseLine d).response = s.response := rfl
@[simp] theorem State.releaseLine_boardInit : (s.releaseLine d).boardInit = s.boardInit := rfl
@[simp] theorem State.releaseLine_bus : (s.releaseLine d).bus = s.bus := rfl
@[simp] theorem State.releaseLine_conforms : (s.releaseLine d).conforms = s.conforms := rfl
@[simp] theorem State.releaseLine_draws : (s.releaseLine d).draws = s.draws := rfl
@[simp] theorem State.releaseLine_inputs : (s.releaseLine d).inputs = s.inputs := rfl

end

section
variable (s : State) (d : Dev) (f : Frame)

@[simp] theorem State.setFrame_cfg : (s.setFrame d f).cfg = s.cfg := rfl
@[simp] theorem State.setFrame_slot : (s.setFrame d f).slot = s.slot := rfl
@[simp] theorem State.setFrame_cs : (s.setFrame d f).cs = s.cs := rfl
@[simp] theorem State.setFrame_seq : (s.setFrame d f).seq = s.seq := rfl
@[simp] theorem State.setFrame_devMem : (s.setFrame d f).devMem = s.devMem := rfl
@[simp] theorem State.setFrame_epoch : (s.setFrame d f).epoch = s.epoch := rfl
@[simp] theorem State.setFrame_devFrame : (s.setFrame d f).devFrame = s.devFrame.set d f := rfl
@[simp] theorem State.setFrame_trace : (s.setFrame d f).trace = s.trace := rfl
@[simp] theorem State.setFrame_nREAD : (s.setFrame d f).nREAD = s.nREAD := rfl
@[simp] theorem State.setFrame_nWRITE : (s.setFrame d f).nWRITE = s.nWRITE := rfl
@[simp] theorem State.setFrame_response : (s.setFrame d f).response = s.response := rfl
@[simp] theorem State.setFrame_boardInit : (s.setFrame d f).boardInit = s.boardInit := rfl
@[simp] theorem State.setFrame_bus : (s.setFrame d f).bus = s.bus := rfl
@[simp] theorem State.setFrame_conforms : (s.setFrame d f).conforms = s.conforms := rfl
@[simp] theorem State.setFrame_draws : (s.setFrame d f).draws = s.draws := rfl
@[simp] theorem State.setFrame_inputs : (s.setFrame d f).inputs = s.inputs := rfl

end

section
variable (s : State)

@[simp] theorem State.spendExchange_cfg : (s.spendExchange).cfg = s.cfg := rfl
@[simp] theorem State.spendExchange_slot : (s.spendExchange).slot = s.slot := rfl
@[simp] theorem State.spendExchange_cs : (s.spendExchange).cs = s.cs := rfl
@[simp] theorem State.spendExchange_seq : (s.spendExchange).seq = s.seq := rfl
@[simp] theorem State.spendExchange_devMem : (s.spendExchange).devMem = s.devMem := rfl
@[simp] theorem State.spendExchange_epoch : (s.spendExchange).epoch = s.epoch := rfl
@[simp] theorem State.spendExchange_devFrame : (s.spendExchange).devFrame = s.devFrame := rfl
@[simp] theorem State.spendExchange_trace : (s.spendExchange).trace = s.trace := rfl
@[simp] theorem State.spendExchange_nREAD : (s.spendExchange).nREAD = s.nREAD := rfl
@[simp] theorem State.spendExchange_nWRITE : (s.spendExchange).nWRITE = s.nWRITE := rfl
@[simp] theorem State.spendExchange_response : (s.spendExchange).response = s.response := rfl
@[simp] theorem State.spendExchange_boardInit : (s.spendExchange).boardInit = s.boardInit := rfl
@[simp] theorem State.spendExchange_bus : (s.spendExchange).bus = s.bus.map (· - 1) := rfl
@[simp] theorem State.spendExchange_conforms : (s.spendExchange).conforms = s.conforms := rfl
@[simp] theorem State.spendExchange_draws : (s.spendExchange).draws = s.draws := rfl
@[simp] theorem State.spendExchange_inputs : (s.spendExchange).inputs = s.inputs := rfl

end

section
variable (s : State) (x : Slot)

@[simp] theorem State.setSlot_cfg : (s.setSlot x).cfg = s.cfg := rfl
@[simp] theorem State.setSlot_slot : (s.setSlot x).slot = x := rfl
@[simp] theorem State.setSlot_cs : (s.setSlot x).cs = s.cs := rfl
@[simp] theorem State.setSlot_seq : (s.setSlot x).seq = s.seq := rfl
@[simp] theorem State.setSlot_devMem : (s.setSlot x).devMem = s.devMem := rfl
@[simp] theorem State.setSlot_epoch : (s.setSlot x).epoch = s.epoch := rfl
@[simp] theorem State.setSlot_devFrame : (s.setSlot x).devFrame = s.devFrame := rfl
@[simp] theorem State.setSlot_trace : (s.setSlot x).trace = s.trace := rfl
@[simp] theorem State.setSlot_nREAD : (s.setSlot x).nREAD = s.nREAD := rfl
@[simp] theorem State.setSlot_nWRITE : (s.setSlot x).nWRITE = s.nWRITE := rfl
@[simp] theorem State.setSlot_response : (s.setSlot x).response = s.response := rfl
@[simp] theorem State.setSlot_boardInit : (s.setSlot x).boardInit = s.boardInit := rfl
@[simp] theorem State.setSlot_bus : (s.setSlot x).bus = s.bus := rfl
@[simp] theorem State.setSlot_conforms : (s.setSlot x).conforms = s.conforms := rfl
@[simp] theorem State.setSlot_draws : (s.setSlot x).draws = s.draws := rfl
@[simp] theorem State.setSlot_inputs : (s.setSlot x).inputs = s.inputs := rfl

end

section
variable (s : State) (q : Seq)

@[simp] theorem State.setSeq_cfg : (s.setSeq q).cfg = s.cfg := rfl
@[simp] theorem State.setSeq_slot : (s.setSeq q).slot = s.slot := rfl
@[simp] theorem State.setSeq_cs : (s.setSeq q).cs = s.cs := rfl
@[simp] theorem State.setSeq_seq : (s.setSeq q).seq = q := rfl
@[simp] theorem State.setSeq_devMem : (s.setSeq q).devMem = s.devMem := rfl
@[simp] theorem State.setSeq_epoch : (s.setSeq q).epoch = s.epoch := rfl
@[simp] theorem State.setSeq_devFrame : (s.setSeq q).devFrame = s.devFrame := rfl
@[simp] theorem State.setSeq_trace : (s.setSeq q).trace = s.trace := rfl
@[simp] theorem State.setSeq_nREAD : (s.setSeq q).nREAD = s.nREAD := rfl
@[simp] theorem State.setSeq_nWRITE : (s.setSeq q).nWRITE = s.nWRITE := rfl
@[simp] theorem State.setSeq_response : (s.setSeq q).response = s.response := rfl
@[simp] theorem State.setSeq_boardInit : (s.setSeq q).boardInit = s.boardInit := rfl
@[simp] theorem State.setSeq_bus : (s.setSeq q).bus = s.bus := rfl
@[simp] theorem State.setSeq_conforms : (s.setSeq q).conforms = s.conforms := rfl
@[simp] theorem State.setSeq_draws : (s.setSeq q).draws = s.draws := rfl
@[simp] theorem State.setSeq_inputs : (s.setSeq q).inputs = s.inputs := rfl

end

section
variable (s : State) (r : Response)

@[simp] theorem State.respond_cfg : (s.respond r).cfg = s.cfg := rfl
@[simp] theorem State.respond_slot : (s.respond r).slot = s.slot := rfl
@[simp] theorem State.respond_cs : (s.respond r).cs = s.cs := rfl
@[simp] theorem State.respond_seq : (s.respond r).seq = s.seq := rfl
@[simp] theorem State.respond_devMem : (s.respond r).devMem = s.devMem := rfl
@[simp] theorem State.respond_epoch : (s.respond r).epoch = s.epoch := rfl
@[simp] theorem State.respond_devFrame : (s.respond r).devFrame = s.devFrame := rfl
@[simp] theorem State.respond_trace : (s.respond r).trace = s.trace := rfl
@[simp] theorem State.respond_nREAD : (s.respond r).nREAD = s.nREAD := rfl
@[simp] theorem State.respond_nWRITE : (s.respond r).nWRITE = s.nWRITE := rfl
@[simp] theorem State.respond_response : (s.respond r).response = r := rfl
@[simp] theorem State.respond_boardInit : (s.respond r).boardInit = s.boardInit := rfl
@[simp] theorem State.respond_bus : (s.respond r).bus = s.bus := rfl
@[simp] theorem State.respond_conforms : (s.respond r).conforms = s.conforms := rfl
@[simp] theorem State.respond_draws : (s.respond r).draws = s.draws := rfl
@[simp] theorem State.respond_inputs : (s.respond r).inputs = s.inputs := rfl

end

section
variable (s : State)

@[simp] theorem State.countRead_cfg : (s.countRead).cfg = s.cfg := rfl
@[simp] theorem State.countRead_slot : (s.countRead).slot = s.slot := rfl
@[simp] theorem State.countRead_cs : (s.countRead).cs = s.cs := rfl
@[simp] theorem State.countRead_seq : (s.countRead).seq = s.seq := rfl
@[simp] theorem State.countRead_devMem : (s.countRead).devMem = s.devMem := rfl
@[simp] theorem State.countRead_epoch : (s.countRead).epoch = s.epoch := rfl
@[simp] theorem State.countRead_devFrame : (s.countRead).devFrame = s.devFrame := rfl
@[simp] theorem State.countRead_trace : (s.countRead).trace = s.trace := rfl
@[simp] theorem State.countRead_nREAD : (s.countRead).nREAD = s.nREAD + 1 := rfl
@[simp] theorem State.countRead_nWRITE : (s.countRead).nWRITE = s.nWRITE := rfl
@[simp] theorem State.countRead_response : (s.countRead).response = s.response := rfl
@[simp] theorem State.countRead_boardInit : (s.countRead).boardInit = s.boardInit := rfl
@[simp] theorem State.countRead_bus : (s.countRead).bus = s.bus := rfl
@[simp] theorem State.countRead_conforms : (s.countRead).conforms = s.conforms := rfl
@[simp] theorem State.countRead_draws : (s.countRead).draws = s.draws := rfl
@[simp] theorem State.countRead_inputs : (s.countRead).inputs = s.inputs := rfl

end

section
variable (s : State)

@[simp] theorem State.countWrite_cfg : (s.countWrite).cfg = s.cfg := rfl
@[simp] theorem State.countWrite_slot : (s.countWrite).slot = s.slot := rfl
@[simp] theorem State.countWrite_cs : (s.countWrite).cs = s.cs := rfl
@[simp] theorem State.countWrite_seq : (s.countWrite).seq = s.seq := rfl
@[simp] theorem State.countWrite_devMem : (s.countWrite).devMem = s.devMem := rfl
@[simp] theorem State.countWrite_epoch : (s.countWrite).epoch = s.epoch := rfl
@[simp] theorem State.countWrite_devFrame : (s.countWrite).devFrame = s.devFrame := rfl
@[simp] theorem State.countWrite_trace : (s.countWrite).trace = s.trace := rfl
@[simp] theorem State.countWrite_nREAD : (s.countWrite).nREAD = s.nREAD := rfl
@[simp] theorem State.countWrite_nWRITE : (s.countWrite).nWRITE = s.nWRITE + 1 := rfl
@[simp] theorem State.countWrite_response : (s.countWrite).response = s.response := rfl
@[simp] theorem State.countWrite_boardInit : (s.countWrite).boardInit = s.boardInit := rfl
@[simp] theorem State.countWrite_bus : (s.countWrite).bus = s.bus := rfl
@[simp] theorem State.countWrite_conforms : (s.countWrite).conforms = s.conforms := rfl
@[simp] theorem State.countWrite_draws : (s.countWrite).draws = s.draws := rfl
@[simp] theorem State.countWrite_inputs : (s.countWrite).inputs = s.inputs := rfl

end

end Sys2Proof.Machine
end

