-- ==== Sys2Proof/Laws/Memory.lean ====
section
/-! SUPPORT. The memory of a chip: a read after a write, the canonical form, and which updates of the state leave every
byte alone. -/

namespace Sys2Proof.Machine

/-! ## One chip's list -/

@[simp] theorem Memory.find_write_same (m : Memory) (a : Nat) (v : Byte) : Memory.find (Memory.write m a v) a = some v := by
  induction m with
  | nil => simp [Memory.write, Memory.find]
  | cons c m ih =>
    obtain ⟨b, w⟩ := c
    simp only [Memory.write]
    split
    · simp [Memory.find]
    · split
      · simp [Memory.find]
      · next h => simp [Memory.find, h, ih]

theorem Memory.find_write_ne (m : Memory) {a x : Nat} (v : Byte) (h : x ≠ a) :
    Memory.find (Memory.write m a v) x = Memory.find m x := by
  induction m with
  | nil => simp [Memory.write, Memory.find, h]
  | cons c m ih =>
    obtain ⟨b, w⟩ := c
    simp only [Memory.write]
    split
    · simp [Memory.find, h]
    · split
      · next hab => subst hab; simp [Memory.find, h]
      · simp [Memory.find, ih]

theorem Memory.mem_write {m : Memory} {a : Nat} {v : Byte} {c : Host.Cell} (h : c ∈ Memory.write m a v) :
    c = (a, v) ∨ c ∈ m := by
  induction m with
  | nil => simpa [Memory.write] using h
  | cons e m ih =>
    obtain ⟨b, w⟩ := e
    simp only [Memory.write] at h
    split at h
    · simpa using h
    · split at h
      · simp only [List.mem_cons] at h ⊢; tauto
      · simp only [List.mem_cons] at h ⊢
        rcases h with h | h
        · exact .inr (.inl h)
        · exact (ih h).imp_right .inr

/-- Writing keeps the canonical form. -/
theorem Memory.wf_write {m : Memory} (h : Memory.wf m) (a : Nat) (v : Byte) : Memory.wf (Memory.write m a v) := by
  induction m with
  | nil => simp [Memory.write, Memory.wf]
  | cons e m ih =>
    obtain ⟨b, w⟩ := e
    have hb := (List.pairwise_cons.1 h).1
    have hm := (List.pairwise_cons.1 h).2
    simp only [Memory.write]
    split
    · next hab =>
      refine List.pairwise_cons.2 ⟨fun c hc => ?_, h⟩
      rcases List.mem_cons.1 hc with rfl | hc
      · exact hab
      · exact Nat.lt_trans hab (hb c hc)
    · split
      · next hab => subst hab; exact List.pairwise_cons.2 ⟨hb, hm⟩
      · next h1 h2 =>
        refine List.pairwise_cons.2 ⟨fun c hc => ?_, ih hm⟩
        rcases Memory.mem_write hc with rfl | hc
        · exact Nat.lt_of_le_of_ne (Nat.le_of_not_lt h1) (Ne.symm h2)
        · exact hb c hc

theorem Memory.find_none_of_lt {m : Memory} {a : Nat} (h : ∀ c ∈ m, a < c.1) : Memory.find m a = none := by
  induction m with
  | nil => rfl
  | cons e m ih =>
    obtain ⟨b, w⟩ := e
    have hab : a ≠ b := Nat.ne_of_lt (h (b, w) (by simp))
    simp only [Memory.find, if_neg hab]
    exact ih fun c hc => h c (by simp [hc])

/-- In canonical form, memories that read the same are the same data. -/
theorem Memory.ext_of_wf {m m' : Memory} (h : Memory.wf m) (h' : Memory.wf m')
    (e : ∀ a, Memory.find m a = Memory.find m' a) : m = m' := by
  induction m generalizing m' with
  | nil =>
    cases m' with
    | nil => rfl
    | cons c m' => obtain ⟨b, w⟩ := c; simpa [Memory.find] using e b
  | cons c m ih =>
    obtain ⟨b, w⟩ := c
    have hb := (List.pairwise_cons.1 h).1
    cases m' with
    | nil => simpa [Memory.find] using e b
    | cons c' m' =>
      obtain ⟨b', w'⟩ := c'
      have hb' := (List.pairwise_cons.1 h').1
      have hbb : b = b' := by
        rcases Nat.lt_trichotomy b b' with hlt | heq | hgt
        · have := e b
          rw [Memory.find_none_of_lt (m := (b', w') :: m')] at this
          · simp [Memory.find] at this
          · intro c hc
            rcases List.mem_cons.1 hc with rfl | hc
            · exact hlt
            · exact Nat.lt_trans hlt (hb' c hc)
        · exact heq
        · have := e b'
          rw [Memory.find_none_of_lt (m := (b, w) :: m)] at this
          · simp [Memory.find] at this
          · intro c hc
            rcases List.mem_cons.1 hc with rfl | hc
            · exact hgt
            · exact Nat.lt_trans hgt (hb c hc)
      subst hbb
      have hw : w = w' := by simpa [Memory.find] using e b
      subst hw
      congr 1
      refine ih (List.pairwise_cons.1 h).2 (List.pairwise_cons.1 h').2 fun a => ?_
      by_cases hab : a = b
      · subst hab
        rw [Memory.find_none_of_lt hb, Memory.find_none_of_lt hb']
      · simpa [Memory.find, hab] using e a

/-! ## Bytes of the state -/

@[simp] theorem State.byteAt_writeByteAt_same (s : State) (d : Dev) (a : Nat) (v : Byte) :
    (s.writeByteAt d a v).byteAt d a = v := by
  simp [State.byteAt]

theorem State.byteAt_writeByteAt_ne (s : State) {d e : Dev} {a x : Nat} (v : Byte) (h : e ≠ d ∨ x ≠ a) :
    (s.writeByteAt d a v).byteAt e x = s.byteAt e x := by
  simp only [State.byteAt, State.writeByteAt_devMem, State.writeByteAt_epoch, PerDev.get_set]
  split
  · next hed =>
    subst hed
    rw [Memory.find_write_ne _ _ (h.resolve_left (by simp))]
  · rfl

/-- A byte depends on nothing but the chips' memories. -/
theorem State.byteAt_congr {s t : State} (hm : t.devMem = s.devMem) (he : t.epoch = s.epoch) (d : Dev) (a : Nat) :
    t.byteAt d a = s.byteAt d a := by
  simp [State.byteAt, hm, he]

@[simp] theorem State.byteAt_spendDraws (s : State) (n : Nat) (d : Dev) (a : Nat) :
    (s.spendDraws n).byteAt d a = s.byteAt d a := rfl
@[simp] theorem State.byteAt_emit (s : State) (e : BusEvent) (d : Dev) (a : Nat) :
    (s.emit e).byteAt d a = s.byteAt d a := rfl
@[simp] theorem State.byteAt_assertLine (s : State) (e d : Dev) (a : Nat) :
    (s.assertLine e).byteAt d a = s.byteAt d a := rfl
@[simp] theorem State.byteAt_releaseLine (s : State) (e d : Dev) (a : Nat) :
    (s.releaseLine e).byteAt d a = s.byteAt d a := rfl
@[simp] theorem State.byteAt_setFrame (s : State) (e : Dev) (f : Frame) (d : Dev) (a : Nat) :
    (s.setFrame e f).byteAt d a = s.byteAt d a := rfl
@[simp] theorem State.byteAt_spendExchange (s : State) (d : Dev) (a : Nat) :
    s.spendExchange.byteAt d a = s.byteAt d a := rfl
@[simp] theorem State.byteAt_setSlot (s : State) (x : Slot) (d : Dev) (a : Nat) :
    (s.setSlot x).byteAt d a = s.byteAt d a := rfl
@[simp] theorem State.byteAt_setSeq (s : State) (q : Seq) (d : Dev) (a : Nat) :
    (s.setSeq q).byteAt d a = s.byteAt d a := rfl
@[simp] theorem State.byteAt_respond (s : State) (r : Response) (d : Dev) (a : Nat) :
    (s.respond r).byteAt d a = s.byteAt d a := rfl
@[simp] theorem State.byteAt_countRead (s : State) (d : Dev) (a : Nat) : s.countRead.byteAt d a = s.byteAt d a := rfl
@[simp] theorem State.byteAt_countWrite (s : State) (d : Dev) (a : Nat) : s.countWrite.byteAt d a = s.byteAt d a := rfl

/-! ## Storing a payload -/

/-- Storing a payload changes the chips' memory, by what that memory was, and nothing else. -/
theorem State.storeBytes_of_devMem {t u : State} (h : t.devMem = u.devMem) (d : Dev) (a : Nat) (bs : List Byte) :
    t.storeBytes d a bs = { t with devMem := (u.storeBytes d a bs).devMem } := by
  induction bs generalizing t u a with
  | nil => simp only [State.storeBytes, ← h]
  | cons b bs ih =>
    simp only [State.storeBytes]
    rw [ih (t := t.writeByteAt d a b) (u := u.writeByteAt d a b) (by simp [h])]
    rfl

theorem State.storeBytes_eq (s : State) (d : Dev) (a : Nat) (bs : List Byte) :
    s.storeBytes d a bs = { s with devMem := (s.storeBytes d a bs).devMem } := State.storeBytes_of_devMem rfl d a bs

/-- Every byte outside the payload's range, or of another chip, reads as before. -/
theorem State.byteAt_storeBytes_ne (s : State) {d e : Dev} {a x : Nat} (bs : List Byte)
    (h : e ≠ d ∨ x < a ∨ a + bs.length ≤ x) : (s.storeBytes d a bs).byteAt e x = s.byteAt e x := by
  induction bs generalizing s a with
  | nil => rfl
  | cons b bs ih =>
    rw [State.storeBytes, ih, State.byteAt_writeByteAt_ne]
    · rcases h with h | h | h
      · exact .inl h
      · exact .inr (by omega)
      · exact .inr (by simp at h; omega)
    · rcases h with h | h | h
      · exact .inl h
      · exact .inr (.inl (by omega))
      · exact .inr (.inr (by simp at h; omega))

/-- Byte `j` of the payload is stored at `a + j`. -/
theorem State.byteAt_storeBytes (s : State) (d : Dev) (a : Nat) (bs : List Byte) (j : Nat) (h : j < bs.length) :
    (s.storeBytes d a bs).byteAt d (a + j) = bs[j] := by
  induction bs generalizing s a j with
  | nil => simp at h
  | cons b bs ih =>
    rw [State.storeBytes]
    cases j with
    | zero => rw [State.byteAt_storeBytes_ne _ _ (.inr (.inl (by omega)))]; simp
    | succ j =>
      have h' : j < bs.length := by simpa using h
      rw [show a + (j + 1) = (a + 1) + j by omega, ih (s.writeByteAt d a b) (a + 1) j h']
      simp

/-- Storing keeps every list canonical, and inside the chip when the payload is. -/
theorem State.memoryOK_writeByteAt {s : State} (h : s.MemoryOK) (d : Dev) {a : Nat} (v : Byte) (ha : a < s.cfg.memSize) :
    (s.writeByteAt d a v).MemoryOK := by
  intro e
  simp only [State.writeByteAt_devMem, State.writeByteAt_cfg, PerDev.get_set]
  split
  · next hed =>
    subst hed
    refine ⟨Memory.wf_write (h e).1 a v, fun c hc => ?_⟩
    rcases Memory.mem_write hc with rfl | hc
    · exact ha
    · exact (h e).2 c hc
  · exact h e

theorem State.memoryOK_forgetChip {s : State} (h : s.MemoryOK) (d : Dev) : (s.forgetChip d).MemoryOK := by
  intro e
  simp only [State.forgetChip_devMem, State.forgetChip_cfg, PerDev.get_set]
  split
  · exact ⟨List.Pairwise.nil, by simp⟩
  · exact h e

end Sys2Proof.Machine
end

