-- ==== Sys2Proof/Laws/Transport.lean ====
section
/-! SUPPORT. What the chip and each transport operation can do, said once: an inversion lemma for each, and the result
of each where its preconditions hold. -/

namespace Sys2Proof.Machine

/-! ## Two spellings of the chip's state -/

@[simp] theorem answerDraw_fst (d : Dev) (f : Frame) (s : State) : (answerDraw d f s).1 = s.nextDraw := rfl

@[simp] theorem answerDraw_snd (d : Dev) (f : Frame) (s : State) :
    (answerDraw d f s).2 = (s.spendDraws 1).setFrame d f := rfl

theorem State.forgetUnlessConforming_of_conforming {s : State} {d : Dev} (h : s.Conforming d) :
    s.forgetUnlessConforming d = s := by
  simp [State.forgetUnlessConforming, h]

/-! ## The chip's answer -/

/-- Everything an exchange can do at the chip when it is not refused: one of the frame's six moves. -/
theorem chipAnswer_ok {d : Dev} {o : Byte} {s s' : State} {i : Byte} (h : chipAnswer d o s = .ok (i, s')) :
    (s.devFrame.get d = .k0 ∧ (i, s') = answerDraw d (.k1 o) s) ∨
    (∃ op, s.devFrame.get d = .k1 op ∧ (i, s') = answerDraw d (.k2 op o) s) ∨
    (∃ op b2, s.devFrame.get d = .k2 op b2 ∧ (i, s') = answerDraw d (.k3 op b2 o) s) ∨
    (∃ op b2 b1, s.devFrame.get d = .k3 op b2 b1 ∧ (joinAddr b2 b1 o).toNat < s.cfg.memSize ∧
      (i, s') = answerDraw d (.payload op (joinAddr b2 b1 o) 0)
        (if op = Config.opWrite then s.forgetUnlessConforming d else s)) ∨
    (∃ a j, s.devFrame.get d = .payload Config.opRead a j ∧ payloadAddr a j < s.cfg.memSize ∧
      (i, s') = answerRead d a j s) ∨
    (∃ a j, s.devFrame.get d = .payload Config.opWrite a j ∧ payloadAddr a j < s.cfg.memSize ∧
      (i, s') = answerWrite d a j o s) := by
  unfold chipAnswer at h
  split at h
  · cases h
  · next hf => exact .inl ⟨hf, by injection h with h; exact h.symm⟩
  · next op hf => exact .inr (.inl ⟨op, hf, by injection h with h; exact h.symm⟩)
  · next op b2 hf => exact .inr (.inr (.inl ⟨op, b2, hf, by injection h with h; exact h.symm⟩))
  · next op b2 b1 hf =>
    unfold answerHeaderEnd at h
    split at h
    · cases h
    · next hlt =>
      refine .inr (.inr (.inr (.inl ⟨op, b2, b1, hf, Nat.lt_of_not_le hlt, ?_⟩)))
      split at h
      · next ho => rw [if_pos ho]; injection h with h; exact h.symm
      · next ho => rw [if_neg ho]; injection h with h; exact h.symm
  · next op a j hf =>
    unfold answerPayload at h
    split at h
    · next hop =>
      split at h
      · cases h
      · next hlt =>
        split at h
        · next ho =>
          subst ho
          exact .inr (.inr (.inr (.inr (.inl ⟨a, j, hf, Nat.lt_of_not_le hlt, by injection h with h; exact h.symm⟩))))
        · next ho =>
          have ho' := hop.resolve_left ho
          subst ho'
          exact .inr (.inr (.inr (.inr (.inr ⟨a, j, hf, Nat.lt_of_not_le hlt, by injection h with h; exact h.symm⟩))))
    · cases h

/-- In a READ payload inside the chip the exchange is answered, conforming or not. -/
theorem chipAnswer_read_any {d : Dev} {a : Addr} {j : Nat} {s : State} (o : Byte)
    (hf : s.devFrame.get d = .payload Config.opRead a j) (hr : payloadAddr a j < s.cfg.memSize) :
    chipAnswer d o s = .ok (answerRead d a j s) := by
  have : answerPayload d Config.opRead a j o s = .ok (answerRead d a j s) := by
    unfold answerPayload
    rw [if_pos (Or.inl rfl), if_neg (Nat.not_le_of_lt hr), if_pos rfl]
  rw [chipAnswer, hf]
  exact this

/-- In a WRITE payload inside the chip the exchange is answered, conforming or not. -/
theorem chipAnswer_write_any {d : Dev} {a : Addr} {j : Nat} {s : State} (o : Byte)
    (hf : s.devFrame.get d = .payload Config.opWrite a j) (hr : payloadAddr a j < s.cfg.memSize) :
    chipAnswer d o s = .ok (answerWrite d a j o s) := by
  have : answerPayload d Config.opWrite a j o s = .ok (answerWrite d a j o s) := by
    unfold answerPayload
    rw [if_pos (Or.inr rfl), if_neg (Nat.not_le_of_lt hr), if_neg (by decide)]
  rw [chipAnswer, hf]
  exact this

/-- A payload exchange past the chip's end is refused (R49, R51). -/
theorem chipAnswer_beyond {d : Dev} {op : Byte} {a : Addr} {j : Nat} {s : State} (o : Byte)
    (hf : s.devFrame.get d = .payload op a j) (ho : op = Config.opRead ∨ op = Config.opWrite)
    (hr : s.cfg.memSize ≤ payloadAddr a j) :
    chipAnswer d o s = .error (if j = 0 then .addressBeyondDevice else .rangeBeyondDevice) := by
  have : answerPayload d op a j o s = .error (if j = 0 then .addressBeyondDevice else .rangeBeyondDevice) := by
    unfold answerPayload
    rw [if_pos ho, if_pos hr]
  rw [chipAnswer, hf]
  exact this

/-- A conforming chip in a READ payload answers the stored byte (R52). -/
theorem chipAnswer_read {d : Dev} {a : Addr} {j : Nat} {s : State} (o : Byte)
    (hf : s.devFrame.get d = .payload Config.opRead a j) (hr : payloadAddr a j < s.cfg.memSize) (hc : s.Conforming d) :
    chipAnswer d o s =
      .ok (s.byteAt d (payloadAddr a j), s.setFrame d (.payload Config.opRead a (j + 1))) := by
  rw [chipAnswer_read_any o hf hr, answerRead, if_pos hc]

/-- A conforming chip in a WRITE payload stores the byte and answers a draw (R53). -/
theorem chipAnswer_write {d : Dev} {a : Addr} {j : Nat} {s : State} (o : Byte)
    (hf : s.devFrame.get d = .payload Config.opWrite a j) (hr : payloadAddr a j < s.cfg.memSize) (hc : s.Conforming d) :
    chipAnswer d o s =
      .ok (answerDraw d (.payload Config.opWrite a (j + 1)) (s.writeByteAt d (payloadAddr a j) o)) := by
  rw [chipAnswer_write_any o hf hr, answerWrite, State.forgetUnlessConforming_of_conforming (by exact hc)]

/-! ## The three operations: inversion -/

theorem performSelect_done {d : Dev} {s s' : State} {b : Option Byte} (h : performSelect d s = .done s' b) :
    s.boardInit = true ∧ s.cs = 0b000#3 ∧ b = none ∧ s' = ((s.assertLine d).emit (.sel d)).setFrame d .k0 := by
  unfold performSelect at h
  split at h
  · cases h
  · next hb =>
    split at h
    · cases h
    · next hc =>
      injection h with h1 h2
      exact ⟨by simpa using hb, by simpa using hc, h2.symm, h1.symm⟩

theorem performExchange_done {o : Byte} {s s' : State} {b : Option Byte} (h : performExchange o s = .done s' b) :
    ∃ d i s1, s.boardInit = true ∧ Dev.ofLine? s.cs = some d ∧ s.bus ≠ some 0 ∧ chipAnswer d o s = .ok (i, s1) ∧
      b = some i ∧ s' = s1.spendExchange.emit (.xchg o i) := by
  unfold performExchange at h
  split at h
  · cases h
  · next hb =>
    split at h
    · cases h
    · next d hd =>
      split at h
      · cases h
      · next hbus =>
        split at h
        · cases h
        · next i s1 hc =>
          injection h with h1 h2
          exact ⟨d, i, s1, by simpa using hb, hd, hbus, hc, h2.symm, h1.symm⟩

/-- Only an exchange waits, with a line asserted on an initialised board (R100). -/
theorem perform_waiting {x : BusOp} {s : State} (h : perform x s = .waiting) :
    ∃ o d, x = .exchange o ∧ s.boardInit = true ∧ Dev.ofLine? s.cs = some d ∧ s.bus = some 0 := by
  cases x with
  | select d =>
    simp only [perform, performSelect] at h
    split at h
    · cases h
    · split at h <;> cases h
  | exchange o =>
    simp only [perform, performExchange] at h
    split at h
    · cases h
    · next hb =>
      split at h
      · cases h
      · next d hd =>
        split at h
        · next hbus => exact ⟨o, d, rfl, by simpa using hb, hd, hbus⟩
        · split at h <;> cases h
  | deselect d =>
    simp only [perform, performDeselect] at h
    split at h
    · cases h
    · split at h
      · cases h
      · split at h
        · cases h
        · split at h
          · cases h
          · split at h <;> cases h
        all_goals cases h

theorem performDeselect_done {d : Dev} {s s' : State} {b : Option Byte} (h : performDeselect d s = .done s' b) :
    s.boardInit = true ∧ lineAsserted s.cs d = true ∧ b = none ∧
    ((s.devFrame.get d = .closed ∧ s' = endTransaction d s) ∨
      (∃ a j, s.devFrame.get d = .payload Config.opRead a j ∧ s' = (endTransaction d s).countRead) ∨
      (∃ a j, s.devFrame.get d = .payload Config.opWrite a j ∧ s' = (endTransaction d s).countWrite)) := by
  unfold performDeselect at h
  split at h
  · cases h
  · next hb =>
    split at h
    · cases h
    · next hl =>
      have hb' : s.boardInit = true := by simpa using hb
      have hl' : lineAsserted s.cs d = true := by simpa using hl
      split at h
      · next hf =>
        injection h with h1 h2
        exact ⟨hb', hl', h2.symm, .inl ⟨hf, h1.symm⟩⟩
      · next op a j hf =>
        split at h
        · next ho =>
          subst ho
          injection h with h1 h2
          exact ⟨hb', hl', h2.symm, .inr (.inl ⟨a, j, hf, h1.symm⟩)⟩
        · split at h
          · next ho =>
            subst ho
            injection h with h1 h2
            exact ⟨hb', hl', h2.symm, .inr (.inr ⟨a, j, hf, h1.symm⟩)⟩
          · cases h
      all_goals cases h

/-! ## The three operations where they run -/

theorem perform_select {d : Dev} {s : State} (hb : s.boardInit = true) (hc : s.cs = 0b000#3) :
    perform (.select d) s = .done (((s.assertLine d).emit (.sel d)).setFrame d .k0) none := by
  simp [perform, performSelect, hb, hc]

theorem perform_exchange {d : Dev} {o i : Byte} {s s1 : State} (hb : s.boardInit = true) (hc : s.cs = d.line)
    (hl : s.bus ≠ some 0) (ha : chipAnswer d o s = .ok (i, s1)) :
    perform (.exchange o) s = .done (s1.spendExchange.emit (.xchg o i)) (some i) := by
  simp [perform, performExchange, hb, hc, hl, ha]

/-- The same with the chip's answer as one value. -/
theorem perform_exchange_pair {d : Dev} {o : Byte} {s : State} {r : Byte × State} (hb : s.boardInit = true)
    (hc : s.cs = d.line) (hl : s.bus ≠ some 0) (ha : chipAnswer d o s = .ok r) :
    perform (.exchange o) s = .done (r.2.spendExchange.emit (.xchg o r.1)) (some r.1) :=
  perform_exchange hb hc hl ha

theorem perform_exchange_refused {d : Dev} {o : Byte} {s : State} {r : Refusal} (hb : s.boardInit = true) (hc : s.cs = d.line)
    (hl : s.bus ≠ some 0) (ha : chipAnswer d o s = .error r) : perform (.exchange o) s = .refused r := by
  simp [perform, performExchange, hb, hc, hl, ha]

theorem lineAsserted_line (d : Dev) : lineAsserted d.line d = true := by cases d <;> decide

theorem perform_deselect_read {d : Dev} {a : Addr} {j : Nat} {s : State} (hb : s.boardInit = true) (hc : s.cs = d.line)
    (hf : s.devFrame.get d = .payload Config.opRead a j) :
    perform (.deselect d) s = .done (endTransaction d s).countRead none := by
  simp [perform, performDeselect, hb, hc, hf, lineAsserted_line]

theorem perform_deselect_write {d : Dev} {a : Addr} {j : Nat} {s : State} (hb : s.boardInit = true) (hc : s.cs = d.line)
    (hf : s.devFrame.get d = .payload Config.opWrite a j) :
    perform (.deselect d) s = .done (endTransaction d s).countWrite none := by
  simp [perform, performDeselect, hb, hc, hf, lineAsserted_line, show (Config.opWrite = Config.opRead) = False by decide]

end Sys2Proof.Machine
end

