-- ==== Sys2Proof/Laws/Sequencer.lean ====
section
/-! SUPPORT. The sequencer: how a plan is performed step by step, and the one induction over it. -/

namespace Sys2Proof.Machine

theorem drive_nil (i : Instr) (p : Plan) (k : Nat) (cap : List Byte) (s : State) :
    drive i p k cap [] s = .next (complete i cap s) := rfl

/-- A step that returns: the sequencer goes on with the state it left, the slot treated as the step says. -/
theorem drive_cons_done {i : Instr} {p : Plan} {k : Nat} {cap : List Byte} {x : PlanStep} {rest : Plan} {s s' : State}
    {b : Option Byte} (h : perform x.op s = .done s' b) :
    drive i p k cap (x :: rest) s =
      drive i p (k + 1) (capAfter x.after b cap) rest
        (s'.setSlot (slotAfter x.after (capAfter x.after b cap) s'.slot)) := by
  rw [drive, h]

theorem drive_cons_waiting {i : Instr} {p : Plan} {k : Nat} {cap : List Byte} {x : PlanStep} {rest : Plan} {s : State}
    (h : perform x.op s = .waiting) : drive i p k cap (x :: rest) s = .next (hang i p k cap s) := by
  rw [drive, h]

theorem drive_cons_refused {i : Instr} {p : Plan} {k : Nat} {cap : List Byte} {x : PlanStep} {rest : Plan} {s : State}
    {r : Refusal} (h : perform x.op s = .refused r) : drive i p k cap (x :: rest) s = .refused r := by
  rw [drive, h]

/-- An operation never faults (R151). -/
theorem drive_ne_fault (i : Instr) (p : Plan) (k : Nat) (cap : List Byte) (rest : Plan) (s : State) (f : Fault) :
    drive i p k cap rest s ≠ .fault f := by
  induction rest generalizing k cap s with
  | nil => simp [drive]
  | cons x rest ih =>
    rw [drive]
    split
    · simp
    · simp
    · exact ih _ _ _

/-- The one induction over a plan, with the position reached: what holds at step `k` and is carried over each step of the
plan holds of the state the operation leaves, done or stopped. -/
theorem drive_carries {P : Nat → List Byte → State → Prop} {Q : State → Prop} (i : Instr) (p : Plan)
    (hop : ∀ {k : Nat} {cap : List Byte} {x : PlanStep} {s s' : State} {b : Option Byte}, p[k]? = some x →
      perform x.op s = .done s' b → P k cap s →
      P (k + 1) (capAfter x.after b cap) (s'.setSlot (slotAfter x.after (capAfter x.after b cap) s'.slot)))
    (hcomplete : ∀ {cap : List Byte} {s : State}, P p.length cap s → Q (complete i cap s))
    (hhang : ∀ {k : Nat} {cap : List Byte} {x : PlanStep} {s : State}, p[k]? = some x → perform x.op s = .waiting →
      P k cap s → Q (hang i p k cap s))
    {k : Nat} {cap : List Byte} {rest : Plan} {s t : State} (hk : k ≤ p.length) (hrest : rest = p.drop k) (hs : P k cap s)
    (h : drive i p k cap rest s = .next t) : Q t := by
  induction rest generalizing k cap s with
  | nil =>
    have hlen : p.length ≤ k := List.drop_eq_nil_iff.1 hrest.symm
    have hkl : k = p.length := Nat.le_antisymm hk hlen
    rw [drive] at h
    injection h with h
    exact h ▸ hcomplete (hkl ▸ hs)
  | cons x rest ih =>
    have hx : p[k]? = some x := by
      have := congrArg (fun l => l[0]?) hrest
      simpa [List.getElem?_drop] using this.symm
    have hrest' : rest = p.drop (k + 1) := by
      have := congrArg List.tail hrest
      simpa [List.tail_drop] using this
    have hlt : k < p.length := by
      by_contra hge
      rw [List.getElem?_eq_none (Nat.le_of_not_lt hge)] at hx
      cases hx
    rw [drive] at h
    split at h
    · cases h
    · next hw =>
      injection h with h
      exact h ▸ hhang hx hw hs
    · next s' b hd => exact ih hlt hrest' (hop hx hd hs) h

/-- The same without the position: what each transport operation keeps, each slot treatment keeps, the completion keeps
and each hang keeps, an operation keeps. -/
theorem drive_keeps {P : State → Prop} (i : Instr) (p : Plan)
    (hop : ∀ {x : PlanStep} {s s' : State} {b : Option Byte}, x ∈ p → perform x.op s = .done s' b → P s → P s')
    (hslot : ∀ {x : PlanStep} {s : State} (cap : List Byte), x ∈ p → P s → P (s.setSlot (slotAfter x.after cap s.slot)))
    (hcomplete : ∀ {s : State} (cap : List Byte), P s → P (complete i cap s))
    (hhang : ∀ {s : State} {k : Nat} {x : PlanStep} (cap : List Byte), p[k]? = some x → perform x.op s = .waiting → P s →
      P (hang i p k cap s))
    {k : Nat} {cap : List Byte} {s t : State} (hk : k ≤ p.length) (hs : P s)
    (h : drive i p k cap (p.drop k) s = .next t) : P t :=
  drive_carries (P := fun _ _ => P) (Q := P) i p
    (fun hx hd hs => hslot _ (List.mem_of_getElem? hx) (hop (List.mem_of_getElem? hx) hd hs))
    (fun {cap} {_} hs => hcomplete cap hs) (fun {_} {cap} {_} {_} hx hw hs => hhang cap hx hw hs) hk rfl hs h

/-- An operation that answers a next state has completed, or has stopped at an exchange. -/
theorem drive_ends {i : Instr} {p : Plan} {k : Nat} {cap : List Byte} {s t : State} (hk : k ≤ p.length)
    (h : drive i p k cap (p.drop k) s = .next t) :
    (∃ cap u, t = complete i cap u) ∨
    (∃ k cap u o after, t = hang i p k cap u ∧ p[k]? = some ⟨.exchange o, after⟩ ∧ u.bus = some 0) := by
  refine drive_carries (P := fun _ _ _ => True)
    (Q := fun t => (∃ cap u, t = complete i cap u) ∨
      (∃ k cap u o after, t = hang i p k cap u ∧ p[k]? = some ⟨.exchange o, after⟩ ∧ u.bus = some 0))
    i p (fun _ _ _ => trivial) (fun {cap u} _ => .inl ⟨cap, u, rfl⟩) ?_ hk rfl trivial h
  intro k cap x u hx hw _
  obtain ⟨o, d, ho, -, -, hb⟩ := perform_waiting hw
  refine .inr ⟨k, cap, u, o, x.after, rfl, ?_, hb⟩
  rw [hx, ← ho]

/-- Before an operation has ended its plan, and only then, the block is busy. -/
theorem hang_seq_ne (i : Instr) (p : Plan) (k : Nat) (cap : List Byte) (s : State) : (hang i p k cap s).seq ≠ .idle := by
  simp [hang]

/-- `start` begins a plan when the block is idle, and refuses when it is not (R80). -/
theorem start_idle {s : State} (h : s.seq = .idle) (i : Instr) (p : Plan) : start i p s = drive i p 0 [] p s := by
  simp [start, h]

theorem start_busy {s : State} {i' : Instr} {p' : Plan} {k : Nat} {cap : List Byte} (h : s.seq = .run i' p' k cap)
    (i : Instr) (p : Plan) : start i p s = .refused .commandWhileBusy := by
  simp [start, h]

/-- An operation that answers a next state was started from an idle block. -/
theorem idle_of_start_next {i : Instr} {p : Plan} {s t : State} (h : start i p s = .next t) :
    s.seq = .idle ∧ drive i p 0 [] p s = .next t := by
  unfold start at h
  split at h
  · next hs => exact ⟨hs, h⟩
  · cases h

/-- The plan an instruction starts in a state (R131). -/
def planOf : Instr → State → Plan
  | .select d, _ => [⟨.select d, .ignore⟩]
  | .exchange o, _ => [⟨.exchange o, .capture⟩]
  | .deselect d, _ => [⟨.deselect d, .ignore⟩]
  | .dpRead d a n, _ => readPlan d a n .ignore
  | .dpWrite d a data, _ => writePlan d a data .ignore
  | .miss a, s => missPlan a s
  | .readByte a, s => accessPlan a s
  | .writeByte a _, s => accessPlan a s
  | .flush, s => flushPlan s
  | .nop, _ => []

/-- Every meaning starts its plan. -/
theorem exec_eq_start (i : Instr) (s : State) : exec i s = start i (planOf i s) s := by cases i <;> rfl

end Sys2Proof.Machine
end

