-- ==== Sys2Proof/Laws/Step.lean ====
section
/-! SUPPORT. The step, said once: whose turn it is and what it leaves, and the step under each kind of turn. -/

namespace Sys2Proof.Machine

/-- The outcome of a turn. -/
def Turn.finish : Turn → Host.Outcome State Fault Refusal
  | .execute i s => exec i s
  | .outcome o => o

theorem step_eq (s : State) : step s = (turn s).finish := by
  rw [step]; cases turn s <;> rfl

/-- The block takes the next input: it waits for a command, or an operation is stopped. -/
def State.TakesInput (s : State) : Prop := ∀ i p k cap, s.seq = .run i p k cap → blocked p k s = true

theorem State.takesInput_of_idle {s : State} (h : s.seq = .idle) : s.TakesInput := by
  intro i p k cap h'; rw [h] at h'; cases h'

theorem step_input {s : State} {x : Input} {rest : List Input} (hw : s.TakesInput) (hi : s.inputs = x :: rest) :
    step s = (applyInput x { s with inputs := rest }).finish := by
  rw [step_eq, turn]
  split
  · rw [hi]
  · next i p k cap hs => rw [if_pos (hw i p k cap hs), hi]

theorem step_idle_nil {s : State} (hs : s.seq = .idle) (hi : s.inputs = []) : step s = .next s := by
  rw [step_eq, turn, hs, hi]; rfl

theorem step_stopped_nil {s : State} {i : Instr} {p : Plan} {k : Nat} {cap : List Byte} (hs : s.seq = .run i p k cap)
    (hb : blocked p k s = true) (hi : s.inputs = []) : step s = .fault .stuck := by
  rw [step_eq, turn, hs, hi]; simp [hb, Turn.finish]

theorem step_resumes {s : State} {i : Instr} {p : Plan} {k : Nat} {cap : List Byte} (hs : s.seq = .run i p k cap)
    (hb : blocked p k s = false) : step s = drive i p k cap (p.drop k) (s.setSeq .idle) := by
  rw [step_eq, turn, hs]; simp [hb, Turn.finish]

/-- Everything a step can do. -/
theorem step_cases (s : State) :
    (s.seq = .idle ∧ s.inputs = [] ∧ step s = .next s) ∨
    (∃ x rest, s.TakesInput ∧ s.inputs = x :: rest ∧ step s = (applyInput x { s with inputs := rest }).finish) ∨
    (∃ i p k cap, s.seq = .run i p k cap ∧ blocked p k s = true ∧ s.inputs = [] ∧ step s = .fault .stuck) ∨
    (∃ i p k cap, s.seq = .run i p k cap ∧ blocked p k s = false ∧
      step s = drive i p k cap (p.drop k) (s.setSeq .idle)) := by
  cases hs : s.seq with
  | idle =>
    cases hi : s.inputs with
    | nil => exact .inl ⟨rfl, rfl, step_idle_nil hs hi⟩
    | cons x rest =>
      have hw := State.takesInput_of_idle hs
      exact .inr (.inl ⟨x, rest, hw, rfl, by rw [step_input hw hi, hs]⟩)
  | run i p k cap =>
    cases hb : blocked p k s with
    | false => exact .inr (.inr (.inr ⟨i, p, k, cap, rfl, hb, step_resumes hs hb⟩))
    | true =>
      have hw : s.TakesInput := by
        intro i' p' k' cap' h'
        rw [hs] at h'
        cases h'
        exact hb
      cases hi : s.inputs with
      | nil => exact .inr (.inr (.inl ⟨i, p, k, cap, rfl, hb, rfl, step_stopped_nil hs hb hi⟩))
      | cons x rest => exact .inr (.inl ⟨x, rest, hw, rfl, by rw [step_input hw hi, hs]⟩)

/-- Everything an input can do when a state is left. -/
theorem applyInput_next {x : Input} {s t : State} (h : (applyInput x s).finish = .next t) :
    (∃ r i, x = .present r ∧ decode r = .ok i ∧ exec i s = .next t) ∨
    (x = .boardInit ∧ t = { s with boardInit := true }) ∨
    (∃ n, x = .grant n ∧ t = { s with bus := n }) ∨
    (∃ d a v, x = .other d a v ∧ s.InRange a ∧ t = s.writeByteAt d a.toNat v) ∨
    (∃ d b, x = .conform d b ∧ t = { s with conforms := s.conforms.set d b }) ∨
    (x = .reset ∧ t = resetBlock s) ∨
    (x = .powerCycle ∧ t = powerCycle s) := by
  cases x with
  | present r =>
    simp only [applyInput] at h
    split at h
    · next i hd => exact .inl ⟨r, i, rfl, hd, h⟩
    · cases h
  | boardInit => injection h with h; exact .inr (.inl ⟨rfl, h.symm⟩)
  | grant n => injection h with h; exact .inr (.inr (.inl ⟨n, rfl, h.symm⟩))
  | other d a v =>
    simp only [applyInput] at h
    split at h
    · next ha => injection h with h; exact .inr (.inr (.inr (.inl ⟨d, a, v, rfl, ha, h.symm⟩)))
    · cases h
  | conform d b => injection h with h; exact .inr (.inr (.inr (.inr (.inl ⟨d, b, rfl, h.symm⟩))))
  | reset => injection h with h; exact .inr (.inr (.inr (.inr (.inr (.inl ⟨rfl, h.symm⟩)))))
  | powerCycle => injection h with h; exact .inr (.inr (.inr (.inr (.inr (.inr ⟨rfl, h.symm⟩)))))

theorem exec_ne_fault (i : Instr) (s : State) (f : Fault) : exec i s ≠ .fault f := by
  rw [exec_eq_start, start]
  split
  · exact drive_ne_fault _ _ _ _ _ _ _
  · simp

/-- No input ends in a fault. -/
theorem applyInput_ne_fault (x : Input) (s : State) (f : Fault) : (applyInput x s).finish ≠ .fault f := by
  cases x with
  | present r =>
    simp only [applyInput]
    split
    · exact exec_ne_fault _ _ _
    · simp [Turn.finish]
  | other d a v => simp only [applyInput]; split <;> simp [Turn.finish]
  | boardInit => simp [applyInput, Turn.finish]
  | grant n => simp [applyInput, Turn.finish]
  | conform d b => simp [applyInput, Turn.finish]
  | reset => simp [applyInput, Turn.finish]
  | powerCycle => simp [applyInput, Turn.finish]

/-- A stopped operation waits for the bus, at an exchange. -/
theorem blocked_iff {p : Plan} {k : Nat} {s : State} :
    blocked p k s = true ↔ s.bus = some 0 ∧ ∃ o after, p[k]? = some ⟨.exchange o, after⟩ := by
  unfold blocked
  split
  · next o after hp => simp [hp]
  · next h =>
    simp only [Bool.false_eq_true, false_iff]
    rintro ⟨-, o, after, hp⟩
    exact h o after hp

/-- A run takes its first step, then the rest, on any machine. -/
theorem run_next (M : Host.Core) {n : Nat} {s t : M.State} (h : M.step s = .next t) : M.run (n + 1) s = M.run n t := by
  simp only [Host.Core.run, h]

/-- The same for this machine. -/
theorem core_run_next {n : Nat} {s t : State} (h : step s = .next t) :
    Sys2Proof.core.run (n + 1) s = Sys2Proof.core.run n t := run_next Sys2Proof.core h

end Sys2Proof.Machine
end

