-- ==== Sys2Proof/Laws/Frames.lean ====
section
/-! SUPPORT. What an operation leaves alone: the fields every operation keeps, and the fields each transport operation
keeps. -/

namespace Sys2Proof.Machine

/-- What every operation keeps: the configuration, the environment's fields but the exchanges granted, the inputs; the
trace only grows, and so do the counters and the draws used. -/
structure Kept (s t : State) : Prop where
  cfg : t.cfg = s.cfg
  boardInit : t.boardInit = s.boardInit
  conforms : t.conforms = s.conforms
  inputs : t.inputs = s.inputs
  trace : ∃ es, t.trace = s.trace ++ es
  nREAD : s.nREAD ≤ t.nREAD
  nWRITE : s.nWRITE ≤ t.nWRITE
  draws : s.draws ≤ t.draws

theorem Kept.refl (s : State) : Kept s s := ⟨rfl, rfl, rfl, rfl, ⟨[], by simp⟩, Nat.le_refl _, Nat.le_refl _, Nat.le_refl _⟩
theorem Kept.trans {s t u : State} (h : Kept s t) (g : Kept t u) : Kept s u := by
  obtain ⟨es, he⟩ := h.trace
  obtain ⟨fs, hf⟩ := g.trace
  exact ⟨g.cfg.trans h.cfg, g.boardInit.trans h.boardInit, g.conforms.trans h.conforms, g.inputs.trans h.inputs,
    ⟨es ++ fs, by rw [hf, he, List.append_assoc]⟩, Nat.le_trans h.nREAD g.nREAD, Nat.le_trans h.nWRITE g.nWRITE,
    Nat.le_trans h.draws g.draws⟩

theorem chipAnswer_kept {d : Dev} {o i : Byte} {s t : State} (h : chipAnswer d o s = .ok (i, t)) :
   Kept s t ∧ t.slot = s.slot ∧ t.cs = s.cs ∧ t.seq = s.seq ∧ t.bus = s.bus ∧ t.trace = s.trace ∧ t.nREAD = s.nREAD ∧
       t.nWRITE = s.nWRITE ∧ t.response = s.response := by
  have D : ∀ (f : Frame) (u : State), Kept u (answerDraw d f u).2 :=
      fun f u => ⟨rfl, rfl, rfl, rfl, ⟨[], by simp⟩, Nat.le_refl _, Nat.le_refl _, Nat.le_succ _⟩
  rcases chipAnswer_ok h with ⟨-, h⟩ | ⟨_, -, h⟩ | ⟨_, _, -, h⟩ | ⟨op, _, _, -, -, h⟩ | ⟨_, _, -, -, h⟩ | ⟨_, _, -, -, h⟩
  · cases h; exact ⟨D _ _, rfl, rfl, rfl, rfl, rfl, rfl, rfl, rfl⟩
  · cases h; exact ⟨D _ _, rfl, rfl, rfl, rfl, rfl, rfl, rfl, rfl⟩
  · cases h; exact ⟨D _ _, rfl, rfl, rfl, rfl, rfl, rfl, rfl, rfl⟩
  · by_cases ho : op = Config.opWrite
    · rw [if_pos ho] at h
      unfold State.forgetUnlessConforming at h
      split at h <;> cases h
      · exact ⟨D _ _, rfl, rfl, rfl, rfl, rfl, rfl, rfl, rfl⟩
      · exact ⟨⟨rfl, rfl, rfl, rfl, ⟨[], by simp⟩, Nat.le_refl _, Nat.le_refl _, Nat.le_succ _⟩, rfl, rfl, rfl, rfl,
          rfl, rfl, rfl, rfl⟩
    · rw [if_neg ho] at h; cases h; exact ⟨D _ _, rfl, rfl, rfl, rfl, rfl, rfl, rfl, rfl⟩
  · unfold answerRead at h
    split at h <;> cases h
    · exact ⟨⟨rfl, rfl, rfl, rfl, ⟨[], by simp⟩, Nat.le_refl _, Nat.le_refl _, Nat.le_refl _⟩, rfl, rfl, rfl, rfl,
        rfl, rfl, rfl, rfl⟩
    · exact ⟨D _ _, rfl, rfl, rfl, rfl, rfl, rfl, rfl, rfl⟩
  · unfold answerWrite State.forgetUnlessConforming at h
    split at h <;> cases h
    · exact ⟨⟨rfl, rfl, rfl, rfl, ⟨[], by simp⟩, Nat.le_refl _, Nat.le_refl _, Nat.le_succ _⟩, rfl, rfl, rfl, rfl,
        rfl, rfl, rfl, rfl⟩
    · exact ⟨⟨rfl, rfl, rfl, rfl, ⟨[], by simp⟩, Nat.le_refl _, Nat.le_refl _, Nat.le_succ _⟩, rfl, rfl, rfl, rfl,
        rfl, rfl, rfl, rfl⟩

theorem perform_kept {x : BusOp} {s t : State} {b} (h : perform x s = .done t b) : Kept s t ∧ t.slot = s.slot ∧
    t.seq = s.seq := by
  cases x with
  | select d => obtain ⟨-, -, -, rfl⟩ :=
      performSelect_done h; exact ⟨⟨rfl, rfl, rfl, rfl, ⟨[_], rfl⟩, Nat.le_refl _, Nat.le_refl _, Nat.le_refl _⟩, rfl, rfl⟩
  | deselect d =>
    obtain ⟨-, -, -, ⟨-, rfl⟩ | ⟨_, _, -, rfl⟩ | ⟨_, _, -, rfl⟩⟩ := performDeselect_done h
    · exact ⟨⟨rfl, rfl, rfl, rfl, ⟨[_], rfl⟩, Nat.le_refl _, Nat.le_refl _, Nat.le_refl _⟩, rfl, rfl⟩
    · exact ⟨⟨rfl, rfl, rfl, rfl, ⟨[_], rfl⟩, Nat.le_succ _, Nat.le_refl _, Nat.le_refl _⟩, rfl, rfl⟩
    · exact ⟨⟨rfl, rfl, rfl, rfl, ⟨[_], rfl⟩, Nat.le_refl _, Nat.le_succ _, Nat.le_refl _⟩, rfl, rfl⟩
  | exchange o =>
    obtain ⟨d, i, s1, -, -, -, hc, -, rfl⟩ := performExchange_done h
    obtain ⟨hk, h1, h2, h3, h4, h5, h6, h7, h8⟩ := chipAnswer_kept hc
    exact ⟨hk.trans ⟨rfl, rfl, rfl, rfl, ⟨[_], rfl⟩, Nat.le_refl _, Nat.le_refl _, Nat.le_refl _⟩, h1, h3⟩

theorem complete_kept (i : Instr) (cap) (s : State) : Kept s (complete i cap s) := by
  cases i <;> exact ⟨rfl, rfl, rfl, rfl, ⟨[], by simp [complete, State.respondDraw]⟩, Nat.le_refl _, Nat.le_refl _,
      by simp [complete, State.respondDraw]⟩

theorem drive_kept {i : Instr} {p : Plan} {k cap} {s t : State} (hk : k ≤ p.length)
    (h : drive i p k cap (p.drop k) s = .next t) : Kept s t := by
  refine drive_keeps (P := Kept s) i p ?_ ?_ ?_ ?_ hk (Kept.refl s) h
  · intro x u u' b _ hp hu; exact hu.trans (perform_kept hp).1
  · intro x u cap _ hu; exact hu.trans ⟨rfl, rfl, rfl, rfl, ⟨[], by simp⟩, Nat.le_refl _, Nat.le_refl _, Nat.le_refl _⟩
  · intro u cap hu; exact hu.trans (complete_kept i cap u)
  · intro u k x cap _ _ hu; exact hu.trans ⟨rfl, rfl, rfl, rfl, ⟨[], by simp [hang]⟩, Nat.le_refl _, Nat.le_refl _,
      Nat.le_refl _⟩

/-! ## Bytes of the chips -/

/-- What an answered exchange does to the bytes: nothing; or the one byte a conforming chip's open WRITE frame is at; or,
on a chip that does not conform, something to that chip alone. -/
theorem chipAnswer_bytes {d : Dev} {o i : Byte} {s t : State} (h : chipAnswer d o s = .ok (i, t)) :
    (∀ e x, t.byteAt e x = s.byteAt e x) ∨
    (∃ a j, s.devFrame.get d = .payload Config.opWrite a j ∧ s.Conforming d ∧
      ∀ e x, t.byteAt e x = (s.writeByteAt d (payloadAddr a j) o).byteAt e x) ∨
    (((∃ b2 b1, s.devFrame.get d = .k3 Config.opWrite b2 b1) ∨ ∃ a j, s.devFrame.get d = .payload Config.opWrite a j) ∧
      ¬ s.Conforming d ∧ ∀ e x, e ≠ d → t.byteAt e x = s.byteAt e x) := by
  have forget : ∀ (u : State) (e : Dev) (x : Nat), e ≠ d → (u.forgetChip d).byteAt e x = u.byteAt e x := by
    intro u e x he
    simp [State.byteAt, PerDev.get_set_ne _ _ he]
  rcases chipAnswer_ok h with ⟨-, h⟩ | ⟨_, -, h⟩ | ⟨_, _, -, h⟩ | ⟨op, b2, b1, hf, -, h⟩ | ⟨a, j, hf, -, h⟩
      | ⟨a, j, hf, -, h⟩
  · cases h; exact .inl fun _ _ => rfl
  · cases h; exact .inl fun _ _ => rfl
  · cases h; exact .inl fun _ _ => rfl
  · by_cases ho : op = Config.opWrite
    · rw [if_pos ho] at h
      subst ho
      unfold State.forgetUnlessConforming at h
      split at h <;> cases h
      · exact .inl fun _ _ => rfl
      · next hc => exact .inr (.inr ⟨.inl ⟨b2, b1, hf⟩, hc, fun e x he => forget s e x he⟩)
    · rw [if_neg ho] at h; cases h; exact .inl fun _ _ => rfl
  · unfold answerRead at h
    split at h <;> cases h
    · exact .inl fun _ _ => rfl
    · exact .inl fun _ _ => rfl
  · unfold answerWrite State.forgetUnlessConforming at h
    split at h <;> cases h
    · next hc => exact .inr (.inl ⟨a, j, hf, hc, fun _ _ => rfl⟩)
    · next hc =>
      refine .inr (.inr ⟨.inr ⟨a, j, hf⟩, hc, fun e x he => ?_⟩)
      exact (forget _ e x he).trans (State.byteAt_writeByteAt_ne s o (.inl he))

/-- A rest of a plan that answers a next state: its first step stopped, or returned and the rest answers it. -/
theorem drive_cons_next {i : Instr} {p : Plan} {k : Nat} {cap : List Byte} {x : PlanStep} {rest : Plan} {s t : State}
    (h : drive i p k cap (x :: rest) s = .next t) :
    (perform x.op s = .waiting ∧ t = hang i p k cap s) ∨
    (∃ u b, perform x.op s = .done u b ∧
      drive i p (k + 1) (capAfter x.after b cap) rest
        (u.setSlot (slotAfter x.after (capAfter x.after b cap) u.slot)) = .next t) := by
  cases hp : perform x.op s with
  | waiting => rw [drive_cons_waiting hp] at h; injection h with h; exact .inl ⟨rfl, h.symm⟩
  | refused r => rw [drive_cons_refused hp] at h; cases h
  | done u b => rw [drive_cons_done hp] at h; exact .inr ⟨u, b, rfl, h⟩

end Sys2Proof.Machine
end

