-- ==== Sys2Proof/Laws/Transactions.lean ====
section
/-! SUPPORT. Whole transactions (spec/41_protocol.md R111, R112) on a conforming chip with the bus live: what the
sequencer does with the plan of a read, and of a write, wherever the plan stands in a larger one. -/

namespace Sys2Proof.Machine

@[simp] theorem State.setSlot_self (s : State) : s.setSlot s.slot = s := rfl

@[simp] theorem capAfter_ignore (b : Option Byte) (cap : List Byte) : capAfter .ignore b cap = cap := rfl
@[simp] theorem capAfter_capture (b : Byte) (cap : List Byte) : capAfter .capture (some b) cap = cap ++ [b] := rfl
@[simp] theorem capAfter_none (x : OnReturn) (cap : List Byte) : capAfter x none cap = cap := by cases x <;> rfl
@[simp] theorem slotAfter_ignore (cap : List Byte) (x : Slot) : slotAfter .ignore cap x = x := rfl
@[simp] theorem slotAfter_capture (cap : List Byte) (x : Slot) : slotAfter .capture cap x = x := rfl
@[simp] theorem slotAfter_clean (cap : List Byte) (x : Slot) : slotAfter .clean cap x = x.markClean := rfl
@[simp] theorem slotAfter_load (a : Addr) (cap : List Byte) (x : Slot) :
    slotAfter (.load a) cap x = x.load a (cap.headD x.value) := rfl

/-- Chip `d` is selected, on an initialised board with the bus live, at frame position `f`. -/
structure State.Talking (s : State) (d : Dev) (f : Frame) : Prop where
  board : s.boardInit = true
  selected : s.cs = d.line
  live : s.bus = none
  frame : s.devFrame.get d = f

/-- The state after an exchange that left the frame at `f`, put `e` on the trace and used `n` draws. -/
def State.exchanged (s : State) (d : Dev) (f : Frame) (es : List BusEvent) (n : Nat) : State :=
  { s with devFrame := s.devFrame.set d f, trace := s.trace ++ es, draws := s.draws + n }

section
variable (s : State) (d : Dev) (f : Frame) (es : List BusEvent) (n : Nat)

@[simp] theorem State.exchanged_cfg : (s.exchanged d f es n).cfg = s.cfg := rfl
@[simp] theorem State.exchanged_slot : (s.exchanged d f es n).slot = s.slot := rfl
@[simp] theorem State.exchanged_cs : (s.exchanged d f es n).cs = s.cs := rfl
@[simp] theorem State.exchanged_seq : (s.exchanged d f es n).seq = s.seq := rfl
@[simp] theorem State.exchanged_devMem : (s.exchanged d f es n).devMem = s.devMem := rfl
@[simp] theorem State.exchanged_epoch : (s.exchanged d f es n).epoch = s.epoch := rfl
@[simp] theorem State.exchanged_devFrame : (s.exchanged d f es n).devFrame = s.devFrame.set d f := rfl
@[simp] theorem State.exchanged_trace : (s.exchanged d f es n).trace = s.trace ++ es := rfl
@[simp] theorem State.exchanged_nREAD : (s.exchanged d f es n).nREAD = s.nREAD := rfl
@[simp] theorem State.exchanged_nWRITE : (s.exchanged d f es n).nWRITE = s.nWRITE := rfl
@[simp] theorem State.exchanged_response : (s.exchanged d f es n).response = s.response := rfl
@[simp] theorem State.exchanged_boardInit : (s.exchanged d f es n).boardInit = s.boardInit := rfl
@[simp] theorem State.exchanged_bus : (s.exchanged d f es n).bus = s.bus := rfl
@[simp] theorem State.exchanged_conforms : (s.exchanged d f es n).conforms = s.conforms := rfl
@[simp] theorem State.exchanged_draws : (s.exchanged d f es n).draws = s.draws + n := rfl
@[simp] theorem State.exchanged_inputs : (s.exchanged d f es n).inputs = s.inputs := rfl

end

theorem State.exchanged_exchanged (s : State) (d : Dev) (f g : Frame) (es fs : List BusEvent) (m n : Nat) :
    (s.exchanged d f es m).exchanged d g fs n = s.exchanged d g (es ++ fs) (m + n) := by
  simp [State.exchanged, Nat.add_assoc]

theorem State.Talking.exchanged {s : State} {d : Dev} {f : Frame} (h : s.Talking d f) (g : Frame) (es : List BusEvent)
    (n : Nat) : (s.exchanged d g es n).Talking d g :=
  ⟨h.board, h.selected, h.live, by simp [State.exchanged]⟩

theorem State.spendExchange_live {s : State} (h : s.bus = none) : s.spendExchange = s := by
  cases s
  simp only at h
  subst h
  rfl

theorem storeBytes_exchanged (s : State) (d e : Dev) (f : Frame) (es : List BusEvent) (n a : Nat) (bs : List Byte) :
    (s.exchanged d f es n).storeBytes e a bs = (s.storeBytes e a bs).exchanged d f es n := by
  rw [State.storeBytes_of_devMem (t := s.exchanged d f es n) (u := s) rfl, State.storeBytes_eq s e a bs]
  rfl

/-- One exchange that the chip answers with a draw. -/
theorem drive_draw {i : Instr} {p : Plan} {k : Nat} {cap : List Byte} {rest : Plan} {s : State} {d : Dev} {f g : Frame}
    {o : Byte} (h : s.Talking d f) (ha : chipAnswer d o s = .ok (answerDraw d g s)) :
    drive i p k cap (⟨.exchange o, .ignore⟩ :: rest) s =
      drive i p (k + 1) cap rest (s.exchanged d g [.xchg o (Config.draw s.draws)] 1) := by
  have hp := perform_exchange (s1 := (s.spendDraws 1).setFrame d g) (i := s.nextDraw) h.board h.selected
    (by simp [h.live]) ha
  rw [drive_cons_done (by exact hp), State.spendExchange_live (by simpa using h.live)]
  simp only [capAfter_ignore, slotAfter_ignore, State.setSlot_self]
  rfl

theorem forgetUnlessConforming_exchanged (s : State) (d e : Dev) (f : Frame) (es : List BusEvent) (n : Nat) :
    (s.exchanged d f es n).forgetUnlessConforming e = (s.forgetUnlessConforming e).exchanged d f es n := by
  by_cases h : s.conforms.get e = true
  · simp [State.forgetUnlessConforming, h]
  · simp [State.forgetUnlessConforming, h]
    rfl

/-- What the end of a header does to chip `d`'s memory: nothing, but for a WRITE to a chip that does not conform. -/
def State.headerTaken (s : State) (d : Dev) (op : Byte) : State :=
  if op = Config.opWrite then s.forgetUnlessConforming d else s

theorem State.headerTaken_of_conforming {s : State} {d : Dev} (h : s.Conforming d) (op : Byte) : s.headerTaken d op = s := by
  unfold State.headerTaken
  rw [State.forgetUnlessConforming_of_conforming h]
  split <;> rfl

theorem State.headerTaken_read (s : State) (d : Dev) : s.headerTaken d Config.opRead = s := rfl

/-- The four header exchanges (R71, R111, R112), whatever the chip does. -/
theorem drive_header_any {i : Instr} {p : Plan} {k : Nat} {cap : List Byte} {rest : Plan} {s : State} {d : Dev} {op : Byte}
    {a : Addr} (h : s.Talking d .k0) (ha : s.InRange a) :
    drive i p k cap (exchanges (header op a) .ignore ++ rest) s =
      drive i p (k + 4) cap rest ((s.headerTaken d op).exchanged d (.payload op a 0) (headerEvents op a s.draws) 4) := by
  simp only [exchanges, header, List.map_cons, List.map_nil, List.cons_append, List.nil_append]
  rw [drive_draw h (g := .k1 op) (by simp [chipAnswer, h.frame])]
  have h1 := h.exchanged (.k1 op) [.xchg op (Config.draw s.draws)] 1
  rw [drive_draw h1 (g := .k2 op (addrB2 a)) (by rw [chipAnswer, h1.frame]), State.exchanged_exchanged]
  simp only [State.exchanged_draws]
  have h2 := h.exchanged (.k2 op (addrB2 a))
    ([.xchg op (Config.draw s.draws)] ++ [.xchg (addrB2 a) (Config.draw (s.draws + 1))]) 2
  rw [drive_draw h2 (g := .k3 op (addrB2 a) (addrB1 a)) (by rw [chipAnswer, h2.frame]), State.exchanged_exchanged]
  simp only [State.exchanged_draws]
  have h3 := h.exchanged (.k3 op (addrB2 a) (addrB1 a))
    ([.xchg op (Config.draw s.draws)] ++ [.xchg (addrB2 a) (Config.draw (s.draws + 1))] ++
      [.xchg (addrB1 a) (Config.draw (s.draws + 2))]) 3
  have hlt : ¬ s.cfg.memSize ≤ a.toNat := Nat.not_le_of_lt ha
  generalize hu : s.exchanged d (.k3 op (addrB2 a) (addrB1 a)) ([.xchg op (Config.draw s.draws)] ++
    [.xchg (addrB2 a) (Config.draw (s.draws + 1))] ++ [.xchg (addrB1 a) (Config.draw (s.draws + 2))]) 3 = u at h3 ⊢
  have hut : u.headerTaken d op = (s.headerTaken d op).exchanged d (.k3 op (addrB2 a) (addrB1 a))
      ([.xchg op (Config.draw s.draws)] ++ [.xchg (addrB2 a) (Config.draw (s.draws + 1))] ++
        [.xchg (addrB1 a) (Config.draw (s.draws + 2))]) 3 := by
    subst hu
    unfold State.headerTaken
    rw [forgetUnlessConforming_exchanged]
    split <;> rfl
  have hud : u.draws = s.draws + 3 := by subst hu; rfl
  have hhd : ∀ v : State, (v.headerTaken d op).draws = v.draws := by
    intro v
    unfold State.headerTaken State.forgetUnlessConforming
    split
    · split <;> rfl
    · rfl
  have hhb : (u.headerTaken d op).bus = none := by
    rw [← h3.live]
    unfold State.headerTaken State.forgetUnlessConforming
    split
    · split <;> rfl
    · rfl
  have ha4 : chipAnswer d (addrB0 a) u = .ok (answerDraw d (.payload op a 0) (u.headerTaken d op)) := by
    rw [chipAnswer, h3.frame]
    simp only [joinAddr_bytes, answerHeaderEnd, State.headerTaken]
    rw [if_neg (by subst hu; exact hlt)]
    split <;> rfl
  have hp := perform_exchange h3.board h3.selected (by simp [h3.live]) ha4
  rw [drive_cons_done (by exact hp)]
  simp only [capAfter_ignore, slotAfter_ignore, State.setSlot_self]
  rw [State.spendExchange_live (by simpa using hhb)]
  have hfin : (((u.headerTaken d op).spendDraws 1).setFrame d (.payload op a 0)).emit
      (.xchg (addrB0 a) (u.headerTaken d op).nextDraw) =
      (u.headerTaken d op).exchanged d (.payload op a 0) [.xchg (addrB0 a) (Config.draw (s.draws + 3))] 1 := by
    simp [State.nextDraw, hhd, hud, State.exchanged, State.emit, State.setFrame, State.spendDraws]
  rw [hfin, hut, State.exchanged_exchanged]
  rfl

/-- The four header exchanges on a conforming chip. -/
theorem drive_header {i : Instr} {p : Plan} {k : Nat} {cap : List Byte} {rest : Plan} {s : State} {d : Dev} {op : Byte}
    {a : Addr} (h : s.Talking d .k0) (hc : s.Conforming d) (ha : s.InRange a) :
    drive i p k cap (exchanges (header op a) .ignore ++ rest) s =
      drive i p (k + 4) cap rest (s.exchanged d (.payload op a 0) (headerEvents op a s.draws) 4) := by
  rw [drive_header_any h ha, State.headerTaken_of_conforming hc]

/-- A frame address the chip does not have is refused at the last header exchange (R49). -/
theorem drive_header_beyond {i : Instr} {p : Plan} {k : Nat} {cap : List Byte} {rest : Plan} {s : State} {d : Dev}
    {op : Byte} {a : Addr} (h : s.Talking d .k0) (ha : s.cfg.memSize ≤ a.toNat) :
    drive i p k cap (exchanges (header op a) .ignore ++ rest) s = .refused .addressBeyondDevice := by
  simp only [exchanges, header, List.map_cons, List.map_nil, List.cons_append, List.nil_append]
  rw [drive_draw h (g := .k1 op) (by simp [chipAnswer, h.frame])]
  have h1 := h.exchanged (.k1 op) [.xchg op (Config.draw s.draws)] 1
  rw [drive_draw h1 (g := .k2 op (addrB2 a)) (by rw [chipAnswer, h1.frame]), State.exchanged_exchanged]
  simp only [State.exchanged_draws]
  have h2 := h.exchanged (.k2 op (addrB2 a))
    ([.xchg op (Config.draw s.draws)] ++ [.xchg (addrB2 a) (Config.draw (s.draws + 1))]) 2
  rw [drive_draw h2 (g := .k3 op (addrB2 a) (addrB1 a)) (by rw [chipAnswer, h2.frame]), State.exchanged_exchanged]
  rw [drive_cons_refused]
  simp [perform, performExchange, h.board, h.selected, h.live, chipAnswer, answerHeaderEnd, ha]

/-- A payload exchange inside the chip leaves the chip talking, at the next byte. -/
theorem State.Talking.answerRead {s : State} {d : Dev} {a : Addr} {j : Nat}
    (h : s.Talking d (.payload Config.opRead a j)) : (answerRead d a j s).2.Talking d (.payload Config.opRead a (j + 1)) := by
  unfold Sys2Proof.Machine.answerRead
  split <;> exact ⟨h.board, h.selected, h.live, by simp⟩

theorem State.Talking.answerWrite {s : State} {d : Dev} {a : Addr} {j : Nat} (o : Byte)
    (h : s.Talking d (.payload Config.opWrite a j)) :
    (answerWrite d a j o s).2.Talking d (.payload Config.opWrite a (j + 1)) := by
  unfold Sys2Proof.Machine.answerWrite State.forgetUnlessConforming
  split <;> exact ⟨h.board, h.selected, h.live, by simp⟩

@[simp] theorem answerRead_cfg (d : Dev) (a : Addr) (j : Nat) (s : State) : (answerRead d a j s).2.cfg = s.cfg := by
  unfold answerRead
  split <;> rfl

@[simp] theorem answerWrite_cfg (d : Dev) (a : Addr) (j : Nat) (o : Byte) (s : State) :
    (answerWrite d a j o s).2.cfg = s.cfg := by
  unfold answerWrite State.forgetUnlessConforming
  split <;> rfl

/-- A READ payload that runs past the chip's end is refused (R51). -/
theorem drive_readPayload_beyond {i : Instr} {p : Plan} {k : Nat} {cap : List Byte} {rest : Plan} {s : State} {d : Dev}
    {a : Addr} {j : Nat} (n : Nat) (h : s.Talking d (.payload Config.opRead a j)) (ha : s.InRange a)
    (hr : s.cfg.memSize < a.toNat + j + n) (hle : a.toNat + j ≤ s.cfg.memSize) :
    drive i p k cap (exchanges (List.replicate n Config.filler) .capture ++ rest) s = .refused .rangeBeyondDevice := by
  have hin : a.toNat < s.cfg.memSize := ha
  induction n generalizing k cap s j with
  | zero => omega
  | succ n ih =>
    simp only [exchanges, List.replicate_succ, List.map_cons, List.cons_append]
    by_cases hlt : a.toNat + j < s.cfg.memSize
    · have hT := h.answerRead
      have hp := perform_exchange_pair h.board h.selected (by simp [h.live]) (chipAnswer_read_any Config.filler h.frame hlt)
      rw [drive_cons_done (by exact hp), State.spendExchange_live hT.live]
      simp only [capAfter_capture, slotAfter_capture, State.setSlot_self]
      exact ih (s := State.emit _ _) (j := j + 1) ⟨hT.board, hT.selected, hT.live, hT.frame⟩ (by simpa [State.InRange] using ha)
        (by simp; omega) (by simp; omega)
        (by simpa using hin)
    · have hj : j ≠ 0 := by omega
      exact drive_cons_refused (perform_exchange_refused h.board h.selected (by simp [h.live])
        ((chipAnswer_beyond _ h.frame (.inl rfl) (by simp only [payloadAddr]; omega)).trans (by rw [if_neg hj])))

/-- A WRITE payload that runs past the chip's end is refused (R51). -/
theorem drive_writePayload_beyond {i : Instr} {p : Plan} {k : Nat} {cap : List Byte} {rest : Plan} {s : State} {d : Dev}
    {a : Addr} {j : Nat} (bs : List Byte) (h : s.Talking d (.payload Config.opWrite a j)) (ha : s.InRange a)
    (hr : s.cfg.memSize < a.toNat + j + bs.length) (hle : a.toNat + j ≤ s.cfg.memSize) :
    drive i p k cap (exchanges bs .ignore ++ rest) s = .refused .rangeBeyondDevice := by
  have hin : a.toNat < s.cfg.memSize := ha
  induction bs generalizing k cap s j with
  | nil => simp only [List.length_nil] at hr; omega
  | cons b bs ih =>
    simp only [exchanges, List.map_cons, List.cons_append]
    simp only [List.length_cons] at hr
    by_cases hlt : a.toNat + j < s.cfg.memSize
    · have hT := h.answerWrite b
      have hp := perform_exchange_pair h.board h.selected (by simp [h.live]) (chipAnswer_write_any b h.frame hlt)
      rw [drive_cons_done (by exact hp), State.spendExchange_live hT.live]
      simp only [capAfter_ignore, slotAfter_ignore, State.setSlot_self]
      exact ih (s := State.emit _ _) (j := j + 1) ⟨hT.board, hT.selected, hT.live, hT.frame⟩ (by simpa [State.InRange] using ha)
        (by simp; omega) (by simp; omega)
        (by simpa using hin)
    · have hj : j ≠ 0 := by omega
      exact drive_cons_refused (perform_exchange_refused h.board h.selected (by simp [h.live])
        ((chipAnswer_beyond _ h.frame (.inr rfl) (by simp only [payloadAddr]; omega)).trans (by rw [if_neg hj])))

theorem State.chipBytes_congr {s t : State} (hm : t.devMem = s.devMem) (he : t.epoch = s.epoch) (d : Dev) (a n : Nat) :
    t.chipBytes d a n = s.chipBytes d a n := by
  induction n generalizing a with
  | zero => rfl
  | succ n ih => simp [State.chipBytes, ih, State.byteAt_congr hm he]

@[simp] theorem State.chipBytes_length (s : State) (d : Dev) (a n : Nat) : (s.chipBytes d a n).length = n := by
  induction n generalizing a with
  | zero => rfl
  | succ n ih => simp [State.chipBytes, ih]

theorem State.chipBytes_getElem (s : State) (d : Dev) (a n j : Nat) (h : j < (s.chipBytes d a n).length) :
    (s.chipBytes d a n)[j] = s.byteAt d (a + j) := by
  induction n generalizing a j with
  | zero => simp [State.chipBytes] at h
  | succ n ih =>
    cases j with
    | zero => simp [State.chipBytes]
    | succ j =>
      simp only [State.chipBytes, List.getElem_cons_succ]
      rw [ih, show a + 1 + j = a + (j + 1) by omega]

/-- The payload exchanges of a read: each captures the chip's next byte (R52, R111). -/
theorem drive_readPayload {i : Instr} {p : Plan} {k : Nat} {cap : List Byte} {rest : Plan} {s : State} {d : Dev}
    {a : Addr} {j : Nat} (n : Nat) (h : s.Talking d (.payload Config.opRead a j)) (hc : s.Conforming d)
    (hr : a.toNat + j + n ≤ s.cfg.memSize) :
    drive i p k cap (exchanges (List.replicate n Config.filler) .capture ++ rest) s =
      drive i p (k + n) (cap ++ s.chipBytes d (a.toNat + j) n) rest
        (s.exchanged d (.payload Config.opRead a (j + n)) ((s.chipBytes d (a.toNat + j) n).map (.xchg Config.filler)) 0) := by
  induction n generalizing k cap s j with
  | zero =>
    simp only [exchanges, List.replicate_zero, List.map_nil, List.nil_append, State.chipBytes, Nat.add_zero,
      List.append_nil]
    have : s.exchanged d (.payload Config.opRead a j) [] 0 = s := by
      simp [State.exchanged, ← h.frame, PerDev.set_get]
    rw [this]
  | succ n ih =>
    simp only [exchanges, List.replicate_succ, List.map_cons, List.cons_append]
    have ha := chipAnswer_read Config.filler h.frame (by simp only [payloadAddr]; omega) hc
    rw [show payloadAddr a j = a.toNat + j from rfl] at ha
    have hp := perform_exchange h.board h.selected (by simp [h.live]) ha
    rw [drive_cons_done (by exact hp), State.spendExchange_live (by simpa using h.live)]
    simp only [capAfter_capture, slotAfter_capture, State.setSlot_self]
    have hx : (s.setFrame d (.payload Config.opRead a (j + 1))).emit (.xchg Config.filler (s.byteAt d (a.toNat + j))) =
        s.exchanged d (.payload Config.opRead a (j + 1)) [.xchg Config.filler (s.byteAt d (a.toNat + j))] 0 := rfl
    rw [hx]
    have h1 := h.exchanged (.payload Config.opRead a (j + 1)) [.xchg Config.filler (s.byteAt d (a.toNat + j))] 0
    have := ih (k := k + 1) (cap := cap ++ [s.byteAt d (a.toNat + j)]) h1 hc
      (by simp only [State.exchanged]; omega)
    simp only [exchanges] at this
    rw [this, State.exchanged_exchanged]
    rw [State.chipBytes_congr (t := s.exchanged _ _ _ _) (s := s) rfl rfl]
    simp only [State.chipBytes, List.map_cons, List.append_assoc, List.cons_append, List.nil_append]
    rw [show k + 1 + n = k + (n + 1) by omega, show j + 1 + n = j + (n + 1) by omega,
      show a.toNat + (j + 1) = a.toNat + j + 1 by omega]

/-- The payload exchanges of a write: each stores its byte at the chip's next address (R53, R112). -/
theorem drive_writePayload {i : Instr} {p : Plan} {k : Nat} {cap : List Byte} {rest : Plan} {s : State} {d : Dev}
    {a : Addr} {j : Nat} (bs : List Byte) (h : s.Talking d (.payload Config.opWrite a j)) (hc : s.Conforming d)
    (hr : a.toNat + j + bs.length ≤ s.cfg.memSize) :
    drive i p k cap (exchanges bs .ignore ++ rest) s =
      drive i p (k + bs.length) cap rest
        ((s.storeBytes d (a.toNat + j) bs).exchanged d (.payload Config.opWrite a (j + bs.length))
          (dataEvents s.draws bs) bs.length) := by
  induction bs generalizing k s j with
  | nil =>
    simp only [exchanges, List.map_nil, List.nil_append, List.length_nil, Nat.add_zero, State.storeBytes, dataEvents]
    have : s.exchanged d (.payload Config.opWrite a j) [] 0 = s := by
      simp [State.exchanged, ← h.frame, PerDev.set_get]
    rw [this]
  | cons b bs ih =>
    simp only [exchanges, List.map_cons, List.cons_append]
    have hlen : (b :: bs).length = bs.length + 1 := rfl
    have ha := chipAnswer_write b h.frame (by simp only [payloadAddr]; omega) hc
    rw [show payloadAddr a j = a.toNat + j from rfl] at ha
    have hp := perform_exchange h.board h.selected (by simp [h.live]) ha
    rw [drive_cons_done (by exact hp), State.spendExchange_live (by simpa using h.live)]
    simp only [capAfter_ignore, slotAfter_ignore, State.setSlot_self]
    have hx : ((answerDraw d (.payload Config.opWrite a (j + 1)) (s.writeByteAt d (a.toNat + j) b)).2).emit
          (.xchg b (answerDraw d (.payload Config.opWrite a (j + 1)) (s.writeByteAt d (a.toNat + j) b)).1) =
        (s.writeByteAt d (a.toNat + j) b).exchanged d (.payload Config.opWrite a (j + 1))
          [.xchg b (Config.draw s.draws)] 1 := rfl
    have h0 : (s.writeByteAt d (a.toNat + j) b).Talking d (.payload Config.opWrite a j) :=
      ⟨h.board, h.selected, h.live, h.frame⟩
    have h1 := h0.exchanged (.payload Config.opWrite a (j + 1)) [.xchg b (Config.draw s.draws)] 1
    have := ih (k := k + 1) h1 hc (by simp only [State.exchanged, State.writeByteAt_cfg]; omega)
    simp only [exchanges] at this
    refine Eq.trans ?_ (this.trans ?_)
    · rfl
    · rw [storeBytes_exchanged, State.exchanged_exchanged]
      simp only [State.storeBytes, hlen, dataEvents, List.cons_append, List.nil_append]
      rw [show k + 1 + bs.length = k + (bs.length + 1) by omega,
        show j + 1 + bs.length = j + (bs.length + 1) by omega,
        show a.toNat + (j + 1) = a.toNat + j + 1 by omega, show 1 + bs.length = bs.length + 1 by omega]
      rfl

/-- The bytes a chip that does not conform returns, the draws from `m` on (R54 (c)). -/
def drawBytes (m n : Nat) : List Byte := (List.range n).map fun j => Config.draw (m + j)

@[simp] theorem drawBytes_length (m n : Nat) : (drawBytes m n).length = n := by simp [drawBytes]

theorem drawBytes_succ (m n : Nat) : drawBytes m (n + 1) = Config.draw m :: drawBytes (m + 1) n := by
  simp [drawBytes, List.range_succ_eq_map, Nat.add_comm, Nat.add_left_comm]

/-- The payload exchanges of a read from a chip that does not conform: each captures a draw (R54 (c), R114). -/
theorem drive_readPayload_faulty {i : Instr} {p : Plan} {k : Nat} {cap : List Byte} {rest : Plan} {s : State} {d : Dev}
    {a : Addr} {j : Nat} (n : Nat) (h : s.Talking d (.payload Config.opRead a j)) (hc : ¬ s.Conforming d)
    (hr : a.toNat + j + n ≤ s.cfg.memSize) :
    drive i p k cap (exchanges (List.replicate n Config.filler) .capture ++ rest) s =
      drive i p (k + n) (cap ++ drawBytes s.draws n) rest
        (s.exchanged d (.payload Config.opRead a (j + n)) ((drawBytes s.draws n).map (.xchg Config.filler)) n) := by
  induction n generalizing k cap s j with
  | zero =>
    have : s.exchanged d (.payload Config.opRead a j) [] 0 = s := by
      simp [State.exchanged, ← h.frame, PerDev.set_get]
    simp [exchanges, drawBytes, this]
  | succ n ih =>
    simp only [exchanges, List.replicate_succ, List.map_cons, List.cons_append]
    have ha := chipAnswer_read_any Config.filler h.frame (by simp only [payloadAddr]; omega)
    rw [answerRead, if_neg hc] at ha
    have hp := perform_exchange_pair h.board h.selected (by simp [h.live]) ha
    rw [drive_cons_done (by exact hp), State.spendExchange_live (by simpa using h.live)]
    simp only [capAfter_capture, slotAfter_capture, State.setSlot_self]
    have hx : ((answerDraw d (.payload Config.opRead a (j + 1)) s).2).emit
        (.xchg Config.filler (answerDraw d (.payload Config.opRead a (j + 1)) s).1) =
        s.exchanged d (.payload Config.opRead a (j + 1)) [.xchg Config.filler (Config.draw s.draws)] 1 := rfl
    have h1 := h.exchanged (.payload Config.opRead a (j + 1)) [.xchg Config.filler (Config.draw s.draws)] 1
    have := ih (k := k + 1) (cap := cap ++ [Config.draw s.draws]) h1 hc (by simp only [State.exchanged]; omega)
    simp only [exchanges] at this
    refine Eq.trans ?_ (this.trans ?_)
    · rfl
    · rw [State.exchanged_exchanged]
      simp only [drawBytes_succ, List.map_cons, List.append_assoc, List.cons_append, List.nil_append,
        State.exchanged_draws]
      rw [show k + 1 + n = k + (n + 1) by omega, show j + 1 + n = j + (n + 1) by omega,
        show 1 + n = n + 1 by omega]

theorem released_after_line (d : Dev) : ((0b000#3 ||| d.line) &&& ~~~d.line) = 0b000#3 := by cases d <;> decide

/-- A whole read transaction inside a plan (R111): the sequencer goes on in the state after the transaction. -/
theorem drive_readPlan {i : Instr} {p : Plan} {k : Nat} {cap : List Byte} {rest : Plan} {s : State} {d : Dev} {a : Addr}
    {n : Nat} {last : OnReturn} (hb : s.boardInit = true) (hcs : s.cs = 0b000#3) (hl : s.bus = none)
    (hc : s.Conforming d) (ha : s.InRange a) (hr : a.toNat + n ≤ s.cfg.memSize) :
    drive i p k cap (readPlan d a n last ++ rest) s =
      drive i p (k + (n + 6)) (cap ++ s.chipBytes d a.toNat n) rest
        ((s.afterRead d a n).setSlot (slotAfter last (cap ++ s.chipBytes d a.toNat n) s.slot)) := by
  simp only [readPlan, List.cons_append, List.append_assoc, List.nil_append]
  rw [drive_cons_done (by exact perform_select hb hcs)]
  simp only [capAfter_none, slotAfter_ignore, State.setSlot_self]
  have h0 : (((s.assertLine d).emit (.sel d)).setFrame d .k0).Talking d .k0 :=
    ⟨hb, by simp [hcs], hl, by simp⟩
  rw [drive_header h0 hc ha]
  simp only [State.setFrame_draws, State.emit_draws, State.assertLine_draws]
  have h1 := h0.exchanged (.payload Config.opRead a 0) (headerEvents Config.opRead a s.draws) 4
  rw [drive_readPayload n h1 hc (by simpa [State.exchanged] using hr), State.exchanged_exchanged]
  rw [State.chipBytes_congr (t := (((s.assertLine d).emit (.sel d)).setFrame d .k0).exchanged d
    (.payload Config.opRead a 0) (headerEvents Config.opRead a s.draws) 4) (s := s) rfl rfl]
  simp only [Nat.add_zero, Nat.zero_add]
  have h2 := h0.exchanged (.payload Config.opRead a n)
    (headerEvents Config.opRead a s.draws ++ (s.chipBytes d a.toNat n).map (.xchg Config.filler)) 4
  rw [drive_cons_done (by exact perform_deselect_read h2.board h2.selected h2.frame)]
  simp only [capAfter_none]
  have e : (endTransaction d ((((s.assertLine d).emit (.sel d)).setFrame d .k0).exchanged d (.payload Config.opRead a n)
      (headerEvents Config.opRead a s.draws ++ (s.chipBytes d a.toNat n).map (.xchg Config.filler)) 4)).countRead =
      s.afterRead d a n := by
    simp [endTransaction, State.exchanged, State.afterRead, readEvents, State.countRead, State.setFrame, State.emit,
      State.releaseLine, State.assertLine, hcs]
  rw [show k + 1 + 4 + n + 1 = k + (n + 6) by omega]
  rw [← e]
  rfl

/-- A whole write transaction inside a plan (R112). -/
theorem drive_writePlan {i : Instr} {p : Plan} {k : Nat} {cap : List Byte} {rest : Plan} {s : State} {d : Dev} {a : Addr}
    {data : List Byte} {last : OnReturn} (hb : s.boardInit = true) (hcs : s.cs = 0b000#3) (hl : s.bus = none)
    (hc : s.Conforming d) (ha : s.InRange a) (hr : a.toNat + data.length ≤ s.cfg.memSize) :
    drive i p k cap (writePlan d a data last ++ rest) s =
      drive i p (k + (data.length + 6)) cap rest
        ((s.afterWrite d a data).setSlot (slotAfter last cap s.slot)) := by
  simp only [writePlan, List.cons_append, List.append_assoc, List.nil_append]
  rw [drive_cons_done (by exact perform_select hb hcs)]
  simp only [capAfter_none, slotAfter_ignore, State.setSlot_self]
  have h0 : (((s.assertLine d).emit (.sel d)).setFrame d .k0).Talking d .k0 :=
    ⟨hb, by simp [hcs], hl, by simp⟩
  rw [drive_header h0 hc ha]
  simp only [State.setFrame_draws, State.emit_draws, State.assertLine_draws]
  have h1 := h0.exchanged (.payload Config.opWrite a 0) (headerEvents Config.opWrite a s.draws) 4
  rw [drive_writePayload data h1 hc (by simpa [State.exchanged] using hr)]
  simp only [Nat.add_zero, Nat.zero_add]
  have hst := State.storeBytes_of_devMem
    (t := (((s.assertLine d).emit (.sel d)).setFrame d .k0).exchanged d (.payload Config.opWrite a 0)
      (headerEvents Config.opWrite a s.draws) 4) (u := s) rfl d a.toNat data
  rw [hst]
  rw [drive_cons_done (by
    exact perform_deselect_write (a := a) (j := data.length) hb (by simp [hcs]) (by simp))]
  simp only [capAfter_none]
  rw [show k + 1 + 4 + data.length + 1 = k + (data.length + 6) by omega]
  have e : s.afterWrite d a data =
      { s with
        devMem := (s.storeBytes d a.toNat data).devMem
        devFrame := s.devFrame.set d .closed
        trace := s.trace ++ writeEvents d a s.draws data
        nWRITE := s.nWRITE + 1
        draws := s.draws + 4 + data.length } := by
    rw [State.afterWrite, State.storeBytes_eq]
  rw [e]
  congr 1
  simp [endTransaction, State.exchanged, writeEvents, State.countWrite, State.setFrame, State.emit,
      State.releaseLine, State.assertLine, State.setSlot, hcs, Nat.add_assoc]

/-! ## Transactions on a chip that does not conform, and transactions that are refused -/

theorem State.Ready.talking {s : State} (h : s.Ready) (d : Dev) :
    (((s.assertLine d).emit (.sel d)).setFrame d .k0).Talking d .k0 :=
  ⟨h.board, by simp [h.released], h.live, by simp⟩

/-- A whole read transaction on a chip that does not conform (R114): the bytes captured are draws. -/
theorem drive_readPlan_faulty {i : Instr} {p : Plan} {k : Nat} {cap : List Byte} {rest : Plan} {s : State} {d : Dev}
    {a : Addr} {n : Nat} {last : OnReturn} (h : s.Ready) (hc : ¬ s.Conforming d) (ha : s.InRange a)
    (hr : a.toNat + n ≤ s.cfg.memSize) :
    drive i p k cap (readPlan d a n last ++ rest) s =
      drive i p (k + (n + 6)) (cap ++ drawBytes (s.draws + 4) n) rest
        { s with
          devFrame := s.devFrame.set d .closed
          trace := s.trace ++ readEvents d a s.draws (drawBytes (s.draws + 4) n)
          nREAD := s.nREAD + 1
          draws := s.draws + 4 + n
          slot := slotAfter last (cap ++ drawBytes (s.draws + 4) n) s.slot } := by
  simp only [readPlan, List.cons_append, List.append_assoc, List.nil_append]
  rw [drive_cons_done (by exact perform_select h.board h.released)]
  simp only [capAfter_none, slotAfter_ignore, State.setSlot_self]
  have h0 := h.talking d
  rw [drive_header_any h0 ha, State.headerTaken_read]
  simp only [State.setFrame_draws, State.emit_draws, State.assertLine_draws]
  have h1 := h0.exchanged (.payload Config.opRead a 0) (headerEvents Config.opRead a s.draws) 4
  rw [drive_readPayload_faulty n h1 hc (by simpa [State.exchanged] using hr), State.exchanged_exchanged]
  simp only [Nat.zero_add, State.exchanged_draws, State.setFrame_draws, State.emit_draws, State.assertLine_draws]
  rw [drive_cons_done (by
    exact perform_deselect_read (a := a) (j := n) h.board (by simp [h.released]) (by simp))]
  simp only [capAfter_none]
  rw [show k + 1 + 4 + n + 1 = k + (n + 6) by omega]
  congr 1
  simp [endTransaction, State.exchanged, readEvents, State.countRead, State.setFrame, State.emit, State.releaseLine,
    State.assertLine, State.setSlot, h.released, Nat.add_assoc]

/-- A transaction at an address the chip does not have is refused (R49). -/
theorem drive_readPlan_beyond {i : Instr} {p : Plan} {k : Nat} {cap : List Byte} {rest : Plan} {s : State} {d : Dev}
    {a : Addr} {n : Nat} {last : OnReturn} (h : s.Ready) (ha : s.cfg.memSize ≤ a.toNat) :
    drive i p k cap (readPlan d a n last ++ rest) s = .refused .addressBeyondDevice := by
  simp only [readPlan, List.cons_append, List.append_assoc, List.nil_append]
  rw [drive_cons_done (by exact perform_select h.board h.released)]
  simp only [capAfter_none, slotAfter_ignore, State.setSlot_self]
  exact drive_header_beyond (h.talking d) ha

theorem drive_writePlan_beyond {i : Instr} {p : Plan} {k : Nat} {cap : List Byte} {rest : Plan} {s : State} {d : Dev}
    {a : Addr} {data : List Byte} {last : OnReturn} (h : s.Ready) (ha : s.cfg.memSize ≤ a.toNat) :
    drive i p k cap (writePlan d a data last ++ rest) s = .refused .addressBeyondDevice := by
  simp only [writePlan, List.cons_append, List.append_assoc, List.nil_append]
  rw [drive_cons_done (by exact perform_select h.board h.released)]
  simp only [capAfter_none, slotAfter_ignore, State.setSlot_self]
  exact drive_header_beyond (h.talking d) ha

/-- A read that runs past the chip's end is refused (R51). -/
theorem drive_readPlan_range {i : Instr} {p : Plan} {k : Nat} {cap : List Byte} {rest : Plan} {s : State} {d : Dev}
    {a : Addr} {n : Nat} {last : OnReturn} (h : s.Ready) (ha : s.InRange a) (hn : s.cfg.memSize < a.toNat + n) :
    drive i p k cap (readPlan d a n last ++ rest) s = .refused .rangeBeyondDevice := by
  simp only [readPlan, List.cons_append, List.append_assoc, List.nil_append]
  rw [drive_cons_done (by exact perform_select h.board h.released)]
  simp only [capAfter_none, slotAfter_ignore, State.setSlot_self]
  rw [drive_header_any (h.talking d) ha, State.headerTaken_read]
  exact drive_readPayload_beyond n ((h.talking d).exchanged _ _ _) ha hn (Nat.le_of_lt ha)

@[simp] theorem State.headerTaken_cfg (s : State) (d : Dev) (op : Byte) : (s.headerTaken d op).cfg = s.cfg := by
  unfold State.headerTaken State.forgetUnlessConforming
  split
  · split <;> rfl
  · rfl

theorem State.Talking.headerTaken {s : State} {d : Dev} {f : Frame} (h : s.Talking d f) (op : Byte) :
    (s.headerTaken d op).Talking d f := by
  unfold State.headerTaken State.forgetUnlessConforming
  split
  · split <;> exact ⟨h.board, h.selected, h.live, h.frame⟩
  · exact h

/-- A write that runs past the chip's end is refused (R51). -/
theorem drive_writePlan_range {i : Instr} {p : Plan} {k : Nat} {cap : List Byte} {rest : Plan} {s : State} {d : Dev}
    {a : Addr} {data : List Byte} {last : OnReturn} (h : s.Ready) (ha : s.InRange a)
    (hn : s.cfg.memSize < a.toNat + data.length) :
    drive i p k cap (writePlan d a data last ++ rest) s = .refused .rangeBeyondDevice := by
  simp only [writePlan, List.cons_append, List.append_assoc, List.nil_append]
  rw [drive_cons_done (by exact perform_select h.board h.released)]
  simp only [capAfter_none, slotAfter_ignore, State.setSlot_self]
  rw [drive_header_any (h.talking d) ha]
  exact drive_writePayload_beyond data (((h.talking d).headerTaken _).exchanged _ _ _)
    (by simpa [State.InRange] using ha) (by simpa using hn) (by simpa using Nat.le_of_lt ha)

/-! ## Writes to a chip that may not conform: all but the chip's own bytes is as on one that does -/

/-- `t` is `s` but for the contents of chip `d`: no other chip and no other field differs. -/
def State.SameButChip (d : Dev) (s t : State) : Prop :=
  ∃ m e, t = { s with devMem := m, epoch := e } ∧
    ∀ d', d' ≠ d → m.get d' = s.devMem.get d' ∧ e.get d' = s.epoch.get d'

theorem State.SameButChip.refl (d : Dev) (s : State) : s.SameButChip d s := ⟨s.devMem, s.epoch, rfl, fun _ _ => ⟨rfl, rfl⟩⟩

theorem State.SameButChip.trans {d : Dev} {s t u : State} (h : s.SameButChip d t) (h' : t.SameButChip d u) :
    s.SameButChip d u := by
  obtain ⟨m, e, rfl, h⟩ := h
  obtain ⟨m', e', rfl, h'⟩ := h'
  exact ⟨m', e', rfl, fun d' hd => ⟨(h' d' hd).1.trans (h d' hd).1, (h' d' hd).2.trans (h d' hd).2⟩⟩

theorem State.SameButChip.byteAt {d e : Dev} {s t : State} (h : s.SameButChip d t) (he : e ≠ d) (x : Nat) :
    t.byteAt e x = s.byteAt e x := by
  obtain ⟨m, n, rfl, h⟩ := h
  simp [State.byteAt, h e he]

theorem State.sameButChip_writeByteAt (s : State) (d : Dev) (a : Nat) (v : Byte) : s.SameButChip d (s.writeByteAt d a v) :=
  ⟨_, s.epoch, rfl, fun _ h => ⟨PerDev.get_set_ne _ _ h, rfl⟩⟩

theorem State.sameButChip_forget (s : State) (d : Dev) : s.SameButChip d (s.forgetUnlessConforming d) := by
  unfold State.forgetUnlessConforming
  split
  · exact .refl d s
  · exact ⟨_, _, rfl, fun _ h => ⟨PerDev.get_set_ne _ _ h, PerDev.get_set_ne _ _ h⟩⟩

theorem State.sameButChip_headerTaken (s : State) (d : Dev) (op : Byte) : s.SameButChip d (s.headerTaken d op) := by
  unfold State.headerTaken
  split
  · exact s.sameButChip_forget d
  · exact .refl d s

theorem State.SameButChip.exchanged {d : Dev} {s t : State} (h : s.SameButChip d t) (f : Frame) (es : List BusEvent)
    (n : Nat) : (s.exchanged d f es n).SameButChip d (t.exchanged d f es n) := by
  obtain ⟨m, e, rfl, h⟩ := h
  exact ⟨m, e, rfl, h⟩

theorem State.SameButChip.talking {d : Dev} {f : Frame} {s t : State} (h : s.SameButChip d t) (ht : s.Talking d f) :
    t.Talking d f := by
  obtain ⟨m, e, rfl, -⟩ := h
  exact ⟨ht.board, ht.selected, ht.live, ht.frame⟩

/-- The payload exchanges of a write, whatever the chip does with them: only its own bytes may differ (R53, D27). -/
theorem drive_writePayload_any {i : Instr} {p : Plan} {k : Nat} {cap : List Byte} {rest : Plan} {s : State} {d : Dev}
    {a : Addr} {j : Nat} (bs : List Byte) (h : s.Talking d (.payload Config.opWrite a j))
    (hr : a.toNat + j + bs.length ≤ s.cfg.memSize) :
    ∃ u, s.SameButChip d u ∧
      drive i p k cap (exchanges bs .ignore ++ rest) s =
        drive i p (k + bs.length) cap rest
          (u.exchanged d (.payload Config.opWrite a (j + bs.length)) (dataEvents s.draws bs) bs.length) := by
  induction bs generalizing k s j with
  | nil =>
    refine ⟨s, .refl d s, ?_⟩
    have : s.exchanged d (.payload Config.opWrite a j) [] 0 = s := by
      simp [State.exchanged, ← h.frame, PerDev.set_get]
    simp [exchanges, dataEvents, this]
  | cons b bs ih =>
    simp only [List.length_cons] at hr
    have hs := (s.sameButChip_writeByteAt d (payloadAddr a j) b).trans (State.sameButChip_forget _ d)
    generalize hv : (s.writeByteAt d (payloadAddr a j) b).forgetUnlessConforming d = v at hs
    have h1 := (hs.talking h).exchanged (.payload Config.opWrite a (j + 1)) [.xchg b (Config.draw s.draws)] 1
    have hvd : v.draws = s.draws ∧ v.cfg = s.cfg := by obtain ⟨m, e, rfl, -⟩ := hs; exact ⟨rfl, rfl⟩
    obtain ⟨u, hu, hdrive⟩ := ih (k := k + 1) h1 (by rw [State.exchanged_cfg, hvd.2]; omega)
    have hp := perform_exchange_pair h.board h.selected (by simp [h.live])
      (chipAnswer_write_any b h.frame (by simp only [payloadAddr]; omega))
    have hx : (answerWrite d a j b s).2.spendExchange.emit (.xchg b (answerWrite d a j b s).1) =
        v.exchanged d (.payload Config.opWrite a (j + 1)) [.xchg b (Config.draw s.draws)] 1 := by
      rw [State.spendExchange_live (h.answerWrite b).live]
      simp only [answerWrite, hv, answerDraw, State.nextDraw, hvd.1]
      rfl
    obtain ⟨m, e, rfl, hu⟩ := hu
    refine ⟨{ v with devMem := m, epoch := e }, hs.trans ⟨m, e, rfl, hu⟩, ?_⟩
    simp only [exchanges, List.map_cons, List.cons_append] at hdrive ⊢
    rw [drive_cons_done (by exact hp), hx]
    simp only [capAfter_ignore, slotAfter_ignore, State.setSlot_self]
    rw [hdrive]
    simp only [State.exchanged, PerDev.set_set, hvd.1, dataEvents, List.append_assoc, List.cons_append, List.nil_append,
      List.length_cons]
    rw [show k + 1 + bs.length = k + (bs.length + 1) by omega, show j + 1 + bs.length = j + (bs.length + 1) by omega,
      show s.draws + 1 + bs.length = s.draws + (bs.length + 1) by omega]

/-- A whole write transaction inside a plan, on a chip that conforms or not (R112, R155): the chip's own bytes `u` apart,
it ends alike. -/
theorem drive_writePlan_any {i : Instr} {p : Plan} {k : Nat} {cap : List Byte} {rest : Plan} {s : State} {d : Dev} {a : Addr}
    {data : List Byte} {last : OnReturn} (h : s.Ready) (ha : s.InRange a) (hr : a.toNat + data.length ≤ s.cfg.memSize) :
    ∃ u, s.SameButChip d u ∧
      drive i p k cap (writePlan d a data last ++ rest) s =
        drive i p (k + (data.length + 6)) cap rest
          { u with
            devFrame := s.devFrame.set d .closed
            trace := s.trace ++ writeEvents d a s.draws data
            nWRITE := s.nWRITE + 1
            draws := s.draws + 4 + data.length
            slot := slotAfter last cap s.slot } := by
  have h0 := h.talking d
  have hH := State.sameButChip_headerTaken (((s.assertLine d).emit (.sel d)).setFrame d .k0) d Config.opWrite
  have h1 := (hH.exchanged (.payload Config.opWrite a 0) (headerEvents Config.opWrite a s.draws) 4).talking
    (h0.exchanged _ _ _)
  have hd1 := drive_header_any (i := i) (p := p) (k := k + 1) (cap := cap) (op := Config.opWrite)
    (rest := exchanges data .ignore ++ (⟨.deselect d, last⟩ :: rest)) h0 ha
  obtain ⟨m, e, hm, hH'⟩ := hH
  rw [hm] at h1 hd1
  obtain ⟨u, ⟨m', e', rfl, hu⟩, hd2⟩ := drive_writePayload_any (i := i) (p := p) (k := k + 1 + 4) (cap := cap)
    (rest := ⟨.deselect d, last⟩ :: rest) data h1 (by simpa using hr)
  refine ⟨{ s with devMem := m', epoch := e' }, ⟨m', e', rfl, fun d' hd => ?_⟩, ?_⟩
  · exact ⟨(hu d' hd).1.trans (hH' d' hd).1, (hu d' hd).2.trans (hH' d' hd).2⟩
  simp only [writePlan, List.cons_append, List.append_assoc, List.nil_append]
  rw [drive_cons_done (by exact perform_select h.board h.released)]
  simp only [capAfter_none, slotAfter_ignore, State.setSlot_self]
  refine hd1.trans (hd2.trans ?_)
  rw [drive_cons_done (by
    exact perform_deselect_write (a := a) (j := 0 + data.length) h.board (by simp [h.released]) (by simp))]
  simp only [capAfter_none]
  rw [show k + 1 + 4 + data.length + 1 = k + (data.length + 6) by omega]
  congr 1
  simp [endTransaction, State.exchanged, writeEvents, State.countWrite, State.setFrame, State.emit, State.releaseLine,
    State.assertLine, State.setSlot, h.released, Nat.add_assoc]

end Sys2Proof.Machine
end

