-- ==== Sys2Proof/Laws/Store.lean ====
section
/-! SUPPORT. The plans of the Cached Store on a conforming chip with the bus live: a write-back, a load, a miss and an
access, each as the state it leaves (spec/42_cached_store.md R126, R131). -/

namespace Sys2Proof.Machine

section
variable (s : State) (d : Dev) (a : Addr) (n : Nat)

@[simp] theorem State.afterRead_cfg : (s.afterRead d a n).cfg = s.cfg := rfl
@[simp] theorem State.afterRead_slot : (s.afterRead d a n).slot = s.slot := rfl
@[simp] theorem State.afterRead_cs : (s.afterRead d a n).cs = s.cs := rfl
@[simp] theorem State.afterRead_seq : (s.afterRead d a n).seq = s.seq := rfl
@[simp] theorem State.afterRead_devMem : (s.afterRead d a n).devMem = s.devMem := rfl
@[simp] theorem State.afterRead_epoch : (s.afterRead d a n).epoch = s.epoch := rfl
@[simp] theorem State.afterRead_devFrame : (s.afterRead d a n).devFrame = s.devFrame.set d .closed := rfl
@[simp] theorem State.afterRead_trace :
    (s.afterRead d a n).trace = s.trace ++ readEvents d a s.draws (s.chipBytes d a.toNat n) := rfl
@[simp] theorem State.afterRead_nREAD : (s.afterRead d a n).nREAD = s.nREAD + 1 := rfl
@[simp] theorem State.afterRead_nWRITE : (s.afterRead d a n).nWRITE = s.nWRITE := rfl
@[simp] theorem State.afterRead_response : (s.afterRead d a n).response = s.response := rfl
@[simp] theorem State.afterRead_boardInit : (s.afterRead d a n).boardInit = s.boardInit := rfl
@[simp] theorem State.afterRead_bus : (s.afterRead d a n).bus = s.bus := rfl
@[simp] theorem State.afterRead_conforms : (s.afterRead d a n).conforms = s.conforms := rfl
@[simp] theorem State.afterRead_draws : (s.afterRead d a n).draws = s.draws + 4 := rfl
@[simp] theorem State.afterRead_inputs : (s.afterRead d a n).inputs = s.inputs := rfl
@[simp] theorem State.byteAt_afterRead (e : Dev) (x : Nat) : (s.afterRead d a n).byteAt e x = s.byteAt e x := rfl

end

section
variable (s : State) (d : Dev) (a : Addr) (data : List Byte)

/-- The WRITE transaction with the payload's effect on the chips' memory as its one computed part. -/
theorem State.afterWrite_eq : s.afterWrite d a data =
    { s with
      devMem := (s.storeBytes d a.toNat data).devMem
      devFrame := s.devFrame.set d .closed
      trace := s.trace ++ writeEvents d a s.draws data
      nWRITE := s.nWRITE + 1
      draws := s.draws + 4 + data.length } := by
  rw [State.afterWrite, State.storeBytes_eq]

@[simp] theorem State.afterWrite_cfg : (s.afterWrite d a data).cfg = s.cfg := by rw [State.afterWrite_eq]
@[simp] theorem State.afterWrite_slot : (s.afterWrite d a data).slot = s.slot := by rw [State.afterWrite_eq]
@[simp] theorem State.afterWrite_cs : (s.afterWrite d a data).cs = s.cs := by rw [State.afterWrite_eq]
@[simp] theorem State.afterWrite_seq : (s.afterWrite d a data).seq = s.seq := by rw [State.afterWrite_eq]
@[simp] theorem State.afterWrite_epoch : (s.afterWrite d a data).epoch = s.epoch := by rw [State.afterWrite_eq]
@[simp] theorem State.afterWrite_devFrame : (s.afterWrite d a data).devFrame = s.devFrame.set d .closed := rfl
@[simp] theorem State.afterWrite_trace : (s.afterWrite d a data).trace = s.trace ++ writeEvents d a s.draws data := rfl
@[simp] theorem State.afterWrite_nREAD : (s.afterWrite d a data).nREAD = s.nREAD := by rw [State.afterWrite_eq]
@[simp] theorem State.afterWrite_nWRITE : (s.afterWrite d a data).nWRITE = s.nWRITE + 1 := rfl
@[simp] theorem State.afterWrite_response : (s.afterWrite d a data).response = s.response := by rw [State.afterWrite_eq]
@[simp] theorem State.afterWrite_boardInit : (s.afterWrite d a data).boardInit = s.boardInit := by rw [State.afterWrite_eq]
@[simp] theorem State.afterWrite_bus : (s.afterWrite d a data).bus = s.bus := by rw [State.afterWrite_eq]
@[simp] theorem State.afterWrite_conforms : (s.afterWrite d a data).conforms = s.conforms := by rw [State.afterWrite_eq]
@[simp] theorem State.afterWrite_draws : (s.afterWrite d a data).draws = s.draws + 4 + data.length := rfl
@[simp] theorem State.afterWrite_inputs : (s.afterWrite d a data).inputs = s.inputs := by rw [State.afterWrite_eq]

/-- After a WRITE the chip holds what storing the payload leaves. -/
theorem State.byteAt_afterWrite (e : Dev) (x : Nat) :
    (s.afterWrite d a data).byteAt e x = (s.storeBytes d a.toNat data).byteAt e x :=
  State.byteAt_congr rfl rfl e x

end

section
variable (s : State)

@[simp] theorem State.afterWriteBack_cfg : s.afterWriteBack.cfg = s.cfg := by simp [State.afterWriteBack]
@[simp] theorem State.afterWriteBack_slot : s.afterWriteBack.slot = { s.slot with dirty := false } := rfl
@[simp] theorem State.afterWriteBack_cs : s.afterWriteBack.cs = s.cs := by simp [State.afterWriteBack]
@[simp] theorem State.afterWriteBack_seq : s.afterWriteBack.seq = s.seq := by simp [State.afterWriteBack]
@[simp] theorem State.afterWriteBack_trace : s.afterWriteBack.trace =
    s.trace ++ writeEvents s.cfg.devSel s.slot.tag s.draws [s.slot.value] := rfl
@[simp] theorem State.afterWriteBack_nREAD : s.afterWriteBack.nREAD = s.nREAD := by simp [State.afterWriteBack]
@[simp] theorem State.afterWriteBack_nWRITE : s.afterWriteBack.nWRITE = s.nWRITE + 1 := rfl
@[simp] theorem State.afterWriteBack_boardInit : s.afterWriteBack.boardInit = s.boardInit := by simp [State.afterWriteBack]
@[simp] theorem State.afterWriteBack_bus : s.afterWriteBack.bus = s.bus := by simp [State.afterWriteBack]
@[simp] theorem State.afterWriteBack_conforms : s.afterWriteBack.conforms = s.conforms := by simp [State.afterWriteBack]
@[simp] theorem State.afterWriteBack_draws : s.afterWriteBack.draws = s.draws + 5 := rfl
@[simp] theorem State.afterWriteBack_inputs : s.afterWriteBack.inputs = s.inputs := by simp [State.afterWriteBack]

/-- A write-back changes one byte of one chip: the slot's own address holds the slot's byte. -/
theorem State.byteAt_afterWriteBack (e : Dev) (x : Nat) : s.afterWriteBack.byteAt e x =
    if e = s.cfg.devSel ∧ x = s.slot.tag.toNat then s.slot.value else s.byteAt e x := by
  have h : s.afterWriteBack.byteAt e x = (s.writeByteAt s.cfg.devSel s.slot.tag.toNat s.slot.value).byteAt e x :=
    State.byteAt_congr rfl rfl e x
  rw [h]
  split
  · next he => obtain ⟨rfl, rfl⟩ := he; simp
  · next he => exact State.byteAt_writeByteAt_ne _ _ (by tauto)

end

section
variable (s : State) (a : Addr)

@[simp] theorem State.afterLoad_cfg : (s.afterLoad a).cfg = s.cfg := rfl
@[simp] theorem State.afterLoad_slot : (s.afterLoad a).slot =
    { valid := true, tag := a, value := s.byteAt s.cfg.devSel a.toNat, dirty := false } := rfl
@[simp] theorem State.afterLoad_cs : (s.afterLoad a).cs = s.cs := rfl
@[simp] theorem State.afterLoad_seq : (s.afterLoad a).seq = s.seq := rfl
@[simp] theorem State.afterLoad_trace : (s.afterLoad a).trace =
    s.trace ++ readEvents s.cfg.devSel a s.draws [s.byteAt s.cfg.devSel a.toNat] := rfl
@[simp] theorem State.afterLoad_nREAD : (s.afterLoad a).nREAD = s.nREAD + 1 := rfl
@[simp] theorem State.afterLoad_nWRITE : (s.afterLoad a).nWRITE = s.nWRITE := rfl
@[simp] theorem State.afterLoad_boardInit : (s.afterLoad a).boardInit = s.boardInit := rfl
@[simp] theorem State.afterLoad_bus : (s.afterLoad a).bus = s.bus := rfl
@[simp] theorem State.afterLoad_conforms : (s.afterLoad a).conforms = s.conforms := rfl
@[simp] theorem State.afterLoad_draws : (s.afterLoad a).draws = s.draws + 4 := rfl
@[simp] theorem State.afterLoad_inputs : (s.afterLoad a).inputs = s.inputs := rfl
@[simp] theorem State.byteAt_afterLoad (e : Dev) (x : Nat) : (s.afterLoad a).byteAt e x = s.byteAt e x := rfl

end

/-- `T_W(tag, value)`, then `dirty <- 0`, inside a plan (R131). -/
theorem drive_writeBackPlan {i : Instr} {p : Plan} {k : Nat} {cap : List Byte} {rest : Plan} {s : State} (h : s.Ready)
    (hc : s.Conforming s.cfg.devSel) (ht : s.InRange s.slot.tag) :
    drive i p k cap (writeBackPlan s ++ rest) s = drive i p (k + 7) cap rest s.afterWriteBack := by
  rw [writeBackPlan, drive_writePlan h.board h.released h.live hc ht (by simpa using ht)]
  rfl

/-- `T_R(a)`, then the load into the slot, inside a plan (R131). -/
theorem drive_loadPlan {i : Instr} {p : Plan} {k : Nat} {rest : Plan} {s : State} {a : Addr} (h : s.Ready)
    (hc : s.Conforming s.cfg.devSel) (ha : s.InRange a) :
    drive i p k [] (readPlan s.cfg.devSel a 1 (.load a) ++ rest) s =
      drive i p (k + 7) [s.byteAt s.cfg.devSel a.toNat] rest (s.afterLoad a) := by
  rw [drive_readPlan h.board h.released h.live hc ha ha]
  rfl

/-- A write-back leaves the premises as they were. -/
theorem State.Ready.afterWriteBack {s : State} (h : s.Ready) : s.afterWriteBack.Ready :=
  ⟨by simpa using h.board, by simpa using h.idle, by simpa using h.released, by simpa using h.live⟩

/-- A load leaves the premises as they were. -/
theorem State.Ready.afterLoad {s : State} (h : s.Ready) (a : Addr) : (s.afterLoad a).Ready :=
  ⟨h.board, h.idle, h.released, h.live⟩

/-- MISS(a) inside a plan (R126). The last byte captured is the one loaded. -/
theorem drive_missPlan {i : Instr} {p : Plan} {k : Nat} {s : State} {a : Addr} (h : s.Ready)
    (hc : s.Conforming s.cfg.devSel) (ha : s.InRange a) (ht : s.DirtyInRange) :
    ∃ cap, drive i p k [] (missPlan a s) s = .next (complete i cap (s.afterMiss a)) := by
  unfold missPlan State.afterMiss Slot.mustEvict
  by_cases hd : s.slot.valid = true ∧ s.slot.dirty = true
  · rw [if_pos hd, if_pos (by simp [hd.1, hd.2])]
    have hr := drive_writeBackPlan (i := i) (p := p) (k := k) (cap := [])
      (rest := readPlan s.cfg.devSel a 1 (.load a)) h hc (ht hd.2)
    have hl := drive_loadPlan (i := i) (p := p) (k := k + 7) (rest := []) (a := a) h.afterWriteBack
      (by simpa [State.Conforming] using hc)
      (by simpa [State.InRange] using ha)
    rw [List.append_nil, State.afterWriteBack_cfg] at hl
    exact ⟨_, hr.trans hl⟩
  · rw [if_neg hd, if_neg (by simpa using hd)]
    have hl := drive_loadPlan (i := i) (p := p) (k := k) (rest := []) (a := a) h hc ha
    rw [List.append_nil] at hl
    exact ⟨_, (congrArg (drive i p k [] · s) (List.nil_append _)).trans hl⟩

/-- The three ways of an access: a hit, a miss that writes back, a miss that does not (R131, R132). -/
theorem afterAccess_cases (s : State) (a : Addr) :
    (s.slot.hit a = true ∧ s.afterAccess a = s) ∨
    (s.slot.hit a = false ∧ s.slot.mustEvict = true ∧ s.afterAccess a = s.afterWriteBack.afterLoad a) ∨
    (s.slot.hit a = false ∧ s.slot.mustEvict = false ∧ s.afterAccess a = s.afterLoad a) := by
  unfold State.afterAccess State.afterMiss Slot.hit Slot.mustEvict
  by_cases hv : s.slot.valid = true <;> by_cases ht : s.slot.tag = a <;> by_cases hd : s.slot.dirty = true <;> simp_all

/-- The access step of READ_BYTE and WRITE_BYTE inside a plan (R127, R128). -/
theorem drive_accessPlan {i : Instr} {p : Plan} {k : Nat} {s : State} {a : Addr} (h : s.Ready)
    (hc : s.Conforming s.cfg.devSel) (ha : s.InRange a) (ht : s.DirtyInRange) :
    ∃ cap, drive i p k [] (accessPlan a s) s = .next (complete i cap (s.afterAccess a)) := by
  unfold accessPlan State.afterAccess
  by_cases hh : s.slot.valid = true ∧ s.slot.tag = a
  · rw [if_pos hh, if_pos (by simp [Slot.hit, hh])]
    exact ⟨_, rfl⟩
  · rw [if_neg hh, if_neg (by simpa [Slot.hit] using hh)]
    exact drive_missPlan h hc ha ht

end Sys2Proof.Machine
end

