-- ==== Sys2Proof/Laws/Hang.lean ====
section
/-! SUPPORT. The sequencer on a bus that completes only so many exchanges (spec/60_exceptions.md R154): where inside a
transaction an operation stops, and what it has done by then. -/

namespace Sys2Proof.Machine

/-- `s` on a bus that completes `n` exchanges and no more. -/
def State.granting (s : State) (n : Nat) : State := { s with bus := some n }

section
variable (s : State) (n : Nat)

@[simp] theorem State.granting_cfg : (s.granting n).cfg = s.cfg := rfl
@[simp] theorem State.granting_slot : (s.granting n).slot = s.slot := rfl
@[simp] theorem State.granting_cs : (s.granting n).cs = s.cs := rfl
@[simp] theorem State.granting_seq : (s.granting n).seq = s.seq := rfl
@[simp] theorem State.granting_devMem : (s.granting n).devMem = s.devMem := rfl
@[simp] theorem State.granting_epoch : (s.granting n).epoch = s.epoch := rfl
@[simp] theorem State.granting_devFrame : (s.granting n).devFrame = s.devFrame := rfl
@[simp] theorem State.granting_trace : (s.granting n).trace = s.trace := rfl
@[simp] theorem State.granting_nREAD : (s.granting n).nREAD = s.nREAD := rfl
@[simp] theorem State.granting_nWRITE : (s.granting n).nWRITE = s.nWRITE := rfl
@[simp] theorem State.granting_response : (s.granting n).response = s.response := rfl
@[simp] theorem State.granting_boardInit : (s.granting n).boardInit = s.boardInit := rfl
@[simp] theorem State.granting_bus : (s.granting n).bus = some n := rfl
@[simp] theorem State.granting_conforms : (s.granting n).conforms = s.conforms := rfl
@[simp] theorem State.granting_draws : (s.granting n).draws = s.draws := rfl
@[simp] theorem State.granting_inputs : (s.granting n).inputs = s.inputs := rfl
@[simp] theorem State.byteAt_granting (d : Dev) (a : Nat) : (s.granting n).byteAt d a = s.byteAt d a := rfl

end

theorem State.granting_of_bus {s : State} {n : Nat} (h : s.bus = some n) : s.granting n = s := by
  cases s
  simp only at h
  subst h
  rfl

/-- Chip `d` is selected, on an initialised board, at frame position `f`; the bus may be anything. -/
structure State.Reached (s : State) (d : Dev) (f : Frame) : Prop where
  board : s.boardInit = true
  selected : s.cs = d.line
  frame : s.devFrame.get d = f

theorem State.Reached.granting {s : State} {d : Dev} {f : Frame} (h : s.Reached d f) (n : Nat) :
    (s.granting n).Reached d f := ⟨h.board, h.selected, h.frame⟩

theorem State.Reached.exchanged {s : State} {d : Dev} {f : Frame} (h : s.Reached d f) (g : Frame) (es : List BusEvent)
    (n : Nat) : (s.exchanged d g es n).Reached d g := ⟨h.board, h.selected, by simp⟩

theorem State.SameButChip.reached {d : Dev} {f : Frame} {s t : State} (h : s.SameButChip d t) (hr : s.Reached d f) :
    t.Reached d f := by
  obtain ⟨m, e, rfl, -⟩ := h
  exact ⟨hr.board, hr.selected, hr.frame⟩

/-- An exchange that the bus does not complete stops the operation there. -/
theorem drive_waits {i : Instr} {p : Plan} {k : Nat} {cap : List Byte} {rest : Plan} {s : State} {d : Dev} {f : Frame}
    {o : Byte} {after : OnReturn} (h : s.Reached d f) (hl : s.bus = some 0) :
    drive i p k cap (⟨.exchange o, after⟩ :: rest) s = .next (hang i p k cap s) :=
  drive_cons_waiting (by simp [perform, performExchange, h.board, h.selected, hl])

/-- One granted exchange that the chip, its own bytes now those of `v`, answers with a draw. -/
theorem drive_draw_granted {i : Instr} {p : Plan} {k n : Nat} {cap : List Byte} {rest : Plan} {s v : State} {d : Dev}
    {f g : Frame} {o : Byte} (h : s.Reached d f) (hv : s.SameButChip d v)
    (ha : chipAnswer d o (s.granting (n + 1)) = .ok (answerDraw d g (v.granting (n + 1)))) :
    drive i p k cap (⟨.exchange o, .ignore⟩ :: rest) (s.granting (n + 1)) =
      drive i p (k + 1) cap rest ((v.exchanged d g [.xchg o (Config.draw s.draws)] 1).granting n) := by
  have hp := perform_exchange_pair (s := s.granting (n + 1)) h.board h.selected (by simp) ha
  rw [drive_cons_done (by exact hp)]
  obtain ⟨m, e, rfl, -⟩ := hv
  simp only [capAfter_ignore, slotAfter_ignore, State.setSlot_self]
  rfl

/-- Which bytes of the chip differ when `n` exchanges of the header have been taken: none, but after a whole WRITE header
on a chip that does not conform. -/
def State.headerCut (s : State) (d : Dev) (op : Byte) (n : Nat) : State := if n = 4 then s.headerTaken d op else s

theorem State.exchanged_frame {s : State} {d : Dev} {f : Frame} (h : s.devFrame.get d = f) : s.exchanged d f [] 0 = s := by
  simp [State.exchanged, ← h, PerDev.set_get]

/-- The first `m` exchanges of a header, granted (R71, R154). -/
theorem drive_header_granted {i : Instr} {p : Plan} {k m : Nat} (n : Nat) {cap : List Byte} {rest : Plan} {s : State}
    {d : Dev} {op : Byte} {a : Addr} (hm : m ≤ 4) (h : s.Reached d .k0) (ha : s.InRange a) :
    ∃ f, (m = 4 → f = .payload op a 0) ∧
      drive i p k cap (exchanges (header op a) .ignore ++ rest) (s.granting (n + m)) =
        drive i p (k + m) cap (exchanges ((header op a).drop m) .ignore ++ rest)
          (((s.headerCut d op m).exchanged d f ((headerEvents op a s.draws).take m) m).granting n) := by
  have step1 (l : Nat) := drive_draw_granted (i := i) (p := p) (k := k) (n := l) (cap := cap) (o := op) (g := .k1 op)
    (rest := exchanges ((header op a).drop 1) .ignore ++ rest) h (.refl d s) (by simp [chipAnswer, h.frame])
  have h1 := h.exchanged (.k1 op) [.xchg op (Config.draw s.draws)] 1
  have step2 (l : Nat) := drive_draw_granted (i := i) (p := p) (k := k + 1) (n := l) (cap := cap) (o := addrB2 a)
    (g := .k2 op (addrB2 a)) (rest := exchanges ((header op a).drop 2) .ignore ++ rest) h1 (.refl d _)
    (by simp [chipAnswer])
  simp only [State.exchanged_exchanged, State.exchanged_draws, List.cons_append, List.nil_append] at step2
  have h2 := h.exchanged (.k2 op (addrB2 a)) ((headerEvents op a s.draws).take 2) 2
  have step3 (l : Nat) := drive_draw_granted (i := i) (p := p) (k := k + 2) (n := l) (cap := cap) (o := addrB1 a)
    (g := .k3 op (addrB2 a) (addrB1 a)) (rest := exchanges ((header op a).drop 3) .ignore ++ rest) h2 (.refl d _)
    (by simp [chipAnswer])
  simp only [State.exchanged_exchanged, State.exchanged_draws] at step3
  have h3 := h.exchanged (.k3 op (addrB2 a) (addrB1 a)) ((headerEvents op a s.draws).take 3) 3
  have step4 (l : Nat) := drive_draw_granted (i := i) (p := p) (k := k + 3) (n := l) (cap := cap) (o := addrB0 a)
    (g := .payload op a 0) (rest := exchanges ((header op a).drop 4) .ignore ++ rest)
    (v := (s.headerTaken d op).exchanged d (.k3 op (addrB2 a) (addrB1 a)) ((headerEvents op a s.draws).take 3) 3) h3
    ((s.sameButChip_headerTaken d op).exchanged _ _ _) (by
      simp only [chipAnswer, State.granting_devFrame, State.exchanged_devFrame, PerDev.get_set_same, joinAddr_bytes,
        answerHeaderEnd, State.granting_cfg, State.exchanged_cfg, if_neg (Nat.not_le_of_lt ha), State.headerTaken,
        State.forgetUnlessConforming]
      split <;> [split; skip] <;> simp_all
      rfl)
  simp only [State.exchanged_exchanged, State.exchanged_draws] at step4
  interval_cases m
  · exact ⟨.k0, by simp, by rw [show s.headerCut d op 0 = s from rfl, List.take_zero, State.exchanged_frame h.frame]; rfl⟩
  · exact ⟨_, by simp, step1 n⟩
  · exact ⟨_, by simp, (step1 (n + 1)).trans (step2 n)⟩
  · exact ⟨_, by simp, (step1 (n + 2)).trans ((step2 (n + 1)).trans (step3 n))⟩
  · exact ⟨_, fun _ => rfl, (step1 (n + 3)).trans ((step2 (n + 2)).trans ((step3 (n + 1)).trans (step4 n)))⟩

theorem State.headerCut_of_conforming {s : State} {d : Dev} (h : s.Conforming d) (op : Byte) (m : Nat) :
    s.headerCut d op m = s := by
  unfold State.headerCut
  split
  · exact State.headerTaken_of_conforming h op
  · rfl

theorem State.sameButChip_headerCut (s : State) (d : Dev) (op : Byte) (m : Nat) : s.SameButChip d (s.headerCut d op m) := by
  unfold State.headerCut
  split
  · exact s.sameButChip_headerTaken d op
  · exact .refl d s

/-- The state of an operation stopped `m` exchanges into a transaction with chip `d` whose header is `header op a`: the
line asserted, the chip at frame position `f`, no other field but the trace, the draws and the bus touched. -/
def State.stoppedIn (s : State) (d : Dev) (op : Byte) (a : Addr) (m : Nat) (f : Frame) : State :=
  { s.headerCut d op m with
    cs := d.line
    devFrame := s.devFrame.set d f
    trace := s.trace ++ .sel d :: (headerEvents op a s.draws).take m
    draws := s.draws + m
    bus := some 0 }

/-- A bus that completes `m < 5` exchanges stops a transaction at its exchange `m`, whichever it is (R154). -/
theorem drive_transaction_stops {i : Instr} {p : Plan} {k m : Nat} {cap : List Byte} {rest : Plan} {s : State} {d : Dev}
    {op o : Byte} {a : Addr} {after : OnReturn} (hm : m < 5) (hb : s.boardInit = true) (hcs : s.cs = 0b000#3)
    (hl : s.bus = some m) (ha : s.InRange a) :
    ∃ f, drive i p k cap
        (⟨.select d, .ignore⟩ :: (exchanges (header op a) .ignore ++ (⟨.exchange o, after⟩ :: rest))) s =
      .next (hang i p (k + (m + 1)) cap (s.stoppedIn d op a m f)) := by
  have h0 : (((s.assertLine d).emit (.sel d)).setFrame d .k0).Reached d .k0 := ⟨hb, by simp [hcs], by simp⟩
  obtain ⟨f, -, hdr⟩ := drive_header_granted (i := i) (p := p) (k := k + 1) (m := m) (cap := cap) (op := op)
    (rest := ⟨.exchange o, after⟩ :: rest) 0 (by omega) h0 ha
  refine ⟨f, ?_⟩
  rw [drive_cons_done (by exact perform_select hb hcs)]
  simp only [capAfter_none, slotAfter_ignore, State.setSlot_self]
  rw [Nat.zero_add, State.granting_of_bus (by simpa using hl)] at hdr
  simp only [State.setFrame_draws, State.emit_draws, State.assertLine_draws] at hdr
  rw [hdr]
  have hr := (((((s.assertLine d).emit (.sel d)).setFrame d .k0).sameButChip_headerCut d op m).reached h0).exchanged f
    ((headerEvents op a s.draws).take m) m |>.granting 0
  have hw : ∃ o' after' more, exchanges ((header op a).drop m) .ignore ++ (⟨.exchange o, after⟩ :: rest) =
      ⟨.exchange o', after'⟩ :: more := by
    interval_cases m <;> exact ⟨_, _, _, rfl⟩
  obtain ⟨o', after', more, hw⟩ := hw
  rw [hw, drive_waits hr rfl, show k + 1 + m = k + (m + 1) by omega]
  congr 2
  have hcut : ((((s.assertLine d).emit (.sel d)).setFrame d .k0).headerCut d op m) =
      (((s.headerCut d op m).assertLine d).emit (.sel d)).setFrame d .k0 := by
    unfold State.headerCut State.headerTaken State.forgetUnlessConforming
    split <;> [split <;> [split; skip]; skip] <;> simp_all
    rfl
  rw [hcut]
  obtain ⟨mm, e, hu, -⟩ := s.sameButChip_headerCut d op m
  simp [State.stoppedIn, hu, State.exchanged, State.granting, State.setFrame, State.emit, State.assertLine, hcs]

theorem drive_readPlan_stops {i : Instr} {p : Plan} {k m : Nat} {cap : List Byte} {rest : Plan} {s : State} {d : Dev}
    {a : Addr} {last : OnReturn} (hm : m < 5) (hb : s.boardInit = true) (hcs : s.cs = 0b000#3) (hl : s.bus = some m)
    (ha : s.InRange a) :
    ∃ f, drive i p k cap (readPlan d a 1 last ++ rest) s =
      .next (hang i p (k + (m + 1)) cap (s.stoppedIn d Config.opRead a m f)) :=
  drive_transaction_stops hm hb hcs hl ha

theorem drive_writePlan_stops {i : Instr} {p : Plan} {k m : Nat} {cap : List Byte} {rest : Plan} {s : State} {d : Dev}
    {a : Addr} {v : Byte} {last : OnReturn} (hm : m < 5) (hb : s.boardInit = true) (hcs : s.cs = 0b000#3)
    (hl : s.bus = some m) (ha : s.InRange a) :
    ∃ f, drive i p k cap (writePlan d a [v] last ++ rest) s =
      .next (hang i p (k + (m + 1)) cap (s.stoppedIn d Config.opWrite a m f)) :=
  drive_transaction_stops hm hb hcs hl ha

/-- A one-byte WRITE on a conforming chip takes five of the exchanges the bus grants (R190). -/
theorem drive_writePlan_granted {i : Instr} {p : Plan} {k n : Nat} {cap : List Byte} {rest : Plan} {s : State} {d : Dev}
    {a : Addr} {v : Byte} {last : OnReturn} (hb : s.boardInit = true) (hcs : s.cs = 0b000#3) (hl : s.bus = some (n + 5))
    (hc : s.Conforming d) (ha : s.InRange a) :
    drive i p k cap (writePlan d a [v] last ++ rest) s =
      drive i p (k + 7) cap rest (((s.afterWrite d a [v]).setSlot (slotAfter last cap s.slot)).granting n) := by
  have h0 : (((s.assertLine d).emit (.sel d)).setFrame d .k0).Reached d .k0 := ⟨hb, by simp [hcs], by simp⟩
  obtain ⟨f, hf, hdr⟩ := drive_header_granted (i := i) (p := p) (k := k + 1) (m := 4) (cap := cap) (op := Config.opWrite)
    (rest := ⟨.exchange v, .ignore⟩ :: ⟨.deselect d, last⟩ :: rest) (n + 1) (Nat.le_refl 4) h0 ha
  obtain rfl := hf rfl
  rw [State.headerCut_of_conforming (by exact hc), State.granting_of_bus (by simpa using hl)] at hdr
  show drive i p k cap (⟨.select d, .ignore⟩ :: (exchanges (header Config.opWrite a) .ignore ++
    (⟨.exchange v, .ignore⟩ :: ⟨.deselect d, last⟩ :: rest))) s = _
  rw [drive_cons_done (by exact perform_select hb hcs)]
  simp only [capAfter_none, slotAfter_ignore, State.setSlot_self]
  refine hdr.trans ?_
  have h4 := h0.exchanged (.payload Config.opWrite a 0) ((headerEvents Config.opWrite a s.draws).take 4) 4
  refine (drive_draw_granted (g := .payload Config.opWrite a 1) h4
    (State.sameButChip_writeByteAt _ d a.toNat v) ?_).trans ?_
  · exact chipAnswer_write v (h4.granting _).frame ha hc
  rw [drive_cons_done (by
    exact perform_deselect_write (a := a) (j := 1) hb (by simp [hcs]) (by simp))]
  simp only [capAfter_none]
  refine congrArg (drive i p (k + 7) cap rest) ?_
  simp [endTransaction, State.exchanged, writeEvents, dataEvents, State.countWrite, State.setFrame, State.emit,
    State.releaseLine, State.assertLine, State.setSlot, hcs, State.granting, State.afterWrite, State.storeBytes,
    State.writeByteAt, headerEvents]

end Sys2Proof.Machine
end

