-- ==== Sys2Proof/Laws/Reset.lean ====
section
/-! SUPPORT. The chips' side of a reset, said once: what cutting a frame can do to its chip, and that it does nothing
else. -/

namespace Sys2Proof.Machine

/-- What cutting the frame of chip `d` leaves alone: everything but the bytes of that chip and the draws. -/
structure CutEffect (d : Dev) (s t : State) : Prop where
  cfg : t.cfg = s.cfg
  inputs : t.inputs = s.inputs
  seq : t.seq = s.seq
  devFrame : t.devFrame = s.devFrame
  conforms : t.conforms = s.conforms
  other : ∀ e x, e ≠ d → t.byteAt e x = s.byteAt e x

theorem CutEffect.refl (d : Dev) (s : State) : CutEffect d s s := ⟨rfl, rfl, rfl, rfl, rfl, fun _ _ _ => rfl⟩

theorem CutEffect.trans {d : Dev} {s t u : State} (h : CutEffect d s t) (g : CutEffect d t u) : CutEffect d s u :=
  ⟨g.cfg.trans h.cfg, g.inputs.trans h.inputs, g.seq.trans h.seq, g.devFrame.trans h.devFrame,
    g.conforms.trans h.conforms, fun e x he => (g.other e x he).trans (h.other e x he)⟩

theorem cutEffect_scramble (d : Dev) (a n : Nat) (s : State) : CutEffect d s (scramble d a n s) := by
  induction n generalizing a s with
  | zero => exact .refl d s
  | succ n ih =>
    rw [scramble]
    refine CutEffect.trans ?_ (ih _ _)
    split
    · exact ⟨rfl, rfl, rfl, rfl, rfl, fun e x he => State.byteAt_writeByteAt_ne s _ (.inl he)⟩
    · exact .refl d s

theorem cutEffect_forgetChip (d : Dev) (s : State) : CutEffect d s (s.forgetChip d) :=
  ⟨rfl, rfl, rfl, rfl, rfl, fun e x he => by simp [State.byteAt, PerDev.get_set_ne _ _ he]⟩

theorem cutEffect_forgetUnlessConforming (d : Dev) (s : State) : CutEffect d s (s.forgetUnlessConforming d) := by
  unfold State.forgetUnlessConforming; split
  · exact .refl d s
  · exact cutEffect_forgetChip d s

/-- A cut frame leaves a chip in one of four ways: as it was, with the bytes of a run of addresses drawn, with the byte
of one address drawn by a chip that may not conform, or without any known byte. -/
theorem cutFrame_cases (d : Dev) (s : State) :
    cutFrame d s = s ∨ (∃ a n, cutFrame d s = scramble d a n s) ∨
      (∃ a : Addr, cutFrame d s = (scramble d a.toNat 1 s).forgetUnlessConforming d) ∨ cutFrame d s = s.forgetChip d := by
  unfold cutFrame cutCommand cutHeader
  repeat' split
  all_goals first
    | exact .inl rfl
    | exact .inr (.inl ⟨_, _, rfl⟩)
    | exact .inr (.inr (.inl ⟨_, rfl⟩))
    | exact .inr (.inr (.inr rfl))

theorem cutFrame_effect (d : Dev) (s : State) : CutEffect d s (cutFrame d s) := by
  rcases cutFrame_cases d s with e | ⟨a, n, e⟩ | ⟨a, e⟩ | e <;> rw [e]
  · exact .refl d s
  · exact cutEffect_scramble _ _ _ _
  · exact (cutEffect_scramble _ _ _ _).trans (cutEffect_forgetUnlessConforming _ _)
  · exact cutEffect_forgetChip d s

theorem cutFrame_cfg (d : Dev) (s : State) : (cutFrame d s).cfg = s.cfg := (cutFrame_effect d s).cfg

theorem resetBlock_cfg (s : State) : (resetBlock s).cfg = s.cfg := by
  show (cutFrames s).cfg = _
  simp [cutFrames, cutFrame_cfg]

theorem resetBlock_inputs (s : State) : (resetBlock s).inputs = s.inputs := by
  show (cutFrames s).inputs = _
  simp [cutFrames, (cutFrame_effect _ _).inputs]

/-! ## Which bytes are kept -/

theorem byteAt_scramble_ne (d : Dev) (a n : Nat) (s : State) {e : Dev} {x : Nat} (h : e ≠ d ∨ x < a ∨ a + n ≤ x) :
    (scramble d a n s).byteAt e x = s.byteAt e x := by
  induction n generalizing a s with
  | zero => rfl
  | succ n ih =>
    rw [scramble, ih _ _ (h.imp_right (Or.imp (by omega) (by omega)))]
    split
    · rw [State.byteAt_spendDraws, State.byteAt_writeByteAt_ne _ _ (h.imp_right (by omega))]
    · rfl

/-- No frame, nothing cut. -/
theorem cutFrame_closed {d : Dev} {s : State} (h : s.devFrame.get d = .closed) : cutFrame d s = s := by
  unfold cutFrame; rw [h]

/-- A frame without the address of a WRITE, taken or still to be sent, leaves its header's cut without effect. -/
theorem cutHeader_none {d : Dev} {s : State} (h : writeAddress? (s.cutBytes d) = none) : cutHeader d s = s := by
  unfold cutHeader; rw [h]

theorem writeAddress?_read {bs : List Byte} (h : bs.head? = some Config.opRead) : writeAddress? bs = none := by
  rcases bs with - | ⟨op, - | ⟨b2, - | ⟨b1, - | ⟨b0, bs⟩⟩⟩⟩ <;> try rfl
  cases h; rfl

theorem writeAddress?_write {bs : List Byte} {a : Addr} (h : bs.take 4 = header Config.opWrite a) :
    writeAddress? bs = some a := by
  rcases bs with - | ⟨op, - | ⟨b2, - | ⟨b1, - | ⟨b0, bs⟩⟩⟩⟩ <;> simp [header] at h
  obtain ⟨rfl, rfl, rfl, rfl⟩ := h
  simp [writeAddress?]

/-- A READ frame, cut wherever, leaves its chip alone (R176). -/
theorem cutFrame_read {d : Dev} {s : State} (h : (s.cutBytes d).head? = some Config.opRead) : cutFrame d s = s := by
  have hc := cutHeader_none (writeAddress?_read h)
  unfold State.cutBytes at h
  unfold cutFrame cutCommand
  cases hf : s.devFrame.get d <;> rw [hf] at h <;> dsimp only
  case k0 => exact hc
  all_goals
    simp only [Frame.taken, header, List.cons_append, List.head?_cons, Option.some.injEq] at h
    subst h
    first | exact hc | rfl

/-- A WRITE frame cut in its header leaves, of a conforming chip, only the byte at its address open (U19). -/
theorem cutFrame_writeHeader {d : Dev} {s : State} {sent : List Byte} {a : Addr} (hs : (s.devFrame.get d).matches sent)
    (hl : sent.length < 4) (hc : s.Conforming d) (ha : (s.cutBytes d).take 4 = header Config.opWrite a) :
    cutFrame d s = scramble d a.toNat 1 s := by
  have hh : cutHeader d s = scramble d a.toNat 1 s := by
    unfold cutHeader; rw [writeAddress?_write ha]
    exact State.forgetUnlessConforming_of_conforming (by unfold State.Conforming
                                                         rw [(cutEffect_scramble _ _ _ _).conforms]; exact hc)
  unfold State.cutBytes at ha
  unfold cutFrame cutCommand
  cases hf : s.devFrame.get d <;> rw [hf] at hs ha
  · exact hs.elim
  · exact hh
  case payload => have := hs.2; omega
  all_goals
    simp only [Frame.taken, header, List.cons_append, List.take_succ_cons, List.cons.injEq] at ha
    obtain ⟨rfl, -⟩ := ha
    exact hh

/-- A payload's cut leaves open no byte after the one in flight. -/
theorem cutCount_le (j : Nat) (q : Seq) : cutCount j q ≤ j + 1 := by unfold cutCount; split <;> omega

/-- With nothing in flight it leaves open the bytes taken alone. -/
theorem cutCount_of_sending_nil {j : Nat} {q : Seq} (h : q.sending = []) (hj : 0 < j) : cutCount j q = j := by
  simp only [cutCount, h, List.isEmpty_nil, if_true]; omega

/-- A WRITE frame cut in its payload leaves those bytes open and no other. -/
theorem cutFrame_writePayload {d : Dev} {s : State} {a : Addr} {j : Nat}
    (h : s.devFrame.get d = .payload Config.opWrite a j) : cutFrame d s = scramble d a.toNat (cutCount j s.seq) s := by
  unfold cutFrame; rw [h]; rfl

/-- A byte that cutting its own chip's frame leaves alone is left alone by a reset. -/
theorem byteAt_resetBlock {d : Dev} {x : Nat} {s : State}
    (h : ∀ u : State, u.devFrame = s.devFrame → u.seq = s.seq → u.conforms = s.conforms →
      (cutFrame d u).byteAt d x = u.byteAt d x) : (resetBlock s).byteAt d x = s.byteAt d x := by
  have step : ∀ (e : Dev) (u : State), u.devFrame = s.devFrame → u.seq = s.seq → u.conforms = s.conforms →
      (cutFrame e u).byteAt d x = u.byteAt d x := by
    intro e u hf hq hc
    by_cases he : d = e
    · subst he; exact h u hf hq hc
    · exact (cutFrame_effect e u).other d x he
  have e0 := cutFrame_effect .dev0 s
  have e1 := cutFrame_effect .dev1 (cutFrame .dev0 s)
  show (cutFrames s).byteAt d x = _
  unfold cutFrames
  rw [step _ _ (e1.devFrame.trans e0.devFrame) (e1.seq.trans e0.seq) (e1.conforms.trans e0.conforms),
    step _ _ e0.devFrame e0.seq e0.conforms, step _ _ rfl rfl rfl]

end Sys2Proof.Machine
end

