-- ==== Sys2Proof/Laws/Invariant.lean ====
section
/-! SUPPORT. What keeps the invariant of Safety.lean: the parts of it that every state inside an operation has, kept by each
transport operation, each slot treatment, each completion, and by the chips' side of a reset. -/

namespace Sys2Proof.Machine

theorem scanTrace_append (t : List BusEvent) (e : BusEvent) (sc : Scan) (h : scanTrace t = some sc) :
   scanTrace (t ++ [e]) = sc.next e := by
  simp [scanTrace, List.foldl_append] at h ⊢
  rw [h]; rfl

/-- The invariant without its clause about `seq`: what every state inside an operation has. -/
structure State.InvCore (s : State) : Prop where
  config : s.cfg.WF
  memory : s.MemoryOK
  slot : s.SlotOK
  bus : s.BusOK
  frame : s.FrameOK

theorem Dev.line_inj {d e : Dev} (h : d.line = e.line) : d = e :=
    by cases d <;> cases e <;> first | rfl | (exact absurd h (by decide))

theorem asserted_of_line {d e : Dev} (h : lineAsserted d.line e = true) : e = d :=
    by cases d <;> cases e <;> first | rfl | (exact absurd h (by decide))

theorem State.memoryOK_forgetUnlessConforming {s : State} (h : s.MemoryOK) (d : Dev) :
    (s.forgetUnlessConforming d).MemoryOK := by
  unfold State.forgetUnlessConforming; split
  · exact h
  · exact State.memoryOK_forgetChip h d

/-- An answered exchange keeps memory and frames in order, leaves the other chips' frames alone, and moves the selected
chip's frame on by the byte sent. -/
theorem chipAnswer_keepsInv {d : Dev} {o i : Byte} {s t : State} (h : chipAnswer d o s = .ok (i, t)) (hm : s.MemoryOK)
    (hf : s.FrameOK) :
   t.MemoryOK ∧ t.FrameOK ∧ (∀ e, e ≠ d → t.devFrame.get e = s.devFrame.get e) ∧
     (∀ sent, (s.devFrame.get d).matches sent → (t.devFrame.get d).matches (sent ++ [o])) := by
  have hfo : ∀ (u : State) (f : Frame) , u.devFrame = s.devFrame.set d f → u.cfg = s.cfg →
      (∀ op a j, f = .payload op a j → s.InRange a ∧ payloadAddr a j ≤ s.cfg.memSize) → u.FrameOK := by
    intro u f hu hc hp e op a j he
    rw [hu, PerDev.get_set] at he
    unfold State.InRange; rw [hc]
    split at he
    · exact hp op a j he
    · exact hf e op a j he
  have hne : ∀ (u : State) (f : Frame) , u.devFrame = s.devFrame.set d f → ∀ e, e ≠ d →
      u.devFrame.get e = s.devFrame.get e := by
    intro u f hu e he; rw [hu, PerDev.get_set_ne _ _ he]
  have hself : ∀ (u : State) (f : Frame) , u.devFrame = s.devFrame.set d f → u.devFrame.get d = f := by
    intro u f hu; rw [hu, PerDev.get_set_same]
  have fin : ∀ (f : Frame), t.devFrame = s.devFrame.set d f → t.cfg = s.cfg → t.MemoryOK →
      (∀ op a j, f = .payload op a j → s.InRange a ∧ payloadAddr a j ≤ s.cfg.memSize) →
      (∀ sent, (s.devFrame.get d).matches sent → f.matches (sent ++ [o])) →
     t.MemoryOK ∧ t.FrameOK ∧ (∀ e, e ≠ d → t.devFrame.get e = s.devFrame.get e) ∧
     (∀ sent, (s.devFrame.get d).matches sent → (t.devFrame.get d).matches (sent ++ [o])) := by
    intro f h1 h2 h3 h4 h5
    exact ⟨h3, hfo t f h1 h2 h4, hne t f h1, fun sent hs => by rw [hself t f h1]; exact h5 sent hs⟩
  rcases chipAnswer_ok h with ⟨hfr, h⟩ | ⟨op, hfr, h⟩ | ⟨op, b2, hfr, h⟩ | ⟨op, b2, b1, hfr, hlt, h⟩
      | ⟨a, j, hfr, hlt, h⟩ | ⟨a, j, hfr, hlt, h⟩
  · cases h; refine fin _ rfl rfl hm (by intros; contradiction) ?_; rw [hfr]; rintro sent rfl; rfl
  · cases h; refine fin _ rfl rfl hm (by intros; contradiction) ?_; rw [hfr]; rintro sent rfl; rfl
  · cases h; refine fin _ rfl rfl hm (by intros; contradiction) ?_; rw [hfr]; rintro sent rfl; rfl
  · have ht : t = (answerDraw d (.payload op (joinAddr b2 b1 o) 0) (s.headerTaken d op)).2 := congrArg Prod.snd h
    refine fin (.payload op (joinAddr b2 b1 o) 0) ?_ ?_ ?_ ?_ ?_
    · rw [ht]; simp [State.headerTaken, State.forgetUnlessConforming]; split <;> (try split) <;> rfl
    · rw [ht]; simp
    · rw [ht]; intro e; simp;
      have : (s.headerTaken d op).MemoryOK := by
        unfold State.headerTaken; split
        · exact State.memoryOK_forgetUnlessConforming hm d
        · exact hm
      have := this e
      simpa using this
    · intro op' a' j' he; cases he; exact ⟨hlt, Nat.le_of_lt hlt⟩
    · rw [hfr]; rintro sent rfl; exact ⟨by simp [header], rfl⟩
  · have hd : t.devFrame = s.devFrame.set d (.payload Config.opRead a (j+1)) ∧ t.cfg = s.cfg ∧ t.MemoryOK := by
      have ht := congrArg Prod.snd h
      simp only at ht; rw [ht]
      unfold answerRead; split <;> exact ⟨rfl, rfl, hm⟩
    refine fin _ hd.1 hd.2.1 hd.2.2 ?_ ?_
    · intro op' a' j' he; cases he; exact ⟨(hf d _ _ _ hfr).1, by simp only [payloadAddr] at hlt ⊢; omega⟩
    · rw [hfr]; rintro sent ⟨h1, h2⟩; exact ⟨by rw [List.take_append_of_le_length (by omega)]; exact h1, by simp; omega⟩
  · have hd : t.devFrame = s.devFrame.set d (.payload Config.opWrite a (j+1)) ∧ t.cfg = s.cfg ∧ t.MemoryOK := by
      have ht := congrArg Prod.snd h
      simp only at ht; rw [ht]
      have hw := State.memoryOK_writeByteAt hm d o hlt
      have := State.memoryOK_forgetUnlessConforming hw d
      refine ⟨?_, ?_, this⟩
      · unfold answerWrite State.forgetUnlessConforming; split <;> rfl
      · simp
    refine fin _ hd.1 hd.2.1 hd.2.2 ?_ ?_
    · intro op' a' j' he; cases he; exact ⟨(hf d _ _ _ hfr).1, by simp only [payloadAddr] at hlt ⊢; omega⟩
    · rw [hfr]; rintro sent ⟨h1, h2⟩; exact ⟨by rw [List.take_append_of_le_length (by omega)]; exact h1, by simp; omega⟩

theorem perform_keepsInv {x : BusOp} {s t : State} {b} (h : perform x s = .done t b) (hs : State.InvCore s) :
    State.InvCore t := by
  obtain ⟨sc, hsc, hr, hw, hx⟩ := hs.bus
  cases x with
  | select d =>
    obtain ⟨-, hc, -, rfl⟩ := performSelect_done h
    have hop : sc.openTx = none := by
      cases ho : sc.openTx with
      | none => rfl
      | some p => rw [ho] at hx; obtain ⟨d', sent⟩ := p; exact absurd (hx.1.symm.trans hc) d'.line_ne_zero
    rw [hop] at hx
    refine ⟨hs.config, hs.memory, hs.slot, ⟨{ sc with openTx := some (d, []) }, ?_, hr, hw, ?_, ?_, ?_⟩, ?_⟩
    · show scanTrace (s.trace ++ [_]) = _
      rw [scanTrace_append _ _ _ hsc]; simp [Scan.next, hop]
    · simp [hc]
    · simp [Frame.matches]
    · intro e he; simp [PerDev.get_set_ne _ _ he, hx.2]
    · intro e op a j he
      simp [PerDev.get_set, hx.2] at he
      split at he <;> cases he
  | deselect d =>
    obtain ⟨-, hl, -, hcase⟩ := performDeselect_done h
    cases ho : sc.openTx with
    | none =>
      rw [ho] at hx; rw [hx.1] at hl; cases d <;> exact absurd hl (by decide)
    | some p =>
      obtain ⟨d', sent⟩ := p
      rw [ho] at hx
      obtain ⟨hcs, hmt, hoth⟩ := hx
      rw [hcs] at hl
      obtain rfl := asserted_of_line hl
      have common : ∀ (t : State) (sc' : Scan), t.cfg = s.cfg → t.devMem = s.devMem → t.slot = s.slot →
          t.cs = s.cs &&& ~~~d.line → t.devFrame = s.devFrame.set d .closed → t.trace = s.trace ++ [.desel d] →
          sc.next (.desel d) = some sc' → sc'.openTx = none → sc'.reads = t.nREAD → sc'.writes = t.nWRITE →
              State.InvCore t := by
        intro t sc' h1 h2 h3 h4 h5 h6 h7 h8 h9 h10
        refine ⟨h1 ▸ hs.config, ?_, ?_, ⟨sc', ?_, h9, h10, ?_⟩, ?_⟩
        · intro e; rw [h2, h1]; exact hs.memory e
        · unfold State.SlotOK; rw [h3]; exact hs.slot
        · rw [h6, scanTrace_append _ _ _ hsc]; exact h7
        · rw [h8]; refine ⟨?_, ?_⟩
          · rw [h4, hcs]; cases d <;> decide
          · intro e; rw [h5, PerDev.get_set]; split
            · rfl
            · next he => exact hoth e he
        · intro e op a j he
          rw [h5, PerDev.get_set] at he; split at he
          · cases he
          · next hne => rw [hoth e hne] at he; cases he
      rcases hcase with ⟨hf, rfl⟩ | ⟨a, j, hf, rfl⟩ | ⟨a, j, hf, rfl⟩
      · rw [hf] at hmt; exact hmt.elim
      · rw [hf] at hmt
        obtain ⟨m1, m2⟩ := hmt
        have hh : sent.head? = some Config.opRead := by
          cases sent with
          | nil => simp at m2; omega
          | cons b l => simp [header] at m1; simp [m1.1]
        refine common _ { sc with openTx := none, reads := sc.reads + 1 } rfl rfl rfl rfl rfl rfl ?_ rfl ?_ hw
        · simp [Scan.next, ho, Scan.close, hh]; omega
        · simp [hr, endTransaction]
      · rw [hf] at hmt
        obtain ⟨m1, m2⟩ := hmt
        have hh : sent.head? = some Config.opWrite := by
          cases sent with
          | nil => simp at m2; omega
          | cons b l => simp [header] at m1; simp [m1.1]
        refine common _ { sc with openTx := none, writes := sc.writes + 1 } rfl rfl rfl rfl rfl rfl ?_ rfl hr ?_
        · have hne : ¬ Config.opWrite = Config.opRead := by decide
          simp [Scan.next, ho, Scan.close, hh, hne]; omega
        · simp [hw, endTransaction]
  | exchange o =>
    obtain ⟨d, i, s1, -, hd, -, hc, -, rfl⟩ := performExchange_done h
    obtain ⟨hk, h1, h2, h3, h4, h5, h6, h7, h8⟩ := chipAnswer_kept hc
    obtain ⟨c1, c2, c3, c4⟩ := chipAnswer_keepsInv hc hs.memory hs.frame
    have hcs := Dev.line_of_ofLine? hd
    cases ho : sc.openTx with
    | none => rw [ho] at hx; exact absurd (hcs.symm.trans hx.1) d.line_ne_zero
    | some p =>
      obtain ⟨d', sent⟩ := p
      rw [ho] at hx
      obtain ⟨hcs', hmt, hoth⟩ := hx
      obtain rfl := Dev.line_inj (hcs'.symm.trans hcs)
      refine ⟨?_, c1, ?_, ⟨{ sc with openTx := some (d', sent ++ [o]) }, ?_, ?_, ?_, ?_, ?_, ?_⟩, c2⟩
      · show s1.cfg.WF; rw [hk.cfg]; exact hs.config
      · show s1.slot.dirty = true → s1.slot.valid = true; rw [h1]; exact hs.slot
      · show scanTrace (s1.trace ++ [_]) = _
        rw [h5, scanTrace_append _ _ _ hsc]; simp [Scan.next, ho]
      · show sc.reads = s1.nREAD; rw [h6]; exact hr
      · show sc.writes = s1.nWRITE; rw [h7]; exact hw
      · show s1.cs = _; rw [h2]; exact hcs'
      · exact c4 _ hmt
      · intro e he; exact (c3 e he).trans (hoth e he)

theorem slotAfter_keepsInv {s : State} {a : OnReturn} {cap} (h : State.InvCore s) : State.InvCore
    (s.setSlot (slotAfter a cap s.slot)) := by
  refine ⟨h.config, h.memory, ?_, h.bus, h.frame⟩
  cases a with
  | ignore => exact h.slot
  | capture => exact h.slot
  | clean => intro hh; cases hh
  | load a => intro _; rfl

theorem complete_keepsInv {i : Instr} {s : State} {cap} (h : State.InvCore s) : State.InvCore (complete i cap s) := by
  cases i with
  | writeByte a v => exact ⟨h.config, h.memory, fun _ => rfl, h.bus, h.frame⟩
  | _ => exact ⟨h.config, h.memory, h.slot, h.bus, h.frame⟩

theorem memoryOK_scramble (d : Dev) (a n : Nat) {s : State} (h : s.MemoryOK) : (scramble d a n s).MemoryOK := by
  induction n generalizing a s with
  | zero => exact h
  | succ n ih =>
    rw [scramble]; apply ih
    split
    · next ha => exact State.memoryOK_writeByteAt h d _ ha
    · exact h

theorem memoryOK_cutFrame (d : Dev) {s : State} (h : s.MemoryOK) : (cutFrame d s).MemoryOK := by
  rcases cutFrame_cases d s with e | ⟨a, n, e⟩ | ⟨a, e⟩ | e <;> rw [e]
  · exact h
  · exact memoryOK_scramble _ _ _ h
  · exact State.memoryOK_forgetUnlessConforming (memoryOK_scramble _ _ _ h) d
  · exact State.memoryOK_forgetChip h d

end Sys2Proof.Machine
end

