-- ==== Sys2Proof/Laws/PerInstr.lean ====
section
/-! SUPPORT. Laws stated once per operation. `EncodingRow`: the encoding of an operation carries the fixed bits of its own
row of spec/opcode_table.json, `match` under `mask` where the row has them (R87). -/

namespace Sys2Proof.Laws

/-- A host word whose bits under the mask of R87 are `m`. -/
def EncodingRow.host (m : HostWord) (r : Request) : Prop := ∃ w, r = .host w ∧ w &&& 0x300000000#34 = m

/-- A frame for device `d` with at least its header, of which the bits under the mask of R87 are `m`. -/
def EncodingRow.wire (d : Dev) (m : BitVec 32) (r : Request) : Prop :=
  ∃ op a payload, r = .wire d (header op a ++ payload) ∧ headerWord op a &&& 0xFF000000#32 = m

/-- The encoding of `i` is that of its row. -/
def EncodingRow.Statement (i : Instr) : Prop :=
  match i with
  | .select d => ∃ after, encode i = .port (.lines 0b000#3 after) ∧
      after.toNat = 2 ^ (match d with | .dev0 => 0 | .dev1 => 1 | .dev2 => 2)
  | .exchange o => encode i = .port (.shift o)
  | .deselect _ => ∃ before, encode i = .port (.lines before 0b000#3)
  | .dpRead d _ _ => EncodingRow.wire d 0x03000000#32 (encode i)
  | .dpWrite d _ _ => EncodingRow.wire d 0x02000000#32 (encode i)
  | .miss a => encode i = .internal a
  | .readByte _ => EncodingRow.host 0x300000000#34 (encode i)
  | .writeByte _ _ => EncodingRow.host 0x200000000#34 (encode i)
  | .flush => EncodingRow.host 0x100000000#34 (encode i)
  | .nop => EncodingRow.host 0x000000000#34 (encode i)

/-- The mask of a host word leaves `op` alone. -/
theorem hostWord_and_mask (op : BitVec 2) (a : Addr) (v : Byte) :
    hostWord op a v &&& 0x300000000#34 = hostWord op 0#24 0#8 := by
  have hm : (0x300000000#34) = hostWord 0b11#2 0#24 0#8 := by decide
  rw [hm]
  unfold hostWord
  rw [BitVec.and_append, BitVec.and_append, BitVec.and_zero, BitVec.and_zero]
  congr 2
  exact BitVec.and_allOnes

/-- The mask of a wire header leaves the opcode alone. -/
theorem headerWord_and_mask (op : Byte) (a : Addr) : headerWord op a &&& 0xFF000000#32 = headerWord op 0#24 := by
  have hm : (0xFF000000#32) = headerWord 0xFF#8 0#24 := by decide
  rw [hm]
  unfold headerWord
  rw [BitVec.and_append, BitVec.and_zero]
  congr 1
  exact BitVec.and_allOnes

theorem EncodingRow.select (d : Dev) : EncodingRow.Statement (.select d) := by
  cases d <;> exact ⟨_, rfl, rfl⟩

theorem EncodingRow.exchange (o : Byte) : EncodingRow.Statement (.exchange o) := rfl

theorem EncodingRow.deselect (d : Dev) : EncodingRow.Statement (.deselect d) := ⟨d.line, rfl⟩

theorem EncodingRow.dpRead (d : Dev) (a : Addr) (n : Nat) : EncodingRow.Statement (.dpRead d a n) :=
  ⟨_, _, _, rfl, headerWord_and_mask _ _⟩

theorem EncodingRow.dpWrite (d : Dev) (a : Addr) (data : List Byte) : EncodingRow.Statement (.dpWrite d a data) :=
  ⟨_, _, _, rfl, headerWord_and_mask _ _⟩

theorem EncodingRow.miss (a : Addr) : EncodingRow.Statement (.miss a) := rfl

theorem EncodingRow.readByte (a : Addr) : EncodingRow.Statement (.readByte a) := ⟨_, rfl, hostWord_and_mask _ _ _⟩

theorem EncodingRow.writeByte (a : Addr) (v : Byte) : EncodingRow.Statement (.writeByte a v) :=
  ⟨_, rfl, hostWord_and_mask _ _ _⟩

theorem EncodingRow.flush : EncodingRow.Statement .flush := ⟨_, rfl, hostWord_and_mask _ _ _⟩

theorem EncodingRow.nop : EncodingRow.Statement .nop := ⟨_, rfl, hostWord_and_mask _ _ _⟩

end Sys2Proof.Laws
end

