-- ==== Sys2Proof/Laws/TransactionFrames.lean ====
section
/-! SUPPORT. What a transaction inside a plan can do to the chips' memory and frames, done or stopped, on a conforming chip
or not (R53, R63, R115). -/

namespace Sys2Proof.Machine

/-- The chip's frame after `n` exchanges of a transaction with opcode `op` and address `a` (R52). -/
def txFrame (op : Byte) (a : Addr) : Nat → Frame
  | 0 => .k0
  | 1 => .k1 op
  | 2 => .k2 op (addrB2 a)
  | 3 => .k3 op (addrB2 a) (addrB1 a)
  | n + 4 => .payload op a n

/-- What one exchange of such a transaction can do. -/
theorem exchange_in_tx {op : Byte} {a : Addr} {d : Dev} {o : Byte} {n : Nat} {s u : State} {b}
    (ho : op = Config.opRead ∨ op = Config.opWrite)
   (hcs : s.cs = d.line) (hf : s.devFrame.get d = txFrame op a n) (hn : ∀ x, (header op a)[n]? = some x → x = o)
   (h : perform (.exchange o) s = .done u b) :
   u.cs = d.line ∧ u.devFrame = s.devFrame.set d (txFrame op a (n+1)) ∧ u.conforms = s.conforms ∧ u.cfg = s.cfg ∧
       u.slot = s.slot ∧
     (op = Config.opRead → ∀ e x, u.byteAt e x = s.byteAt e x) ∧
     (∀ e x, e ≠ d → u.byteAt e x = s.byteAt e x) ∧
     (s.Conforming d → ∀ x, (n < 4 ∨ x ≠ a.toNat + (n - 4)) → u.byteAt d x = s.byteAt d x) := by
  obtain ⟨d', i, s1, -, hd, -, ha, -, rfl⟩ := performExchange_done h
  rw [hcs, Dev.ofLine?_line] at hd; cases hd
  obtain ⟨hk, h1, h2, -⟩ := chipAnswer_kept ha
  have hdf : s1.devFrame = s.devFrame.set d (txFrame op a (n+1)) := by
    rcases chipAnswer_ok ha with ⟨hfr, h⟩ | ⟨op', hfr, h⟩ | ⟨op', b2, hfr, h⟩ | ⟨op', b2, b1, hfr, hlt, h⟩
        | ⟨a', j, hfr, hlt, h⟩ | ⟨a', j, hfr, hlt, h⟩
    · rw [hf] at hfr
      match n, hfr with
      | 0, _ => cases h; have := hn op rfl; subst this; rfl
      | n+4, h => cases h
    · rw [hf] at hfr
      match n, hfr with
      | 1, e => cases e; cases h; have := hn _ rfl; subst this; rfl
      | n+4, e => cases e
    · rw [hf] at hfr
      match n, hfr with
      | 2, e => cases e; cases h; have := hn _ rfl; subst this; rfl
      | n+4, e => cases e
    · rw [hf] at hfr
      match n, hfr with
      | 3, e =>
        cases e
        have ht := congrArg (fun q => q.2.devFrame) h
        simp only at ht; rw [ht]
        have := hn _ rfl; subst this
        simp only [joinAddr_bytes]
        unfold State.forgetUnlessConforming
        split <;> (try split) <;> rfl
    · rw [hf] at hfr
      match n, hfr with
      | n+4, e =>
        cases e
        have ht := congrArg (fun q => q.2.devFrame) h
        simp only at ht; rw [ht]
        unfold answerRead; split <;> rfl
    · rw [hf] at hfr
      match n, hfr with
      | n+4, e =>
        cases e
        have ht := congrArg (fun q => q.2.devFrame) h
        simp only at ht; rw [ht]
        unfold answerWrite State.forgetUnlessConforming; split <;> rfl
  refine ⟨h2.trans hcs, hdf, hk.conforms, hk.cfg, h1, ?_, ?_, ?_⟩
  · intro hr e x
    show s1.byteAt e x = _
    rcases chipAnswer_bytes ha with hb | ⟨a', j, hf', -, hb⟩ | ⟨hff, -, hb⟩
    · exact hb e x
    · rw [hf] at hf'
      match n, hf' with | n+4, e' => cases e'; cases hr
    · rcases hff with ⟨b2, b1, hf'⟩ | ⟨a', j, hf'⟩
      · rw [hf] at hf'; match n, hf' with | 3, e' => cases e'; cases hr
      · rw [hf] at hf'; match n, hf' with | n+4, e' => cases e'; cases hr
  · intro e x he
    show s1.byteAt e x = _
    rcases chipAnswer_bytes ha with hb | ⟨a', j, hf', -, hb⟩ | ⟨hff, -, hb⟩
    · exact hb e x
    · rw [hb]; exact State.byteAt_writeByteAt_ne _ _ (.inl he)
    · exact hb e x he
  · intro hc x hx
    show s1.byteAt d x = _
    rcases chipAnswer_bytes ha with hb | ⟨a', j, hf', -, hb⟩ | ⟨hff, hnc, hb⟩
    · exact hb _ x
    · rw [hf] at hf'
      match n, hf' with
      | n+4, e' =>
        cases e'
        rw [hb]
        refine State.byteAt_writeByteAt_ne _ _ (.inr ?_)
        rcases hx with hx | hx
        · omega
        · simpa [payloadAddr] using hx
    · exact absurd hc hnc

/-- What a transaction of `n` payload bytes, or the part of it done before it stopped, may do from `s` to `u`. -/
structure TxEffect (op : Byte) (d : Dev) (a : Addr) (n : Nat) (s u : State) : Prop where
  conf : u.conforms = s.conforms
  cfg : u.cfg = s.cfg
  frames : ∀ e, e ≠ d → u.devFrame.get e = s.devFrame.get e
  read : op = Config.opRead → ∀ e x, u.byteAt e x = s.byteAt e x
  other : ∀ e x, e ≠ d → u.byteAt e x = s.byteAt e x
  inside : s.Conforming d → ∀ x, (x < a.toNat ∨ a.toNat + n ≤ x) → u.byteAt d x = s.byteAt d x

theorem TxEffect.refl (op : Byte) (d : Dev) (a : Addr) (n : Nat) (s : State) : TxEffect op d a n s s :=
    ⟨rfl, rfl, fun _ _ => rfl, fun _ _ _ => rfl, fun _ _ _ => rfl, fun _ _ _ => rfl⟩
theorem TxEffect.trans {op : Byte} {d : Dev} {a : Addr} {n : Nat} {s u w : State} (h : TxEffect op d a n s u)
    (g : TxEffect op d a n u w) : TxEffect op d a n s w :=
  ⟨g.conf.trans h.conf, g.cfg.trans h.cfg, fun e he => (g.frames e he).trans (h.frames e he),
      fun r e x => (g.read r e x).trans (h.read r e x),
   fun e x he => (g.other e x he).trans (h.other e x he),
       fun c x hx => (g.inside (by unfold State.Conforming; rw [h.conf]; exact c) x hx).trans (h.inside c x hx)⟩

/-- A run of exchanges of such a transaction: it stops inside, or goes on to the rest of the plan. -/
theorem exchanges_in_tx {i : Instr} {p : Plan} {op : Byte} {a : Addr} {d : Dev} {N : Nat} {rest : Plan} {t : State}
    (ho : op = Config.opRead ∨ op = Config.opWrite) (af : OnReturn) (haf : af = .ignore ∨ af = .capture) :
  ∀ (bs : List Byte) (n k cap) (s : State), s.cs = d.line → s.devFrame.get d = txFrame op a n →
      (∀ m x, (header op a)[n+m]? = some x → ∀ y, bs[m]? = some y → x = y) →
   n + bs.length ≤ 4 + N →
   drive i p k cap (exchanges bs af ++ rest) s = .next t →
   (∃ k cap u, t = hang i p k cap u ∧ TxEffect op d a N s u ∧ u.slot = s.slot) ∨ ∃ k cap u, TxEffect op d a N s u ∧
       u.slot = s.slot ∧ u.cs = d.line ∧ u.devFrame.get d = txFrame op a (n + bs.length) ∧
       drive i p k cap rest u = .next t := by
  intro bs
  induction bs with
  | nil => intro n k cap s hcs hf _ _ h; exact .inr ⟨k, cap, s, TxEffect.refl _ _ _ _ _, rfl, hcs, hf, h⟩
  | cons b bs ih =>
    intro n k cap s hcs hf hh hN h
    simp only [exchanges, List.map_cons, List.cons_append] at h
    rcases drive_cons_next h with ⟨-, rfl⟩ | ⟨u, c, hp, h⟩
    · exact .inl ⟨k, cap, s, rfl, TxEffect.refl _ _ _ _ _, rfl⟩
    · obtain ⟨g1, g2, g3, g4, g5, g6, g7, g8⟩ :=
        exchange_in_tx ho hcs hf (fun x hx => hh 0 x (by simpa using hx) b (by simp)) hp
      have hsl : u.setSlot (slotAfter af (capAfter af c cap) u.slot) = u := by rcases haf with rfl | rfl <;> rfl
      simp only [hsl] at h
      have hrel : TxEffect op d a N s u :=
          ⟨g3, g4, fun e he => by rw [g2, PerDev.get_set_ne _ _ he], g6, g7, fun hc x hx => g8 hc x (by simp at hN; omega)⟩
      rcases ih (n+1) _ _ u g1 (by rw [g2, PerDev.get_set_same])
          (fun m x hx y hy => hh (m+1) x (by rw [← hx]; congr 1; omega) y (by simpa using hy))
          (by simp at hN; omega) h with ⟨k', cap', w, h1, h2, h3⟩ | ⟨k', cap', w, h2, h3, h4, h5, h6⟩
      · exact .inl ⟨k', cap', w, h1, hrel.trans h2, h3.trans g5⟩
      · exact .inr ⟨k', cap', w, hrel.trans h2, h3.trans g5, h4, by rw [h5]; simp; congr 1; omega, h6⟩

/-- A whole transaction inside a plan: it stops inside, or goes on to the rest of the plan; either way its effect is
bounded. -/
theorem transaction_effect {i : Instr} {p : Plan} {op : Byte} {a : Addr} {d : Dev} {rest : Plan} {t : State}
    (ho : op = Config.opRead ∨ op = Config.opWrite) (af last : OnReturn) (haf : af = .ignore ∨ af = .capture)
  (bs : List Byte) (k : Nat) (cap : List Byte) (s : State)
   (h : drive i p k cap (⟨.select d, .ignore⟩ ::
       (exchanges (header op a) .ignore ++ (exchanges bs af ++ (⟨.deselect d, last⟩ :: rest)))) s = .next t) :
   (∃ k cap u, t = hang i p k cap u ∧ TxEffect op d a bs.length s u ∧ u.slot = s.slot) ∨
       ∃ k cap u, TxEffect op d a bs.length s u ∧ u.slot = slotAfter last cap s.slot ∧
       drive i p k cap rest u = .next t := by
  rcases drive_cons_next h with ⟨-, rfl⟩ | ⟨u, c, hp, h⟩
  · exact .inl ⟨k, cap, s, rfl, TxEffect.refl _ _ _ _ _, rfl⟩
  · obtain ⟨-, hc, rfl, rfl⟩ := performSelect_done hp
    simp only [capAfter_none, slotAfter_ignore, State.setSlot_self] at h
    have r0 : TxEffect op d a bs.length s (((s.assertLine d).emit (.sel d)).setFrame d .k0) :=
      ⟨rfl, rfl, fun e he => by simp [PerDev.get_set_ne _ _ he], fun _ _ _ => rfl, fun _ _ _ => rfl, fun _ _ _ => rfl⟩
    rcases exchanges_in_tx (d := d) (a := a) (N := bs.length)
        (rest := exchanges bs af ++ (⟨.deselect d, last⟩ :: rest)) ho .ignore (.inl rfl) (header op a) 0 _ _ _
        (by simp [hc]) (by simp [txFrame]) (by intro m x hx y hy; rw [Nat.zero_add, hy] at hx; cases hx; rfl)
        (by simp [header]) h with ⟨k', cap', w, h1, h2, h3⟩ | ⟨k', cap', w, h2, h3, h4, h5, h6⟩
    · exact .inl ⟨k', cap', w, h1, r0.trans h2, h3⟩
    · have h0 := r0.trans h2
      rcases exchanges_in_tx (d := d) (a := a) (N := bs.length)
          (rest := ⟨.deselect d, last⟩ :: rest) ho af haf bs 4 _ _ _ h4 h5 (by intro m x hx; simp [header] at hx)
          (by simp) h6 with ⟨k'', cap'', v, g1, g2, g3⟩ | ⟨k'', cap'', v, g2, g3, g4, g5, g6⟩
      · exact .inl ⟨k'', cap'', v, g1, h0.trans g2, g3.trans h3⟩
      · have h1 := h0.trans g2
        rcases drive_cons_next g6 with ⟨hw, -⟩ | ⟨u, c, hp, h⟩
        · obtain ⟨o, _, ho, -⟩ := perform_waiting hw; cases ho
        · obtain ⟨-, -, rfl, hcase⟩ := performDeselect_done hp
          have hb : ∀ e x, u.byteAt e x = v.byteAt e x ∧ u.conforms = v.conforms ∧ u.cfg = v.cfg ∧
              u.devFrame = v.devFrame.set d .closed ∧ u.slot = v.slot := by
            intro e x; rcases hcase with ⟨-, rfl⟩ | ⟨_, _, -, rfl⟩ | ⟨_, _, -, rfl⟩ <;> exact ⟨rfl, rfl, rfl, rfl, rfl⟩
          obtain ⟨-, c1, c2, c3, c4⟩ := hb d 0
          simp only [capAfter_none] at h
          refine .inr ⟨_, cap'', u.setSlot (slotAfter last cap'' u.slot),
              h1.trans ⟨c1, c2, fun e he => ?_, fun _ e x => (hb e x).1, fun e x _ => (hb e x).1,
              fun _ x _ => (hb d x).1⟩, ?_, h⟩
          · show u.devFrame.get e = _; rw [c3, PerDev.get_set_ne _ _ he]
          · show slotAfter _ _ u.slot = slotAfter _ _ s.slot
            rw [c4, g3, h3]; rfl

end Sys2Proof.Machine
end

