-- ==== Sys2Proof/Laws/Unseen.lean ====
section
/-! SUPPORT. Changes of the state that the chips, or the whole transport, do not see: an operation commutes with them. The
slot, the response, the inputs and the electrical parameters are such (R17, R99, R117). -/

namespace Sys2Proof.Machine

/-- Chips answer an exchange in the same way before and after `f`, and `f` keeps what they did. -/
structure Blind (f : State → State) : Prop where
  memSize : ∀ s, (f s).cfg.memSize = s.cfg.memSize
  devFrame : ∀ s, (f s).devFrame = s.devFrame
  conforms : ∀ s, (f s).conforms = s.conforms
  draws : ∀ s, (f s).draws = s.draws
  byteAt : ∀ s d a, (f s).byteAt d a = s.byteAt d a
  setFrame : ∀ s d g, (f s).setFrame d g = f (s.setFrame d g)
  spendDraws : ∀ s n, (f s).spendDraws n = f (s.spendDraws n)
  writeByteAt : ∀ s d a v, (f s).writeByteAt d a v = f (s.writeByteAt d a v)
  forgetChip : ∀ s d, (f s).forgetChip d = f (s.forgetChip d)

/-- An answer of the chip with its state changed by `f`. -/
def mapAnswer (f : State → State) : Except Refusal (Byte × State) → Except Refusal (Byte × State)
  | .ok r => .ok (r.1, f r.2)
  | .error e => .error e

theorem Blind.answerDraw {f : State → State} (h : Blind f) (d : Dev) (g : Frame) (s : State) :
    answerDraw d g (f s) = ((answerDraw d g s).1, f (answerDraw d g s).2) := by
  simp [Sys2Proof.Machine.answerDraw, State.nextDraw, h.draws, h.setFrame, h.spendDraws]

theorem Blind.forgetUnlessConforming {f : State → State} (h : Blind f) (d : Dev) (s : State) :
    (f s).forgetUnlessConforming d = f (s.forgetUnlessConforming d) := by
  unfold State.forgetUnlessConforming
  rw [h.conforms]
  split
  · rfl
  · exact h.forgetChip s d

theorem Blind.chipAnswer {f : State → State} (h : Blind f) (d : Dev) (o : Byte) (s : State) :
    chipAnswer d o (f s) = mapAnswer f (chipAnswer d o s) := by
  unfold Sys2Proof.Machine.chipAnswer
  rw [h.devFrame]
  cases s.devFrame.get d with
  | closed => rfl
  | k0 => exact congrArg _ (h.answerDraw _ _ _)
  | k1 op => exact congrArg _ (h.answerDraw _ _ _)
  | k2 op b2 => exact congrArg _ (h.answerDraw _ _ _)
  | k3 op b2 b1 =>
    simp only [answerHeaderEnd, h.memSize]
    split
    · rfl
    · split
      · rw [h.forgetUnlessConforming]; exact congrArg _ (h.answerDraw _ _ _)
      · exact congrArg _ (h.answerDraw _ _ _)
  | payload op a j =>
    simp only [answerPayload, h.memSize]
    split
    · split
      · rfl
      · split
        · unfold answerRead
          rw [h.conforms]
          by_cases hc : s.conforms.get d = true
          · rw [if_pos hc, if_pos hc, h.byteAt, h.setFrame]; rfl
          · rw [if_neg hc, if_neg hc]; exact congrArg _ (h.answerDraw _ _ _)
        · unfold answerWrite
          rw [h.writeByteAt, h.forgetUnlessConforming]
          exact congrArg _ (h.answerDraw _ _ _)
    · rfl

/-- The transport does the same before and after `f`, and `f` keeps what it did. -/
structure Unseen (f : State → State) : Prop extends Blind f where
  boardInit : ∀ s, (f s).boardInit = s.boardInit
  cs : ∀ s, (f s).cs = s.cs
  bus : ∀ s, (f s).bus = s.bus
  emit : ∀ s e, (f s).emit e = f (s.emit e)
  assertLine : ∀ s d, (f s).assertLine d = f (s.assertLine d)
  releaseLine : ∀ s d, (f s).releaseLine d = f (s.releaseLine d)
  spendExchange : ∀ s, (f s).spendExchange = f s.spendExchange
  countRead : ∀ s, (f s).countRead = f s.countRead
  countWrite : ∀ s, (f s).countWrite = f s.countWrite

/-- A result of the transport with its state changed by `f`. -/
def mapResult (f : State → State) : BusResult → BusResult
  | .done s b => .done (f s) b
  | .waiting => .waiting
  | .refused r => .refused r

theorem Unseen.perform {f : State → State} (h : Unseen f) (x : BusOp) (s : State) :
    perform x (f s) = mapResult f (perform x s) := by
  cases x with
  | select d =>
    simp only [Sys2Proof.Machine.perform, performSelect, h.boardInit, h.cs, h.assertLine, h.emit, h.setFrame]
    split
    · rfl
    · split <;> rfl
  | deselect d =>
    simp only [Sys2Proof.Machine.perform, performDeselect, h.boardInit, h.cs, h.devFrame, endTransaction, h.releaseLine,
      h.emit, h.setFrame, h.countRead, h.countWrite]
    split
    · rfl
    · split
      · rfl
      · cases s.devFrame.get d with
        | payload op a j =>
          simp only
          split
          · rfl
          · split <;> rfl
        | _ => rfl
  | exchange o =>
    simp only [Sys2Proof.Machine.perform, performExchange, h.boardInit, h.cs, h.bus, h.chipAnswer]
    split
    · rfl
    · cases Dev.ofLine? s.cs with
      | none => rfl
      | some d =>
        simp only
        split
        · rfl
        · cases Sys2Proof.Machine.chipAnswer d o s with
          | error r => rfl
          | ok r => simp only [mapAnswer, h.spendExchange, h.emit]; rfl

/-- The response is unseen (R83): nothing in the block reads it. -/
theorem unseen_respond (r : Response) : Unseen (fun s => s.respond r) where
  memSize _ := rfl
  devFrame _ := rfl
  conforms _ := rfl
  draws _ := rfl
  byteAt _ _ _ := rfl
  setFrame _ _ _ := rfl
  spendDraws _ _ := rfl
  writeByteAt _ _ _ _ := rfl
  forgetChip _ _ := rfl
  boardInit _ := rfl
  cs _ := rfl
  bus _ := rfl
  emit _ _ := rfl
  assertLine _ _ := rfl
  releaseLine _ _ := rfl
  spendExchange _ := rfl
  countRead _ := rfl
  countWrite _ := rfl

/-- The slot is unseen by the transport (R17, R99). -/
theorem unseen_mapSlot (g : Slot → Slot) : Unseen (fun s => s.setSlot (g s.slot)) where
  memSize _ := rfl
  devFrame _ := rfl
  conforms _ := rfl
  draws _ := rfl
  byteAt _ _ _ := rfl
  setFrame _ _ _ := rfl
  spendDraws _ _ := rfl
  writeByteAt _ _ _ _ := rfl
  forgetChip _ _ := rfl
  boardInit _ := rfl
  cs _ := rfl
  bus _ := rfl
  emit _ _ := rfl
  assertLine _ _ := rfl
  releaseLine _ _ := rfl
  spendExchange _ := rfl
  countRead _ := rfl
  countWrite _ := rfl

/-- The parameters no rule reads are unseen (R9). -/
theorem unseen_withElectrical (level : Bool) (order : BitOrder) (mode : Fin 4) :
    Unseen (State.withElectrical level order mode) where
  memSize _ := rfl
  devFrame _ := rfl
  conforms _ := rfl
  draws _ := rfl
  byteAt _ _ _ := rfl
  setFrame _ _ _ := rfl
  spendDraws _ _ := rfl
  writeByteAt _ _ _ _ := rfl
  forgetChip _ _ := rfl
  boardInit _ := rfl
  cs _ := rfl
  bus _ := rfl
  emit _ _ := rfl
  assertLine _ _ := rfl
  releaseLine _ _ := rfl
  spendExchange _ := rfl
  countRead _ := rfl
  countWrite _ := rfl

/-- How far the bus is granted is unseen by the chips. -/
theorem blind_grant (n : Option Nat) : Blind (fun s => { s with bus := n }) where
  memSize _ := rfl
  devFrame _ := rfl
  conforms _ := rfl
  draws _ := rfl
  byteAt _ _ _ := rfl
  setFrame _ _ _ := rfl
  spendDraws _ _ := rfl
  writeByteAt _ _ _ _ := rfl
  forgetChip _ _ := rfl

/-- An exchange the bus completes is the same exchange with the bus live; SELECT and DESELECT do not wait (R100). -/
theorem perform_live (x : BusOp) (s : State) :
    perform x s = .waiting ∨ perform x { s with bus := none } = mapResult (fun u => { u with bus := none }) (perform x s) := by
  cases x with
  | select d =>
    right
    simp only [perform, performSelect]
    split
    · rfl
    · split <;> rfl
  | deselect d =>
    right
    simp only [perform, performDeselect]
    split
    · rfl
    · split
      · rfl
      · cases s.devFrame.get d with
        | payload op a j =>
          simp only
          split
          · rfl
          · split <;> rfl
        | _ => rfl
  | exchange o =>
    simp only [perform, performExchange]
    split
    · exact .inr rfl
    · cases Dev.ofLine? s.cs with
      | none => exact .inr rfl
      | some d =>
        simp only
        by_cases hb : s.bus = some 0
        · exact .inl (by rw [if_pos hb])
        · right
          rw [if_neg hb, (blind_grant none).chipAnswer]
          cases chipAnswer d o s with
          | error r => rfl
          | ok r => rfl

end Sys2Proof.Machine
end

