-- ==== Sys2Proof/Tests/Slice0.lean ====
section
/-! SUPPORT. The model's own tests, each about one operation or one step on a small state, with the expected result taken
from spec/95_test_vectors.md or worked out by hand from the rule named; the smoke test of WellFormed; the decoding of words
written out from the spec's encodings; and a witness for the hypotheses of every obligation that has some. -/

namespace Sys2Proof.Tests
open Sys2Proof Sys2Proof.Machine

/-! ## Helpers -/

/-- The reset state with a chip of 512 bytes (the size of vector S6). -/
def base : State := State.resetWith { resetConfig with memSize := 512 }

/-- `s` with byte `v` at address `a` of chip `d`. -/
def holds (s : State) (d : Dev) (a : Nat) (v : Byte) : State := s.writeByteAt d a v

/-- The chip contents of the vectors C1 to C24. -/
def chips : State := holds (holds base .dev0 0x10 0x05#8) .dev0 0x20 0xEE#8

/-- `s` with the slot `{Some(a), v, clean}` or `{Some(a), v, dirty}`. -/
def resident (s : State) (a : Addr) (v : Byte) (dirty : Bool) : State :=
  { s with slot := { valid := true, tag := a, value := v, dirty := dirty } }

/-- `s` with chip `d` selected and its frame at `f`. -/
def selected (s : State) (d : Dev) (f : Frame) : State :=
  { s with cs := d.line, devFrame := (PerDev.all .closed).set d f }

/-- `s` with the bus granted `m` exchanges. -/
def granted (s : State) (m : Nat) : State := { s with bus := some m }

/-- Does the outcome answer a next state of which `p` holds? -/
def after (o : Host.Outcome State Fault Refusal) (p : State → Bool) : Bool :=
  match o with
  | .next t => p t
  | .fault _ => false
  | .refused _ => false

/-- Is the outcome the refusal `r`? -/
def refuses (o : Host.Outcome State Fault Refusal) (r : Refusal) : Bool :=
  match o with
  | .next _ => false
  | .fault _ => false
  | .refused q => q == r

/-- The bytes sent on a trace. -/
def sentOn (t : List BusEvent) : List Byte :=
  t.filterMap fun e => match e with | .xchg o _ => some o | .sel _ => none | .desel _ => none

/-- Whether an address of chip `d` has been written, and with what. -/
def written (s : State) (d : Dev) (a : Nat) : Option Byte := (s.devMem.get d).find a

/-! ## WellFormed: the ill-formed term of each check -/

theorem test_wellFormed_refuses_read_past_the_end : (Instr.dpRead .dev0 0xFFFFFF#24 2).wellFormed = false := by decide
theorem test_wellFormed_refuses_write_past_the_end :
    (Instr.dpWrite .dev1 0xFFFFFE#24 [1#8, 2#8, 3#8]).wellFormed = false := by decide
theorem test_wellFormed_accepts_the_last_byte :
    (Instr.dpRead .dev0 0xFFFFFF#24 1).wellFormed = true ∧ (Instr.dpWrite .dev2 0xFFFFFF#24 [0#8]).wellFormed = true := by
  decide

/-! ## Decoding words written out from the spec's encodings -/

/-- R81: `op` 11, `addr` 000010, `wdata` ignored (vectors C1, C17). -/
theorem test_decode_readByte :
    decode (.host 0b11_000000000000000000010000_00000000#34) = .ok (.readByte 0x000010#24) ∧
    decode (.host 0x3000010FF#34) = .ok (.readByte 0x000010#24) := by decide
/-- R81: `op` 10, `addr` 123456, `wdata` A5 (program PR3). -/
theorem test_decode_writeByte :
    decode (.host 0b10_000100100011010001010110_10100101#34) = .ok (.writeByte 0x123456#24 0xA5#8) := by decide
/-- R81, R82: `op` 01 and 00, the rest ignored (vectors C12, C16, C15). -/
theorem test_decode_flush_nop :
    decode (.host 0x100000000#34) = .ok .flush ∧ decode (.host 0x1ABCDEF12#34) = .ok .flush ∧
    decode (.host 0x000000000#34) = .ok .nop ∧ decode (.host 0x0FFFFFFFF#34) = .ok .nop := by decide
/-- Vector P2: `03 00 01 00` and three fillers. -/
theorem test_decode_dpRead :
    decode (.wire .dev1 [0b00000011#8, 0x00#8, 0x01#8, 0x00#8, 0xFF#8, 0xFF#8, 0xFF#8]) =
      .ok (.dpRead .dev1 0x000100#24 3) := by decide
/-- Vector P7: payload bytes that look like opcodes or filler are data. -/
theorem test_decode_dpWrite :
    decode (.wire .dev0 [0b00000010#8, 0x00#8, 0x00#8, 0x00#8, 0x02#8, 0x03#8, 0xFF#8]) =
      .ok (.dpWrite .dev0 0x000000#24 [0x02#8, 0x03#8, 0xFF#8]) := by decide
/-- R84: the one-hot values and the byte out. -/
theorem test_decode_port :
    decode (.port (.lines 0b000#3 0b001#3)) = .ok (.select .dev0) ∧
    decode (.port (.lines 0b000#3 0b010#3)) = .ok (.select .dev1) ∧
    decode (.port (.lines 0b100#3 0b000#3)) = .ok (.deselect .dev2) ∧
    decode (.port (.shift 0xFF#8)) = .ok (.exchange 0xFF#8) := by decide
/-- R87: MISS has an empty encoding; its operand is passed by its caller. -/
theorem test_decode_miss : decode (.internal 0x00000B#24) = .ok (.miss 0x00000B#24) := by decide
/-- What is no encoding is rejected by name (R54, R74, R77, R84). -/
theorem test_decode_rejects :
    decode (.wire .dev0 [0x05#8, 0#8, 0#8, 0#8]) = .error (.unknownOpcode 0x05#8) ∧
    decode (.wire .dev0 [0x03#8, 0#8, 0#8]) = .error .shortFrame ∧
    decode (.wire .dev0 [0x03#8, 0#8, 0#8, 0#8, 0x00#8]) = .error .badFiller ∧
    decode (.port (.lines 0b000#3 0b011#3)) = .error (.badLines 0b000#3 0b011#3) ∧
    decode (.port (.lines 0b001#3 0b010#3)) = .error (.badLines 0b001#3 0b010#3) := by decide
/-- The ten rows of spec/opcode_table.json, by their `match` values or patterns. -/
theorem test_decodeTableWord_port_and_internal :
    decodeTableWord 3 0b010 = some (.select .dev1) ∧ decodeTableWord 3 0b000 = some (.deselect .dev0) ∧
    decodeTableWord 8 0xA7 = some (.exchange 0xA7#8) ∧ decodeTableWord 0 0 = some (.miss 0#24) := by decide
theorem test_decodeTableWord_wire_and_host :
    decodeTableWord 32 0x03123456 = some (.dpRead .dev0 0x123456#24 0) ∧
    decodeTableWord 32 0x02FFFFFF = some (.dpWrite .dev0 0xFFFFFF#24 []) ∧
    decodeTableWord 40 0x300001000 = some (.readByte 0x000010#24) ∧
    decodeTableWord 40 0x2123456A5 = some (.writeByte 0x123456#24 0xA5#8) ∧
    decodeTableWord 40 0x1ABCDEF12 = some .flush ∧ decodeTableWord 34 0 = some .nop ∧
    decodeTableWord 40 0x400000000 = none ∧ decodeTableWord 32 0x04000000 = none := by decide
/-- The header bytes of the address corner cases below vector P12. -/
theorem test_encode_headers :
    encode (.dpRead .dev0 0x800000#24 0) = .wire .dev0 [0x03#8, 0x80#8, 0x00#8, 0x00#8] ∧
    encode (.dpWrite .dev0 0x0000FF#24 []) = .wire .dev0 [0x02#8, 0x00#8, 0x00#8, 0xFF#8] ∧
    encode (.dpRead .dev0 0x010203#24 0) = .wire .dev0 [0x03#8, 0x01#8, 0x02#8, 0x03#8] := by decide
/-- R50: a host holding 0x1000010 presents the word of address 000010. -/
theorem test_host_integer_truncates : hostWordOfInt 0b11#2 0x1000010 0#8 = 0x300001000#34 := by decide

/-! ## Bus Transport (vectors T1 to T14) -/

/-- T1 to T3. -/
theorem test_select_lines :
    after (exec (.select .dev0) base) (fun t => t.cs == 0b001#3 && t.trace == [.sel .dev0]) = true ∧
    after (exec (.select .dev1) base) (fun t => t.cs == 0b010#3 && t.trace == [.sel .dev1]) = true ∧
    after (exec (.select .dev2) base) (fun t => t.cs == 0b100#3 && t.trace == [.sel .dev2]) = true := by decide
/-- T8, T9. -/
theorem test_select_overlap :
    exec (.select .dev1) (selected base .dev0 .k0) = .refused .selectOverlap ∧
    exec (.select .dev0) (selected base .dev0 .k0) = .refused .selectOverlap := ⟨rfl, rfl⟩
/-- T5, T14: chip 0 answers, chip 1 is not selected and does not. -/
theorem test_exchange_read :
    after (exec (.exchange 0xFF#8)
        (selected (holds (holds base .dev0 7 0x5A#8) .dev1 7 0xEE#8) .dev0 (.payload 0x03#8 0x000007#24 0)))
      (fun t => t.response == .byte 0x5A#8 && t.cs == 0b001#3 && t.trace == [.xchg 0xFF#8 0x5A#8]) = true := by decide
/-- T7, and T10 and T13 of the same operation. -/
theorem test_exchange_write_refuse_wait :
    after (exec (.exchange 0x00#8) (selected base .dev0 (.payload 0x02#8 0x000007#24 0)))
      (fun t => written t .dev0 7 == some 0x00#8 && sentOn t.trace == [0x00#8] && t.cs == 0b001#3) = true ∧
    exec (.exchange 0xFF#8) base = .refused .exchangeWithoutSelect ∧
    after (exec (.exchange 0x03#8) (granted (selected base .dev0 .k0) 0))
      (fun t => t.seq == .run (.exchange 0x03#8) [⟨.exchange 0x03#8, .capture⟩] 0 [] && t.cs == 0b001#3 && t.trace == [] &&
        match step t with | .fault f => f == .stuck | .next _ => false | .refused _ => false) = true :=
  ⟨by decide, rfl, by decide⟩
/-- T4. -/
theorem test_deselect :
    after (exec (.deselect .dev1) (selected base .dev1 (.payload 0x03#8 0x000007#24 1)))
      (fun t => t.cs == 0b000#3 && t.trace == [.desel .dev1] && t.nREAD == 1 && t.nWRITE == 0) = true := by decide
/-- T11, T12, and U20. -/
theorem test_deselect_refuses :
    exec (.deselect .dev0) base = .refused .deselectUnselected ∧
    exec (.deselect .dev1) (selected base .dev0 .k0) = .refused .deselectUnselected ∧
    exec (.deselect .dev0) (selected base .dev0 (.k2 0x03#8 0x00#8)) = .refused .unknownFrame := ⟨rfl, rfl, rfl⟩

/-! ## Device Protocol (vectors P1 to P12) -/

/-- P2, P3. -/
theorem test_dpRead :
    after (exec (.dpRead .dev1 0x000100#24 3)
        (holds (holds (holds base .dev1 0x100 0x10#8) .dev1 0x101 0x11#8) .dev1 0x102 0x12#8))
      (fun t => t.response == .bytes [0x10#8, 0x11#8, 0x12#8] && t.nREAD == 1 && t.trace.length == 9 &&
        sentOn t.trace == [0x03#8, 0x00#8, 0x01#8, 0x00#8, 0xFF#8, 0xFF#8, 0xFF#8]) = true ∧
    after (exec (.dpRead .dev1 0x000100#24 0) base)
      (fun t => t.response == .bytes [] && t.nREAD == 1 && t.trace.length == 6) = true := by decide
/-- P8, P9, and P10 with a chip of the whole address space. -/
theorem test_dpRead_refuses :
    exec (.dpRead .dev0 0x0001FF#24 2) base = .refused .rangeBeyondDevice ∧
    exec (.dpRead .dev0 0x000200#24 1) base = .refused .addressBeyondDevice ∧
    exec (.dpRead .dev0 0xFFFFFF#24 2) State.reset = .refused .rangeBeyondDevice := ⟨rfl, rfl, rfl⟩
/-- P4. -/
theorem test_dpWrite :
    after (exec (.dpWrite .dev1 0x000100#24 [0xDE#8, 0xAD#8]) (holds base .dev1 0x102 0x12#8))
      (fun t => written t .dev1 0x100 == some 0xDE#8 && written t .dev1 0x101 == some 0xAD#8 &&
        written t .dev1 0x102 == some 0x12#8 && t.devMem.get .dev0 == [] && t.devMem.get .dev2 == [] && t.nWRITE == 1 &&
        sentOn t.trace == [0x02#8, 0x00#8, 0x01#8, 0x00#8, 0xDE#8, 0xAD#8]) = true := by decide
/-- P6, P5. -/
theorem test_dpWrite_top_and_empty :
    after (exec (.dpWrite .dev2 0xFFFFFF#24 [0x00#8]) State.reset)
      (fun t => written t .dev2 0xFFFFFF == some 0x00#8 && t.nWRITE == 1) = true ∧
    after (exec (.dpWrite .dev1 0x000100#24 []) base)
      (fun t => t.devMem.get .dev1 == [] && t.nWRITE == 1 && t.trace.length == 6) = true := by decide

/-! ## Cached Store (vectors C1 to C24) -/

/-- The example of R126. -/
theorem test_miss :
    after (exec (.miss 0x00000B#24) (resident (holds base .dev0 0xB 0x77#8) 0x00000A#24 0x55#8 true))
      (fun t => t.slot == ⟨true, 0x00000B#24, 0x77#8, false⟩ && written t .dev0 0xA == some 0x55#8 &&
        sentOn t.trace == [0x02#8, 0x00#8, 0x00#8, 0x0A#8, 0x55#8, 0x03#8, 0x00#8, 0x00#8, 0x0B#8, 0xFF#8]) = true := by
  decide
/-- C1, C3 and C5. -/
theorem test_readByte :
    after (exec (.readByte 0x000010#24) chips)
      (fun t => t.slot == ⟨true, 0x000010#24, 0x05#8, false⟩ && t.response == .byte 0x05#8 && t.nREAD == 1) = true ∧
    after (exec (.readByte 0x000010#24) (resident chips 0x000010#24 0x06#8 true))
      (fun t => t.slot == ⟨true, 0x000010#24, 0x06#8, true⟩ && t.response == .byte 0x06#8 && t.trace == []) = true ∧
    after (exec (.readByte 0x000020#24) (resident chips 0x000010#24 0x06#8 true))
      (fun t => t.slot == ⟨true, 0x000020#24, 0xEE#8, false⟩ && t.response == .byte 0xEE#8 && t.nREAD == 1 &&
        t.nWRITE == 1 && written t .dev0 0x10 == some 0x06#8) = true := by decide
/-- C21, C20 (misses whatever the tag of an empty slot holds), C24 and C23. -/
theorem test_readByte_empty_hang_refuse :
    after (exec (.readByte 0x000010#24) { chips with slot := ⟨false, 0x000010#24, 0x99#8, false⟩ })
      (fun t => t.response == .byte 0x05#8 && t.nREAD == 1) = true ∧
    after (exec (.readByte 0x000000#24) (holds base .dev0 0 0x3C#8))
      (fun t => t.slot == ⟨true, 0x000000#24, 0x3C#8, false⟩ && t.nREAD == 1) = true ∧
    after (exec (.readByte 0x000010#24) (granted chips 2))
      (fun t => sentOn t.trace == [0x03#8, 0x00#8] && t.cs == 0b001#3 && t.slot == base.slot && t.response == .none) =
        true ∧
    exec (.readByte 0x000200#24) (resident chips 0x000010#24 0x06#8 true) = .refused .addressBeyondDevice :=
  ⟨by decide, by decide, by decide, rfl⟩
/-- C6, C8 and C9. -/
theorem test_writeByte :
    after (exec (.writeByte 0x000010#24 0x07#8) chips)
      (fun t => t.slot == ⟨true, 0x000010#24, 0x07#8, true⟩ && t.nREAD == 1 && written t .dev0 0x10 == some 0x05#8) = true ∧
    after (exec (.writeByte 0x000010#24 0x07#8) (resident chips 0x000010#24 0x06#8 true))
      (fun t => t.slot == ⟨true, 0x000010#24, 0x07#8, true⟩ && t.trace == []) = true ∧
    after (exec (.writeByte 0x000010#24 0x05#8) (resident chips 0x000010#24 0x05#8 false))
      (fun t => t.slot == ⟨true, 0x000010#24, 0x05#8, true⟩ && t.trace == []) = true := by decide
/-- C11 and C10. -/
theorem test_writeByte_miss :
    after (exec (.writeByte 0x000020#24 0xAA#8) (resident chips 0x000010#24 0x06#8 true))
      (fun t => t.slot == ⟨true, 0x000020#24, 0xAA#8, true⟩ && t.nREAD == 1 && t.nWRITE == 1 &&
        written t .dev0 0x10 == some 0x06#8 && written t .dev0 0x20 == some 0xEE#8) = true ∧
    after (exec (.writeByte 0x000020#24 0xAA#8) (resident chips 0x000010#24 0x05#8 false))
      (fun t => t.slot == ⟨true, 0x000020#24, 0xAA#8, true⟩ && t.nREAD == 1 && t.nWRITE == 0) = true := by decide
/-- C12; and by R131 a write-back stopped at its last exchange has cleared nothing and counted nothing. -/
theorem test_flush_dirty :
    after (exec .flush (resident chips 0x000010#24 0x06#8 true))
      (fun t => t.slot == ⟨true, 0x000010#24, 0x06#8, false⟩ && written t .dev0 0x10 == some 0x06#8 && t.nWRITE == 1 &&
        sentOn t.trace == [0x02#8, 0x00#8, 0x00#8, 0x10#8, 0x06#8]) = true ∧
    after (exec .flush (granted (resident chips 0x000010#24 0x06#8 true) 4))
      (fun t => t.slot == ⟨true, 0x000010#24, 0x06#8, true⟩ && written t .dev0 0x10 == some 0x05#8 && t.nWRITE == 0 &&
        t.cs == 0b001#3) = true := by decide
/-- C13, C14. -/
theorem test_flush_clean :
    after (exec .flush (resident chips 0x000010#24 0x05#8 false))
      (fun t => t.slot == ⟨true, 0x000010#24, 0x05#8, false⟩ && t.trace == [] && t.nWRITE == 0) = true ∧
    after (exec .flush base) (fun t => t.slot == base.slot && t.trace == []) = true := by decide
/-- C15. -/
theorem test_nop :
    after (exec .nop (resident chips 0x000010#24 0x06#8 true))
      (fun t => t.slot == ⟨true, 0x000010#24, 0x06#8, true⟩ && t.trace == [] && t.devMem == chips.devMem) = true := by decide

/-! ## The step and the environment -/

/-- The first instruction after reset: the word of FLUSH runs, and the word of READ_BYTE 000000 misses. -/
theorem test_withFetchWord :
    after (step (State.reset.withFetchWord 40 0x100000000)) (fun t => t.slot == State.reset.slot && t.trace == []) = true ∧
    after (step (State.reset.withFetchWord 40 0x300000000)) (fun t => t.slot.valid && t.nREAD == 1) = true := by decide
/-- Vector Q4: a reset discards a dirty byte, the chip keeps its own. -/
theorem test_reset_discards :
    after (step { resident (holds base .dev0 9 0x11#8) 0x000009#24 0x22#8 true with inputs := [.reset] })
      (fun t => !t.slot.valid && !t.slot.dirty && written t .dev0 9 == some 0x11#8 && t.trace == [] && t.nREAD == 0) =
        true := by decide
/-- Vector Q5: after OTHER's write the resident byte is stale. -/
theorem test_other_is_not_seen :
    after (step { resident chips 0x000010#24 0x05#8 false with inputs := [.other .dev0 0x000010#24 0x99#8] })
      (fun t => written t .dev0 0x10 == some 0x99#8 &&
        after (exec (.readByte 0x000010#24) t) (fun u => u.response == .byte 0x05#8)) = true := by decide
/-- R66: after a power cycle the chips hold nothing written and the board is not initialised. -/
theorem test_power_cycle :
    after (step { resident chips 0x000010#24 0x06#8 true with inputs := [.powerCycle] })
      (fun t => t.devMem == .all [] && !t.slot.valid && !t.boardInit && t.epoch == ⟨1, 1, 1⟩) = true := by decide
/-- Two steps: a stopped READ_BYTE goes on once the bus is granted (R154, R28). -/
theorem test_resume :
    after (exec (.readByte 0x000010#24) { granted chips 2 with inputs := [.grant none] })
      (fun t => after (step t) fun u => after (step u) fun w =>
        w.response == .byte 0x05#8 && w.slot == ⟨true, 0x000010#24, 0x05#8, false⟩ && w.cs == 0b000#3) = true := by decide

/-! ## Witnesses: the hypotheses of each obligation hold together, each clause at a boundary value

`base` has a chip of 512 bytes, so 0x1FF is its last address and 0x200 the first it does not have. -/

/-- A dirty byte at the chip's last address. -/
def dirty : State := resident chips 0x0001FF#24 0x06#8 true

/-- The clean byte of vector C2, equal to the chip's. -/
def clean : State := resident chips 0x000010#24 0x05#8 false

/-- `s` with chips that do not conform. -/
def faulty (s : State) : State := { s with conforms := .all false }

/-- `s` with the next inputs `xs`. -/
def facing (s : State) (xs : List Input) : State := { s with inputs := xs }

/-- READ_BYTE(000010) stopped at its third exchange (vector C24). -/
def stopped : State :=
  { selected (granted chips 0) .dev0 (.k2 0x03#8 0x00#8) with
    seq := .run (.readByte 0x000010#24) (readPlan .dev0 0x000010#24 1 (.load 0x000010#24)) 3 [] }

/-- DP_READ(0, 000100, 1) stopped at its first exchange, with a dirty byte in the slot. -/
def hungAtFirst : State :=
  { selected (granted dirty 0) .dev0 .k0 with
    seq := .run (.dpRead .dev0 0x000100#24 1) (readPlan .dev0 0x000100#24 1 .ignore) 1 [] }

/-- FLUSH of a dirty byte at 000010 stopped at its third exchange, the middle address byte. -/
def cutWrite : State :=
  { selected (granted (resident chips 0x000010#24 0x06#8 true) 0) .dev0 (.k2 0x02#8 0x00#8) with
    seq := .run .flush (writePlan .dev0 0x000010#24 [0x06#8] .clean) 3 [] }

/-- A chip that has just been selected, with the trace that says so. -/
def opened : State := { selected base .dev0 .k0 with trace := [.sel .dev0] }

theorem base_ready : base.Ready := ⟨rfl, rfl, rfl, rfl⟩
theorem dirty_ready : dirty.Ready := ⟨rfl, rfl, rfl, rfl⟩
theorem clean_ready : clean.Ready := ⟨rfl, rfl, rfl, rfl⟩
theorem faulty_ready : (faulty dirty).Ready := ⟨rfl, rfl, rfl, rfl⟩
theorem base_hostReady : base.HostReady :=
  ⟨base_ready, rfl, fun h => absurd h (by decide), fun h => absurd h (by decide), fun h => absurd h (by decide)⟩
theorem dirty_hostReady : dirty.HostReady :=
  ⟨dirty_ready, rfl, fun _ => by decide, fun _ => rfl, fun _ h => absurd h (by decide)⟩
theorem clean_hostReady : clean.HostReady :=
  ⟨clean_ready, rfl, fun _ => by decide, fun _ => rfl, fun _ _ => by decide⟩

/-- The invariant's clause on memory, for a concrete list of written bytes. -/
theorem chips_memoryOK : chips.MemoryOK := by intro d; cases d <;> decide

theorem dirty_inv : dirty.Inv where
  config := by decide
  memory := chips_memoryOK
  slot := fun _ => rfl
  bus := ⟨⟨none, 0, 0⟩, rfl, rfl, rfl, rfl, fun d => by cases d <;> rfl⟩
  frame := by intro d op a j h; cases d <;> exact absurd h (by simp [dirty, resident, chips, holds, base, State.writeByteAt,
    State.resetWith, PerDev.all, PerDev.get])
  seq := by intro i p k cap h; exact absurd h (by simp [dirty, resident, chips, holds, base, State.writeByteAt,
    State.resetWith])

theorem opened_inv : opened.Inv where
  config := by decide
  memory := by intro d; cases d <;> decide
  slot := fun h => absurd h (by decide)
  bus := ⟨⟨some (.dev0, []), 0, 0⟩, rfl, rfl, rfl, rfl, rfl, fun d h => by cases d <;> first | rfl | exact absurd rfl h⟩
  frame := by intro d op a j h; cases d <;> exact absurd h (by simp [opened, selected, base, State.resetWith, PerDev.all,
    PerDev.set, PerDev.get])
  seq := by intro i p k cap h; exact absurd h (by simp [opened, selected, base, State.resetWith])

/-! ### Encoding and step -/

theorem witness_AcceptedFrameIsEncoding :
    decode (.wire .dev2 [0x03#8, 0x12#8, 0x34#8, 0x56#8, 0xFF#8]) = .ok (.dpRead .dev2 0x123456#24 1) := by decide
theorem witness_HostIntegersTruncate : 0x1000010 % 16777216 = 0x000010 % 16777216 := by decide
theorem witness_StepRunsDecodedInstruction :
    (facing base [.present (.host 0x300000500#34)]).seq = .idle ∧
    (facing base [.present (.host 0x300000500#34)]).inputs = [.present (.host 0x300000500#34)] ∧
    decode (.host 0x300000500#34) = .ok (.readByte 0x000005#24) := by decide
theorem witness_BusyBlockRefusesCommands :
    stopped.seq = .run (.readByte 0x000010#24) (readPlan .dev0 0x000010#24 1 (.load 0x000010#24)) 3 [] := by decide
theorem witness_UnknownFramesRefused_short :
    (facing base [.present (.wire .dev0 [0x03#8, 0#8, 0#8])]).seq = .idle ∧
    (facing base [.present (.wire .dev0 [0x03#8, 0#8, 0#8])]).inputs = [.present (.wire .dev0 [0x03#8, 0#8, 0#8])] ∧
    [0x03#8, 0#8, 0#8].length < 4 := by decide
theorem witness_UnknownFramesRefused_opcode :
    (facing base [.present (.wire .dev0 [0x04#8, 0#8, 0#8, 0#8])]).seq = .idle ∧
    (facing base [.present (.wire .dev0 [0x04#8, 0#8, 0#8, 0#8])]).inputs =
      [.present (.wire .dev0 [0x04#8, 0#8, 0#8, 0#8])] ∧
    [0x04#8, 0#8, 0#8, 0#8].head? = some 0x04#8 ∧ 0x04#8 ≠ Config.opRead ∧ 0x04#8 ≠ Config.opWrite := by decide
theorem witness_OnlyHangsAreStuck :
    stopped.inputs = [] ∧ stopped.bus = some 0 ∧
    ∃ i p k cap o after, stopped.seq = .run i p k cap ∧ p[k]? = some ⟨.exchange o, after⟩ :=
  ⟨rfl, rfl, _, _, _, _, _, _, rfl, rfl⟩
theorem witness_IdleBlockWaits : base.seq = .idle ∧ base.inputs = [] := by decide

/-! ### Bus Transport -/

theorem witness_SelectAssertsOneLine : base.boardInit = true ∧ base.seq = .idle ∧ base.cs = 0b000#3 := by decide
theorem witness_SelectAssertsOneLine_overlap :
    opened.boardInit = true ∧ opened.seq = .idle ∧ opened.cs ≠ 0b000#3 := by decide
theorem witness_DeselectEndsTransaction_read :
    let s := selected base .dev2 (.payload Config.opRead 0x0001FF#24 1)
    s.boardInit = true ∧ s.seq = .idle ∧ s.cs = Dev.line .dev2 ∧
      s.devFrame.get .dev2 = .payload Config.opRead 0x0001FF#24 1 := by decide
theorem witness_DeselectEndsTransaction_write :
    let s := selected base .dev0 (.payload Config.opWrite 0x000000#24 0)
    s.boardInit = true ∧ s.seq = .idle ∧ s.cs = Dev.line .dev0 ∧
      s.devFrame.get .dev0 = .payload Config.opWrite 0x000000#24 0 := by decide
theorem witness_DeselectEndsTransaction_released :
    opened.boardInit = true ∧ opened.seq = .idle ∧ lineAsserted opened.cs .dev1 = false := by decide
theorem witness_DeselectRefusesUnknownFrame_short :
    let s := selected base .dev1 (.k3 0x03#8 0x00#8 0x01#8)
    s.boardInit = true ∧ s.seq = .idle ∧ s.cs = Dev.line .dev1 ∧
      ∃ sent : List Byte, sent.length < 4 ∧ (s.devFrame.get .dev1).matches sent :=
  ⟨rfl, rfl, rfl, [0x03#8, 0x00#8, 0x01#8], by decide, rfl⟩
theorem witness_DeselectRefusesUnknownFrame_opcode :
    let s := selected base .dev1 (.payload 0x04#8 0x000000#24 0)
    s.boardInit = true ∧ s.seq = .idle ∧ s.cs = Dev.line .dev1 ∧
      ∃ op a j, s.devFrame.get .dev1 = .payload op a j ∧ op ≠ Config.opRead ∧ op ≠ Config.opWrite :=
  ⟨rfl, rfl, rfl, _, _, _, rfl, by decide, by decide⟩
theorem witness_ExchangeTakesHeaderByte :
    opened.boardInit = true ∧ opened.seq = .idle ∧ opened.cs = Dev.line .dev0 ∧ opened.bus ≠ some 0 ∧
    opened.devFrame.get .dev0 = .k0 ∧ (selected base .dev0 (.k1 0x03#8)).devFrame.get .dev0 = .k1 0x03#8 ∧
    (selected base .dev0 (.k2 0x03#8 0x00#8)).devFrame.get .dev0 = .k2 0x03#8 0x00#8 := by decide
theorem witness_ExchangeTakesHeaderByte_last_exchange : (granted opened 1).bus ≠ some 0 := by decide
theorem witness_ExchangeCompletesAddress :
    let s := selected base .dev0 (.k3 0x03#8 0x00#8 0x01#8)
    s.boardInit = true ∧ s.seq = .idle ∧ s.cs = Dev.line .dev0 ∧ s.bus ≠ some 0 ∧
      s.devFrame.get .dev0 = .k3 0x03#8 0x00#8 0x01#8 ∧ s.Conforming .dev0 ∧
      (0x00#8).toNat * 65536 + (0x01#8).toNat * 256 + (0xFF#8).toNat < s.cfg.memSize := by decide
theorem witness_ExchangeCompletesAddress_beyond :
    let s := selected base .dev0 (.k3 0x02#8 0x00#8 0x02#8)
    s.boardInit = true ∧ s.seq = .idle ∧ s.cs = Dev.line .dev0 ∧ s.bus ≠ some 0 ∧
      s.devFrame.get .dev0 = .k3 0x02#8 0x00#8 0x02#8 ∧
      s.cfg.memSize ≤ (0x00#8).toNat * 65536 + (0x02#8).toNat * 256 + (0x00#8).toNat := by decide
theorem witness_ExchangeReadsStoredByte :
    let s := selected base .dev1 (.payload Config.opRead 0x0001FE#24 1)
    s.boardInit = true ∧ s.seq = .idle ∧ s.cs = Dev.line .dev1 ∧ s.bus ≠ some 0 ∧ s.Conforming .dev1 ∧
      s.devFrame.get .dev1 = .payload Config.opRead 0x0001FE#24 1 ∧ (0x0001FE#24).toNat + 1 < s.cfg.memSize := by decide
theorem witness_ExchangeStoresSentByte :
    let s := selected base .dev2 (.payload Config.opWrite 0x0001FF#24 0)
    s.boardInit = true ∧ s.seq = .idle ∧ s.cs = Dev.line .dev2 ∧ s.bus ≠ some 0 ∧ s.Conforming .dev2 ∧
      s.devFrame.get .dev2 = .payload Config.opWrite 0x0001FF#24 0 ∧ (0x0001FF#24).toNat + 0 < s.cfg.memSize := by decide
theorem witness_ExchangeRefusals_no_line :
    base.boardInit = true ∧ base.seq = .idle ∧ ∀ d : Dev, base.cs ≠ d.line := ⟨rfl, rfl, fun d => by cases d <;> decide⟩
theorem witness_ExchangeRefusals_beyond :
    let s := selected base .dev0 (.payload Config.opRead 0x0001FF#24 1)
    s.boardInit = true ∧ s.seq = .idle ∧ s.cs = Dev.line .dev0 ∧ s.bus ≠ some 0 ∧
      s.devFrame.get .dev0 = .payload Config.opRead 0x0001FF#24 1 ∧ 0 < 1 ∧ s.cfg.memSize ≤ (0x0001FF#24).toNat + 1 := by
  decide
theorem witness_ExchangeRefusals_unknown :
    let s := selected base .dev0 (.payload 0x04#8 0x0001FF#24 0)
    s.boardInit = true ∧ s.seq = .idle ∧ s.cs = Dev.line .dev0 ∧ s.bus ≠ some 0 ∧
      s.devFrame.get .dev0 = .payload 0x04#8 0x0001FF#24 0 ∧ 0x04#8 ≠ Config.opRead ∧ 0x04#8 ≠ Config.opWrite := by decide
theorem witness_NothingOnTheBusBeforeBoardInit :
    let s := { dirty with boardInit := false }
    s.boardInit = false ∧ s.seq = .idle ∧ s.slot.hit 0x0001FE#24 = false ∧ s.slot.dirty = true := by decide

/-! ### Device Protocol -/

theorem witness_DpReadReturnsStoredBytes :
    base.Ready ∧ base.Conforming .dev1 ∧ base.InRange 0x0001FF#24 ∧ (0x0001FF#24).toNat + 1 ≤ base.cfg.memSize :=
  ⟨base_ready, by decide⟩
theorem witness_DpWriteStoresBytes :
    base.Ready ∧ base.Conforming .dev0 ∧ base.InRange 0x0001FE#24 ∧
      (0x0001FE#24).toNat + [0xDE#8, 0xAD#8].length ≤ base.cfg.memSize := ⟨base_ready, by decide⟩
theorem witness_ProtocolRefusesBeyondDevice : base.Ready ∧ base.cfg.memSize ≤ (0x000200#24).toNat := ⟨base_ready, by decide⟩
theorem witness_ProtocolRefusesBeyondDevice_range :
    base.Ready ∧ base.InRange 0x0001FF#24 ∧ base.cfg.memSize < (0x0001FF#24).toNat + 2 ∧
      base.cfg.memSize < (0x0001FF#24).toNat + [0x01#8, 0x02#8].length := ⟨base_ready, by decide⟩
theorem witness_DpReadOfFaultyChipReturnsDraws :
    (faulty dirty).Ready ∧ ¬ (faulty dirty).Conforming .dev0 ∧ (faulty dirty).InRange 0x0001FE#24 ∧
      (0x0001FE#24).toNat + 2 ≤ (faulty dirty).cfg.memSize := ⟨faulty_ready, by decide⟩
theorem witness_DpReadAfterDpWrite :
    clean.Ready ∧ clean.Conforming .dev2 ∧ clean.InRange 0x000000#24 ∧
      (0x000000#24).toNat + [0x01#8, 0x02#8].length ≤ clean.cfg.memSize := ⟨clean_ready, by decide⟩

/-! ### Cached Store -/

theorem witness_MissWritesBackThenLoads :
    dirty.Ready ∧ dirty.Conforming dirty.cfg.devSel ∧ dirty.InRange 0x000000#24 ∧ dirty.DirtyInRange :=
  ⟨dirty_ready, by decide, by decide, fun _ => by decide⟩
theorem witness_ReadByteReturnsSlotByte :
    dirty.Ready ∧ dirty.Conforming dirty.cfg.devSel ∧ dirty.InRange 0x0001FE#24 ∧ dirty.DirtyInRange :=
  ⟨dirty_ready, by decide, by decide, fun _ => by decide⟩
theorem witness_WriteByteSetsSlotDirty :
    base.Ready ∧ base.Conforming base.cfg.devSel ∧ base.InRange 0x0001FF#24 ∧ base.DirtyInRange :=
  ⟨base_ready, by decide, by decide, fun h => absurd h (by decide)⟩
theorem witness_FlushWritesDirtyByte :
    dirty.Ready ∧ dirty.slot.dirty = true ∧ dirty.Conforming dirty.cfg.devSel ∧ dirty.InRange dirty.slot.tag :=
  ⟨dirty_ready, by decide⟩
theorem witness_FlushWritesDirtyByte_clean :
    let s := { granted clean 0 with boardInit := false }
    s.seq = .idle ∧ s.slot.dirty = false := by decide
theorem witness_NopChangesNothing : dirty.seq = .idle := by decide
theorem witness_HitsNeedNoBus : dirty.seq = .idle ∧ dirty.slot.valid = true ∧ dirty.slot.tag = 0x0001FF#24 := by decide
theorem witness_MissBeyondDeviceRefused :
    dirty.Ready ∧ dirty.Conforming dirty.cfg.devSel ∧ dirty.DirtyInRange ∧ dirty.cfg.memSize ≤ (0x000200#24).toNat ∧
      dirty.slot.hit 0x000200#24 = false := ⟨dirty_ready, by decide, fun _ => by decide, by decide, by decide⟩
theorem witness_RoundTripThroughTheSlot :
    ∃ t, exec (.writeByte 0x0001FE#24 0xC3#8) dirty = .next t ∧ t.seq = .idle := ⟨_, rfl, rfl⟩
theorem witness_EvictionWritesThenReads :
    clean.HostReady ∧ clean.InRange 0x00000A#24 ∧ clean.InRange 0x0001FF#24 ∧ 0x00000A#24 ≠ 0x0001FF#24 :=
  ⟨clean_hostReady, by decide⟩
theorem witness_CleanEvictionOnlyReads :
    clean.Ready ∧ clean.Conforming clean.cfg.devSel ∧ clean.InRange 0x0001FF#24 ∧ clean.slot.dirty = false ∧
      clean.slot.hit 0x0001FF#24 = false := ⟨clean_ready, by decide⟩
theorem witness_FlushIsIdempotent : ∃ t, exec .flush dirty = .next t ∧ t.seq = .idle := ⟨_, rfl, rfl⟩
theorem witness_FlushCannotDetectFailure :
    (faulty dirty).Ready ∧ (faulty dirty).slot.dirty = true ∧ (faulty dirty).InRange (faulty dirty).slot.tag :=
  ⟨faulty_ready, by decide⟩
theorem witness_FlushCannotDetectFailure_miss :
    let s := faulty dirty
    s.Ready ∧ s.slot.valid = true ∧ s.slot.dirty = true ∧ s.InRange s.slot.tag ∧ s.InRange 0x000000#24 ∧
      s.slot.hit 0x000000#24 = false ∧ ¬ s.Conforming s.cfg.devSel := ⟨faulty_ready, by decide⟩
theorem witness_FlushCannotDetectFailure_dpWrite :
    let s := faulty dirty
    s.Ready ∧ s.InRange 0x0001FE#24 ∧ (0x0001FE#24).toNat + [0x01#8, 0x02#8].length ≤ s.cfg.memSize ∧
      ¬ s.Conforming .dev2 := ⟨faulty_ready, by decide⟩
theorem witness_FaultyByteTakenAsData :
    let s := faulty base
    s.Ready ∧ ¬ s.Conforming s.cfg.devSel ∧ s.InRange 0x0001FF#24 ∧ s.slot.hit 0x0001FF#24 = false ∧
      s.slot.mustEvict = false := ⟨⟨rfl, rfl, rfl, rfl⟩, by decide⟩
theorem witness_BusCostOfEachCommand : dirty.HostReady ∧ dirty.InRange 0x000000#24 := ⟨dirty_hostReady, by decide⟩

/-! ### Hang, reset -/

theorem witness_HangStopsInMidFrame_first :
    let s := granted clean 0
    0 < 5 ∧ s.boardInit = true ∧ s.seq = .idle ∧ s.cs = 0b000#3 ∧ s.bus = some 0 ∧ s.Conforming s.cfg.devSel ∧
      s.InRange 0x0001FF#24 ∧ s.slot.hit 0x0001FF#24 = false ∧ s.slot.mustEvict = false := by decide
theorem witness_HangStopsInMidFrame_last :
    let s := granted base 4
    4 < 5 ∧ s.boardInit = true ∧ s.seq = .idle ∧ s.cs = 0b000#3 ∧ s.bus = some 4 ∧ s.Conforming s.cfg.devSel ∧
      s.InRange 0x000000#24 ∧ s.slot.hit 0x000000#24 = false ∧ s.slot.mustEvict = false := by decide
theorem witness_HangStopsInMidFrame_writeBack_first :
    let s := granted dirty 0
    0 < 5 ∧ s.boardInit = true ∧ s.seq = .idle ∧ s.cs = 0b000#3 ∧ s.bus = some 0 ∧ s.InRange s.slot.tag ∧
      s.slot.dirty = true ∧ s.slot.valid = true ∧ s.slot.hit 0x000000#24 = false ∧ s.Conforming s.cfg.devSel := by decide
theorem witness_HangStopsInMidFrame_writeBack_last :
    let s := granted dirty 4
    4 < 5 ∧ s.boardInit = true ∧ s.seq = .idle ∧ s.cs = 0b000#3 ∧ s.bus = some 4 ∧ s.InRange s.slot.tag ∧
      s.slot.dirty = true ∧ s.slot.valid = true ∧ s.slot.hit 0x000000#24 = false ∧ s.Conforming s.cfg.devSel := by decide
theorem witness_HangAfterWriteBack_first :
    let s := granted dirty 5
    5 ≤ 5 ∧ 5 < 10 ∧ s.boardInit = true ∧ s.seq = .idle ∧ s.cs = 0b000#3 ∧ s.bus = some 5 ∧ s.Conforming s.cfg.devSel ∧
      s.InRange 0x000000#24 ∧ s.InRange s.slot.tag ∧ s.slot.hit 0x000000#24 = false ∧ s.slot.valid = true ∧
      s.slot.dirty = true := by decide
theorem witness_HangAfterWriteBack_last :
    let s := granted dirty 9
    5 ≤ 9 ∧ 9 < 10 ∧ s.boardInit = true ∧ s.seq = .idle ∧ s.cs = 0b000#3 ∧ s.bus = some 9 ∧ s.Conforming s.cfg.devSel ∧
      s.InRange 0x0001FE#24 ∧ s.InRange s.slot.tag ∧ s.slot.hit 0x0001FE#24 = false ∧ s.slot.valid = true ∧
      s.slot.dirty = true := by decide
theorem witness_ResumedCommandEndsAsIfLive :
    ∃ t, exec (.writeByte 0x000000#24 0x07#8) { dirty with bus := some 7, inputs := [] } = .next t ∧ t.seq ≠ .idle :=
  ⟨_, rfl, fun h => by cases h⟩
theorem witness_ResetDiscardsDirtyByte :
    (facing dirty [.reset]).inputs = [.reset] ∧
    ∀ i p k cap, (facing dirty [.reset]).seq = .run i p k cap → blocked p k (facing dirty [.reset]) = true :=
  ⟨rfl, fun _ _ _ _ h => by cases h⟩
theorem witness_ResetDiscardsDirtyByte_closed : ∀ d, (facing dirty [.reset]).devFrame.get d = .closed := by
  intro d; cases d <;> rfl
/-- A READ hung at its third exchange, and one hung at its first. -/
theorem witness_ResetDiscardsDirtyByte_read :
    (stopped.cutBytes .dev0).head? = some Config.opRead ∧ (hungAtFirst.cutBytes .dev0).head? = some Config.opRead := by
  decide
theorem witness_ResetDiscardsDirtyByte_hung :
    (facing stopped [.reset]).inputs = [.reset] ∧
    ∀ i p k cap, (facing stopped [.reset]).seq = .run i p k cap → blocked p k (facing stopped [.reset]) = true :=
  ⟨rfl, fun _ _ _ _ h => by cases h; rfl⟩
theorem witness_ResetInMidWriteKeepsOtherBytes :
    (selected base .dev1 (.payload Config.opWrite 0x0001FF#24 0)).devFrame =
      (PerDev.all .closed).set .dev1 (.payload Config.opWrite 0x0001FF#24 0) := rfl
/-- One payload byte taken and the block idle: nothing is in flight. -/
theorem witness_ResetInMidWriteKeepsOtherBytes_idle :
    let s := selected base .dev1 (.payload Config.opWrite 0x0001FE#24 1)
    s.devFrame = (PerDev.all .closed).set .dev1 (.payload Config.opWrite 0x0001FE#24 1) ∧ s.seq.sending = [] ∧ 0 < 1 ∧
      (0x0001FE#24).toNat + 1 ≤ 0x1FF := ⟨rfl, by decide, by decide, by decide⟩
/-- R176, U19: of a port-built WRITE with one byte taken and none in flight, a reset opens that byte alone. -/
theorem test_reset_cuts_idle_payload :
    after (step (facing (holds (selected base .dev1 (.payload 0x02#8 0x000010#24 1)) .dev1 0x11 0x77#8) [.reset]))
      (fun t => written t .dev1 0x11 == some 0x77#8 && (t.devMem.get .dev1).length == 2 && t.cs == 0b000#3) = true := by
  decide
theorem witness_ResetInMidWriteKeepsOtherBytes_header :
    cutWrite.devFrame = (PerDev.all .closed).set .dev0 (.k2 0x02#8 0x00#8) ∧
    Frame.matches (.k2 0x02#8 0x00#8) [0x02#8, 0x00#8] ∧ [0x02#8, 0x00#8].length < 4 ∧ cutWrite.Conforming .dev0 ∧
    (cutWrite.cutBytes .dev0).take 4 = header Config.opWrite 0x000010#24 := ⟨rfl, rfl, by decide, by decide, by decide⟩
/-- R176: a READ hung at its first exchange and then reset leaves the chip's bytes; U19: a WRITE cut in its header leaves
every written byte but that at its own address. -/
theorem test_reset_cuts_frame :
    after (step (facing hungAtFirst [.reset]))
      (fun t => t.devMem == dirty.devMem && t.epoch == .all 0 && !t.slot.valid && t.cs == 0b000#3) = true ∧
    after (step (facing cutWrite [.reset]))
      (fun t => written t .dev0 0x20 == some 0xEE#8 && t.epoch == .all 0 && !t.slot.dirty &&
        t.devFrame == .all .closed) = true := by decide
theorem witness_PowerCycleLosesEverything :
    (facing dirty [.powerCycle]).inputs = [.powerCycle] ∧
    ∀ i p k cap, (facing dirty [.powerCycle]).seq = .run i p k cap → blocked p k (facing dirty [.powerCycle]) = true :=
  ⟨rfl, fun _ _ _ _ h => by cases h⟩
theorem witness_InvariantAtReset :
    ({ resetConfig with memSize := 1 } : Config).WF ∧ ({ resetConfig with memSize := 16777216 } : Config).WF := by decide

/-! ### Frames -/

theorem witness_ExecFrameOfEnvironment : ∃ t, exec (.dpRead .dev1 0x000100#24 1) dirty = .next t := ⟨_, rfl⟩
theorem witness_LowerLayersLeaveTheSlot :
    (∃ t, exec (.select .dev1) dirty = .next t) ∧ (∃ t, exec (.exchange 0x02#8) (selected dirty .dev1 .k0) = .next t) ∧
    (∃ t, exec (.deselect .dev1) (selected dirty .dev1 (.payload Config.opRead 0x000000#24 0)) = .next t) ∧
    (∃ t, exec (.dpRead .dev0 0x0001FF#24 1) dirty = .next t) ∧
    (∃ t, exec (.dpWrite .dev0 0x0001FF#24 [0x01#8]) dirty = .next t) ∧ ∃ t, exec .nop dirty = .next t :=
  ⟨⟨_, rfl⟩, ⟨_, rfl⟩, ⟨_, rfl⟩, ⟨_, rfl⟩, ⟨_, rfl⟩, ⟨_, rfl⟩⟩
theorem witness_NonStoringOperationsFrame :
    (∃ t, exec (.select .dev2) (faulty dirty) = .next t) ∧ (∃ t, exec (.dpRead .dev2 0x0001FF#24 1) (faulty dirty) = .next t) ∧
    (∃ t, exec (.deselect .dev1) (selected dirty .dev1 (.payload Config.opWrite 0x000000#24 1)) = .next t) ∧
    ∃ t, exec .nop dirty = .next t := ⟨⟨_, rfl⟩, ⟨_, rfl⟩, ⟨_, rfl⟩, ⟨_, rfl⟩⟩
theorem witness_ExchangeFrame_write :
    let s := selected dirty .dev1 (.payload Config.opWrite 0x0001FE#24 1)
    (∃ t, exec (.exchange 0x33#8) s = .next t) ∧ s.cs = Dev.line .dev1 ∧ s.Conforming .dev1 ∧
      s.devFrame.get .dev1 = .payload Config.opWrite 0x0001FE#24 1 := ⟨⟨_, rfl⟩, by decide⟩
theorem witness_ExchangeFrame_other :
    let s := selected dirty .dev1 (.payload Config.opRead 0x0001FE#24 1)
    (∃ t, exec (.exchange 0xFF#8) s = .next t) ∧ s.cs = Dev.line .dev1 ∧ s.Conforming .dev1 ∧
      ∀ a j, s.devFrame.get .dev1 ≠ .payload Config.opWrite a j :=
  ⟨⟨_, rfl⟩, by decide, by decide, fun _ _ h => absurd (Frame.payload.inj h).1 (by decide)⟩
theorem witness_DpWriteFrame :
    (∃ t, exec (.dpWrite .dev1 0x0001FE#24 [0x01#8, 0x02#8]) dirty = .next t) ∧ dirty.Conforming .dev1 :=
  ⟨⟨_, rfl⟩, by decide⟩
theorem witness_StoreOperationsFrame :
    (∃ t, exec (.miss 0x000000#24) dirty = .next t) ∧ (∃ t, exec (.readByte 0x000000#24) dirty = .next t) ∧
    (∃ t, exec (.writeByte 0x000000#24 0x01#8) clean = .next t) ∧ (∃ t, exec .flush dirty = .next t) ∧
    dirty.Conforming dirty.cfg.devSel ∧ clean.slot.dirty = false ∧ 0x1FE ≠ dirty.slot.tag.toNat :=
  ⟨⟨_, rfl⟩, ⟨_, rfl⟩, ⟨_, rfl⟩, ⟨_, rfl⟩, by decide⟩

/-! ### Whole-machine rules -/

theorem witness_StepKeepsInvariant : opened.Inv ∧ ∃ t, step opened = .next t := ⟨opened_inv, _, rfl⟩
theorem witness_StepKeepsInvariant_dirty : dirty.Inv ∧ ∃ t, step dirty = .next t := ⟨dirty_inv, _, rfl⟩
theorem witness_ConfigurationNeverChanges : ∃ t, step (facing dirty [.reset]) = .next t := ⟨_, rfl⟩
theorem witness_HostSeesByteArray :
    (Instr.writeByte 0x0001FE#24 0x01#8).isHost = true ∧ dirty.HostReady ∧
      dirty.CommandInRange (.writeByte 0x0001FE#24 0x01#8) :=
  ⟨rfl, dirty_hostReady, show dirty.InRange 0x0001FE#24 by decide⟩
theorem witness_HostSeesByteArray_read :
    (Instr.readByte 0x0001FF#24).isHost = true ∧ clean.HostReady ∧ clean.CommandInRange (.readByte 0x0001FF#24) :=
  ⟨rfl, clean_hostReady, show clean.InRange 0x0001FF#24 by decide⟩
/-- The words of S6b, as operations. -/
theorem witness_HostCommandSequenceIsArray :
    base.HostReady ∧ ∀ i ∈ [Instr.writeByte 0x000000#24 0x41#8, .writeByte 0x0001FF#24 0x42#8, .flush, .nop],
      i.isHost = true ∧ base.CommandInRange i := by
  refine ⟨base_hostReady, fun i h => ?_⟩
  simp only [List.mem_cons, List.not_mem_nil, or_false] at h
  rcases h with rfl | rfl | rfl | rfl
  · exact ⟨rfl, show base.InRange 0x000000#24 by decide⟩
  · exact ⟨rfl, show base.InRange 0x0001FF#24 by decide⟩
  · exact ⟨rfl, trivial⟩
  · exact ⟨rfl, trivial⟩
theorem witness_CostOfACommandSequence :
    clean.HostReady ∧ clean.slot.dirty = false ∧
      ∀ i ∈ [Instr.readByte 0x0001FF#24], i.isHost = true ∧ clean.CommandInRange i := by
  refine ⟨clean_hostReady, rfl, fun i h => ?_⟩
  simp only [List.mem_cons, List.not_mem_nil, or_false] at h
  subst h
  exact ⟨rfl, show clean.InRange 0x0001FF#24 by decide⟩
theorem witness_FlushIsConsistencyPoint : dirty.HostReady := dirty_hostReady
theorem witness_OtherWriterIsNotSeen :
    let s := facing clean [.other .dev0 0x0001FF#24 0x99#8]
    s.seq = .idle ∧ s.inputs = [.other .dev0 0x0001FF#24 0x99#8] ∧ s.InRange 0x0001FF#24 ∧ s.slot.valid = true ∧
      s.slot.tag = 0x000010#24 := by decide
theorem witness_EmptySlotBitsUnread : base.slot.valid = false ∧ base.slot.dirty = false := by decide

end Sys2Proof.Tests
end

section
/-! PROOF of O59. The parameters `CS_ACTIVE_LEVEL`, `BIT_ORDER` and `CLOCK_MODE` are unread (R9): every part of a step
commutes with a change of them, from the sequencer up to the turn. The transport below it is `unseen_withElectrical`. -/

namespace Sys2Proof.Machine

section
variable (level : Bool) (order : BitOrder) (mode : Fin 4)

/-! ## Operations -/

theorem complete_withElectrical (i : Instr) (cap : List Byte) (s : State) :
    complete i cap (s.withElectrical level order mode) = (complete i cap s).withElectrical level order mode := by
  cases i <;> rfl

theorem drive_withElectrical (i : Instr) (p : Plan) (k : Nat) (cap : List Byte) (rest : Plan) (s : State) :
    drive i p k cap rest (s.withElectrical level order mode) =
      mapNext (State.withElectrical level order mode) (drive i p k cap rest s) := by
  induction rest generalizing k cap s with
  | nil => exact congrArg _ (complete_withElectrical level order mode i cap s)
  | cons x rest ih =>
    have hp := (unseen_withElectrical level order mode).perform x.op s
    cases hx : perform x.op s with
    | refused r =>
      rw [hx] at hp
      rw [drive_cons_refused hp, drive_cons_refused hx]; rfl
    | waiting =>
      rw [hx] at hp
      rw [drive_cons_waiting hp, drive_cons_waiting hx]; rfl
    | done s' b =>
      rw [hx] at hp
      rw [drive_cons_done hp, drive_cons_done hx, ← ih]; rfl

theorem start_withElectrical (i : Instr) (p : Plan) (s : State) :
    start i p (s.withElectrical level order mode) =
      mapNext (State.withElectrical level order mode) (start i p s) := by
  cases hs : s.seq with
  | idle =>
    have hs' : (s.withElectrical level order mode).seq = .idle := hs
    rw [start_idle hs', start_idle hs, drive_withElectrical]
  | run i' p' k cap =>
    have hs' : (s.withElectrical level order mode).seq = .run i' p' k cap := hs
    rw [start_busy hs', start_busy hs]; rfl

/-- Of the parameters, an operation's plan depends on `DEV_SEL` alone (R131). -/
theorem planOf_withElectrical (i : Instr) (s : State) :
    planOf i (s.withElectrical level order mode) = planOf i s := by
  cases i <;> rfl

theorem exec_withElectrical (i : Instr) (s : State) :
    exec i (s.withElectrical level order mode) = mapNext (State.withElectrical level order mode) (exec i s) := by
  rw [exec_eq_start, exec_eq_start, planOf_withElectrical, start_withElectrical]

/-! ## Reset -/

theorem scramble_withElectrical (d : Dev) (a n : Nat) (s : State) :
    scramble d a n (s.withElectrical level order mode) = (scramble d a n s).withElectrical level order mode := by
  induction n generalizing a s with
  | zero => rfl
  | succ n ih =>
    rw [scramble, scramble, (unseen_withElectrical level order mode).memSize, ← ih]
    split <;> rfl

theorem cutHeader_withElectrical (d : Dev) (s : State) :
    cutHeader d (s.withElectrical level order mode) = (cutHeader d s).withElectrical level order mode := by
  have hbytes : (s.withElectrical level order mode).cutBytes d = s.cutBytes d := rfl
  unfold cutHeader
  rw [hbytes]
  split
  · rw [scramble_withElectrical, (unseen_withElectrical level order mode).forgetUnlessConforming]
  · rfl

theorem cutCommand_withElectrical (d : Dev) (op : Byte) (known s : State) :
    cutCommand d op (known.withElectrical level order mode) (s.withElectrical level order mode) =
      (cutCommand d op known s).withElectrical level order mode := by
  unfold cutCommand
  split <;> rfl

theorem cutFrame_withElectrical (d : Dev) (s : State) :
    cutFrame d (s.withElectrical level order mode) = (cutFrame d s).withElectrical level order mode := by
  have hseq : (s.withElectrical level order mode).seq = s.seq := rfl
  unfold cutFrame
  rw [(unseen_withElectrical level order mode).devFrame, hseq, cutHeader_withElectrical]
  cases s.devFrame.get d with
  | closed => rfl
  | k0 => rfl
  | k1 op => exact cutCommand_withElectrical ..
  | k2 op b2 => exact cutCommand_withElectrical ..
  | k3 op b2 b1 => exact cutCommand_withElectrical ..
  | payload op a j =>
    dsimp only
    rw [scramble_withElectrical, ← cutCommand_withElectrical]
    split <;> rfl

theorem resetBlock_withElectrical (s : State) :
    resetBlock (s.withElectrical level order mode) = (resetBlock s).withElectrical level order mode := by
  unfold resetBlock cutFrames
  simp only [cutFrame_withElectrical]
  rfl

theorem powerCycle_withElectrical (s : State) :
    powerCycle (s.withElectrical level order mode) = (powerCycle s).withElectrical level order mode := by
  unfold powerCycle
  rw [resetBlock_withElectrical]
  rfl

/-! ## Turns -/

theorem applyInput_withElectrical (x : Input) (s : State) :
    (applyInput x (s.withElectrical level order mode)).finish =
      mapNext (State.withElectrical level order mode) (applyInput x s).finish := by
  cases x with
  | present r =>
    simp only [applyInput]
    cases decode r with
    | ok i => exact exec_withElectrical level order mode i s
    | error e => rfl
  | other d a v =>
    simp only [applyInput, (unseen_withElectrical level order mode).memSize]
    split <;> rfl
  | reset => exact congrArg Host.Outcome.next (resetBlock_withElectrical level order mode s)
  | powerCycle => exact congrArg Host.Outcome.next (powerCycle_withElectrical level order mode s)
  | boardInit => rfl
  | grant n => rfl
  | conform d b => rfl

theorem step_withElectrical (s : State) :
    step (s.withElectrical level order mode) = mapNext (State.withElectrical level order mode) (step s) := by
  rcases step_cases s with ⟨hs, hi, h⟩ | ⟨x, rest, hw, hi, h⟩ | ⟨i, p, k, cap, hs, hb, hi, h⟩ | ⟨i, p, k, cap, hs, hb, h⟩
  · rw [h, step_idle_nil (s := s.withElectrical level order mode) hs hi]; rfl
  · rw [h, step_input (s := s.withElectrical level order mode) hw hi]
    exact applyInput_withElectrical level order mode x { s with inputs := rest }
  · rw [h, step_stopped_nil (s := s.withElectrical level order mode) hs hb hi]; rfl
  · rw [h, step_resumes (s := s.withElectrical level order mode) hs hb]
    exact drive_withElectrical level order mode i p k cap (p.drop k) (s.setSeq .idle)

end

/-- Settles O59: each of the four kinds of step commutes with the change of the three parameters. -/
theorem electricalParametersUnread : Obligations.ElectricalParametersUnread :=
  step_withElectrical

end Sys2Proof.Machine
end

section
/-! PROOF of O52 and O45. The invariant: an operation keeps it, done or stopped; each input keeps it; a reset
establishes its bus, frame and sequencer clauses anew from the memory it leaves. -/

namespace Sys2Proof.Machine

/-- The invariant is its core and the clause about `seq`. -/
theorem State.inv_iff {s : State} : s.Inv ↔ s.InvCore ∧ s.SeqOK :=
  ⟨fun h => ⟨⟨h.config, h.memory, h.slot, h.bus, h.frame⟩, h.seq⟩,
    fun ⟨c, q⟩ => ⟨c.config, c.memory, c.slot, c.bus, c.frame, q⟩⟩

theorem State.seqOK_of_idle {s : State} (h : s.seq = .idle) : s.SeqOK := by
  intro i p k cap hr
  rw [h] at hr
  cases hr

/-! ## Operations -/

/-- Where a transport operation waits, the hang is at an exchange with a line asserted (R100, R154). -/
theorem hang_seqOK {i : Instr} {p : Plan} {k : Nat} {cap : List Byte} {x : PlanStep} {s : State}
    (hx : p[k]? = some x) (hw : perform x.op s = .waiting) : (hang i p k cap s).SeqOK := by
  obtain ⟨o, d, ho, hb, hd, -⟩ := perform_waiting hw
  intro i' p' k' cap' hq
  cases hq
  refine ⟨⟨o, x.after, by rw [hx, ← ho]⟩, hb, ?_⟩
  show s.cs ≠ _
  rw [Dev.line_of_ofLine? hd]
  exact d.line_ne_zero

theorem complete_seq (i : Instr) (cap : List Byte) (s : State) : (complete i cap s).seq = s.seq := by
  cases i <;> rfl

/-- The rest of an operation, started or resumed, keeps the invariant. -/
theorem drive_keepsInv {i : Instr} {p : Plan} {k : Nat} {cap : List Byte} {s t : State} (hk : k ≤ p.length)
    (hs : s.InvCore) (hq : s.seq = .idle) (h : drive i p k cap (p.drop k) s = .next t) : t.Inv := by
  refine drive_carries (P := fun _ _ u => u.InvCore ∧ u.seq = .idle) (Q := State.Inv) i p ?_ ?_ ?_ hk rfl ⟨hs, hq⟩ h
  · intro k cap x u u' b _ hp ⟨hu, hi⟩
    exact ⟨slotAfter_keepsInv (perform_keepsInv hp hu), (perform_kept hp).2.2.trans hi⟩
  · intro cap u ⟨hu, hi⟩
    exact State.inv_iff.2 ⟨complete_keepsInv hu, State.seqOK_of_idle ((complete_seq i cap u).trans hi)⟩
  · intro k cap x u hx hw ⟨hu, _⟩
    exact State.inv_iff.2 ⟨⟨hu.config, hu.memory, hu.slot, hu.bus, hu.frame⟩, hang_seqOK hx hw⟩

theorem exec_keepsInv {i : Instr} {s t : State} (hs : s.Inv) (h : exec i s = .next t) : t.Inv := by
  rw [exec_eq_start] at h
  obtain ⟨hi, hd⟩ := idle_of_start_next h
  exact drive_keepsInv (Nat.zero_le _) (State.inv_iff.1 hs).1 hi hd

/-! ## Reset -/

/-- A state with a legal configuration, memory in order, an empty trace and everything released meets the invariant. -/
theorem State.inv_of_cleared {s : State} (hc : s.cfg.WF) (hm : s.MemoryOK) (hd : s.slot.dirty = false)
    (hcs : s.cs = 0b000#3) (hq : s.seq = .idle) (hf : s.devFrame = .all .closed) (ht : s.trace = [])
    (hr : s.nREAD = 0) (hw : s.nWRITE = 0) : s.Inv where
  config := hc
  memory := hm
  slot h := by rw [hd] at h; cases h
  bus := ⟨⟨none, 0, 0⟩, by rw [ht]; rfl, hr.symm, hw.symm, hcs, fun d => by rw [hf, PerDev.get_all]⟩
  frame d op a j h := by rw [hf, PerDev.get_all] at h; cases h
  seq := State.seqOK_of_idle hq

theorem memoryOK_nil {s : State} (h : s.devMem = .all []) : s.MemoryOK := by
  intro d
  rw [h, PerDev.get_all]
  exact ⟨List.Pairwise.nil, by simp⟩

theorem resetWith_inv {c : Config} (h : c.WF) : (State.resetWith c).Inv :=
  State.inv_of_cleared h (memoryOK_nil rfl) rfl rfl rfl rfl rfl rfl rfl

theorem resetBlock_keepsInv {s : State} (hs : s.Inv) : (resetBlock s).Inv := by
  have hm : (cutFrames s).MemoryOK := memoryOK_cutFrame _ (memoryOK_cutFrame _ (memoryOK_cutFrame _ hs.memory))
  exact State.inv_of_cleared (by rw [resetBlock_cfg]; exact hs.config) hm rfl rfl rfl rfl rfl rfl rfl

theorem powerCycle_keepsInv {s : State} (hs : s.Inv) : (powerCycle s).Inv :=
  State.inv_of_cleared (resetBlock_keepsInv hs).config (memoryOK_nil rfl) rfl rfl rfl rfl rfl rfl rfl

theorem reset_hostReady : State.reset.HostReady where
  ready := ⟨rfl, rfl, rfl, rfl⟩
  conforms := rfl
  inRange h := by cases h
  dirtyValid h := by cases h
  coherent h := by cases h

/-- Settles O45: after reset nothing is written, sent or asserted, and the slot is empty. -/
theorem invariantAtReset : Obligations.InvariantAtReset :=
  ⟨fun _ h => resetWith_inv h, resetWith_inv (by decide), reset_hostReady⟩

/-! ## The step -/

theorem State.Inv.withInputs {s : State} (h : s.Inv) (xs : List Input) : { s with inputs := xs }.Inv :=
  ⟨h.config, h.memory, h.slot, h.bus, h.frame, h.seq⟩

theorem applyInput_keepsInv {x : Input} {s t : State} (hs : s.Inv) (h : (applyInput x s).finish = .next t) : t.Inv := by
  rcases applyInput_next h with ⟨r, i, -, -, h⟩ | ⟨-, rfl⟩ | ⟨n, -, rfl⟩ | ⟨d, a, v, -, ha, rfl⟩ | ⟨d, b, -, rfl⟩ |
    ⟨-, rfl⟩ | ⟨-, rfl⟩
  · exact exec_keepsInv hs h
  · refine ⟨hs.config, hs.memory, hs.slot, hs.bus, hs.frame, fun i p k cap hr => ?_⟩
    obtain ⟨hx, -, hc⟩ := hs.seq i p k cap hr
    exact ⟨hx, rfl, hc⟩
  · exact ⟨hs.config, hs.memory, hs.slot, hs.bus, hs.frame, hs.seq⟩
  · exact ⟨hs.config, State.memoryOK_writeByteAt hs.memory d v ha, hs.slot, hs.bus, hs.frame, hs.seq⟩
  · exact ⟨hs.config, hs.memory, hs.slot, hs.bus, hs.frame, hs.seq⟩
  · exact resetBlock_keepsInv hs
  · exact powerCycle_keepsInv hs

/-- A stopped operation stands inside its plan. -/
theorem State.SeqOK.le_length {s : State} (h : s.SeqOK) {i : Instr} {p : Plan} {k : Nat} {cap : List Byte}
    (hr : s.seq = .run i p k cap) : k ≤ p.length := by
  obtain ⟨⟨o, after, hp⟩, -⟩ := h i p k cap hr
  exact Nat.le_of_lt (List.getElem?_eq_some_iff.1 hp).1

theorem step_keepsInv {s t : State} (hs : s.Inv) (h : step s = .next t) : t.Inv := by
  rcases step_cases s with ⟨-, -, e⟩ | ⟨x, rest, -, -, e⟩ | ⟨i, p, k, cap, -, -, -, e⟩ | ⟨i, p, k, cap, hr, -, e⟩ <;>
    rw [e] at h
  · injection h with h
    exact h ▸ hs
  · exact applyInput_keepsInv (hs.withInputs rest) h
  · cases h
  · have hc : (s.setSeq .idle).InvCore := ⟨hs.config, hs.memory, hs.slot, hs.bus, hs.frame⟩
    exact drive_keepsInv (hs.seq.le_length hr) hc rfl h

/-- Settles O52: a step waits, applies an input, or runs the rest of an operation, and each keeps the invariant. -/
theorem stepKeepsInvariant : Obligations.StepKeepsInvariant := fun _ _ => step_keepsInv

end Sys2Proof.Machine
end

section
/-! PROOF of O46, O47 and O53. What an operation leaves alone (R16, R17, R30): the environment's fields always, the slot
where no step of its plan treats it, the configuration in every step. -/

namespace Sys2Proof.Machine

theorem exec_kept {i : Instr} {s t : State} (h : exec i s = .next t) : Kept s t := by
  rw [exec_eq_start] at h
  exact drive_kept (Nat.zero_le _) (idle_of_start_next h).2

/-- Settles O46: every transport operation of a plan keeps these fields, and so does the plan. -/
theorem execFrameOfEnvironment : Obligations.ExecFrameOfEnvironment := by
  intro i s t h
  have hk := exec_kept h
  exact ⟨hk.cfg, hk.boardInit, hk.conforms, hk.inputs, hk.trace, hk.nREAD, hk.nWRITE, hk.draws⟩

/-! ## The slot -/

/-- A plan step whose return leaves the slot alone. -/
def PlanStep.SparesSlot (x : PlanStep) : Prop := x.after = .ignore ∨ x.after = .capture

theorem PlanStep.SparesSlot.slotAfter {x : PlanStep} (h : x.SparesSlot) (cap : List Byte) (y : Slot) :
    slotAfter x.after cap y = y := by
  rcases h with h | h <;> rw [h] <;> rfl

theorem PlanStep.SparesSlot.ne_load {x : PlanStep} (h : x.SparesSlot) (a : Addr) : x.after ≠ .load a := by
  rcases h with h | h <;> rw [h] <;> nofun

theorem exchanges_spareSlot {bytes : List Byte} {after : OnReturn} (h : after = .ignore ∨ after = .capture) :
    ∀ x ∈ exchanges bytes after, x.SparesSlot := by
  intro x hx
  obtain ⟨b, -, rfl⟩ := List.mem_map.1 hx
  exact h

/-- A read transaction before its DESELECT. -/
def readFront (d : Dev) (a : Addr) (n : Nat) : Plan :=
  ⟨.select d, .ignore⟩ :: (exchanges (header Config.opRead a) .ignore ++
    exchanges (List.replicate n Config.filler) .capture)

theorem readPlan_eq_front (d : Dev) (a : Addr) (n : Nat) (last : OnReturn) :
    readPlan d a n last = readFront d a n ++ [⟨.deselect d, last⟩] := by
  simp [readPlan, readFront]

theorem readFront_sparesSlot (d : Dev) (a : Addr) (n : Nat) : ∀ x ∈ readFront d a n, x.SparesSlot :=
  List.forall_mem_cons.2 ⟨.inl rfl,
    List.forall_mem_append.2 ⟨exchanges_spareSlot (.inl rfl), exchanges_spareSlot (.inr rfl)⟩⟩

theorem readPlan_sparesSlot (d : Dev) (a : Addr) (n : Nat) : ∀ x ∈ readPlan d a n .ignore, x.SparesSlot := by
  rw [readPlan_eq_front]
  exact List.forall_mem_append.2 ⟨readFront_sparesSlot d a n, List.forall_mem_singleton.2 (.inl rfl)⟩

theorem writePlan_sparesSlot (d : Dev) (a : Addr) (data : List Byte) :
    ∀ x ∈ writePlan d a data .ignore, x.SparesSlot :=
  List.forall_mem_cons.2 ⟨.inl rfl,
    List.forall_mem_append.2 ⟨exchanges_spareSlot (.inl rfl),
      List.forall_mem_append.2 ⟨exchanges_spareSlot (.inl rfl), List.forall_mem_singleton.2 (.inl rfl)⟩⟩⟩

/-- A plan that treats the slot at no step, of an operation that stores nothing in it at its end, leaves it alone. -/
theorem exec_slot {i : Instr} {s t : State} (hp : ∀ x ∈ planOf i s, x.SparesSlot)
    (hc : ∀ (cap : List Byte) (u : State), (complete i cap u).slot = u.slot) (h : exec i s = .next t) :
    t.slot = s.slot := by
  rw [exec_eq_start] at h
  refine drive_keeps (P := fun u => u.slot = s.slot) i (planOf i s) ?_ ?_ ?_ ?_ (Nat.zero_le _) rfl
    (idle_of_start_next h).2
  · intro x u u' b _ hd hu
    exact (perform_kept hd).2.1.trans hu
  · intro x u cap hx hu
    exact ((hp x hx).slotAfter cap u.slot).trans hu
  · intro u cap hu
    exact (hc cap u).trans hu
  · intro u k x cap _ _ hu
    exact hu

/-- Settles O47: the plans of the six operations treat the slot at no step. -/
theorem lowerLayersLeaveTheSlot : Obligations.LowerLayersLeaveTheSlot := by
  rintro i s t h (⟨d, rfl⟩ | ⟨o, rfl⟩ | ⟨d, rfl⟩ | ⟨d, a, n, rfl⟩ | ⟨d, a, data, rfl⟩ | rfl)
  · exact exec_slot (List.forall_mem_singleton.2 (.inl rfl)) (fun _ _ => rfl) h
  · exact exec_slot (List.forall_mem_singleton.2 (.inr rfl)) (fun _ _ => rfl) h
  · exact exec_slot (List.forall_mem_singleton.2 (.inl rfl)) (fun _ _ => rfl) h
  · exact exec_slot (i := .dpRead d a n) (readPlan_sparesSlot d a n) (fun _ _ => rfl) h
  · exact exec_slot (i := .dpWrite d a data) (writePlan_sparesSlot d a data) (fun _ _ => rfl) h
  · exact exec_slot (List.forall_mem_nil _) (fun _ _ => rfl) h

/-! ## The configuration -/

theorem applyInput_cfg {x : Input} {s t : State} (h : (applyInput x s).finish = .next t) : t.cfg = s.cfg := by
  rcases applyInput_next h with ⟨r, i, -, -, h⟩ | ⟨-, rfl⟩ | ⟨n, -, rfl⟩ | ⟨d, a, v, -, -, rfl⟩ | ⟨d, b, -, rfl⟩ |
    ⟨-, rfl⟩ | ⟨-, rfl⟩
  · exact (exec_kept h).cfg
  · rfl
  · rfl
  · rfl
  · rfl
  · exact resetBlock_cfg s
  · exact resetBlock_cfg s

/-- Nothing stands beyond the end of a plan, so an operation resumed there is one resumed at its end. -/
theorem drive_kept_of_any {i : Instr} {p : Plan} {k : Nat} {cap : List Byte} {s t : State}
    (h : drive i p k cap (p.drop k) s = .next t) : Kept s t := by
  by_cases hk : k ≤ p.length
  · exact drive_kept hk h
  · rw [List.drop_eq_nil_of_le (Nat.le_of_not_le hk), drive_nil] at h
    injection h with h
    exact h ▸ complete_kept i cap s

/-- Settles O53: neither an operation, started or resumed, nor an input writes the configuration. -/
theorem configurationNeverChanges : Obligations.ConfigurationNeverChanges := by
  intro s t h
  rcases step_cases s with ⟨-, -, e⟩ | ⟨x, rest, -, -, e⟩ | ⟨i, p, k, cap, -, -, -, e⟩ | ⟨i, p, k, cap, -, -, e⟩ <;>
    rw [e] at h
  · injection h with h
    rw [h]
  · exact applyInput_cfg (s := { s with inputs := rest }) h
  · cases h
  · exact (drive_kept_of_any h).cfg

end Sys2Proof.Machine
end

section
/-! PROOF of O54 and O55. To the host the block is a byte array (R25): a write-back, a load, and so the access step of
READ_BYTE and WRITE_BYTE leave the state host-ready and `AM` as it was; the commands add to that what they write. -/

namespace Sys2Proof.Machine

/-! ## The memory the host sees -/

theorem State.am_resident {s : State} {a : Addr} (hv : s.slot.valid = true) (ht : s.slot.tag = a) :
    s.am a = s.slot.value := if_pos ⟨hv, ht⟩

theorem State.am_not_resident {s : State} {a : Addr} (h : ¬ (s.slot.valid = true ∧ s.slot.tag = a)) :
    s.am a = s.byteAt s.cfg.devSel a.toNat := if_neg h

/-- While the slot is clean the chip holds what the host sees (R24). -/
theorem State.Coherent.am_eq_byteAt {s : State} (hc : s.Coherent) (hd : s.slot.dirty = false) (a : Addr) :
    s.am a = s.byteAt s.cfg.devSel a.toNat := by
  by_cases h : s.slot.valid = true ∧ s.slot.tag = a
  · obtain ⟨hv, ht⟩ := h
    rw [State.am_resident hv ht, ← ht, hc hv hd]
  · exact State.am_not_resident h

theorem State.HostReady.dirtyInRange {s : State} (h : s.HostReady) : s.DirtyInRange :=
  fun hd => h.inRange (h.dirtyValid hd)

/-! ## Responding -/

theorem State.HostReady.respond {s : State} (h : s.HostReady) (r : Response) : (s.respond r).HostReady :=
  ⟨⟨h.ready.board, h.ready.idle, h.ready.released, h.ready.live⟩, h.conforms, h.inRange, h.dirtyValid, h.coherent⟩

theorem State.HostReady.respondDraw {s : State} (h : s.HostReady) : s.respondDraw.HostReady :=
  ⟨⟨h.ready.board, h.ready.idle, h.ready.released, h.ready.live⟩, h.conforms, h.inRange, h.dirtyValid, h.coherent⟩

@[simp] theorem State.am_respond (s : State) (r : Response) (x : Addr) : (s.respond r).am x = s.am x := rfl

@[simp] theorem State.am_respondDraw (s : State) (x : Addr) : s.respondDraw.am x = s.am x := rfl

/-! ## A write-back, a load, an access, a store -/

/-- After a write-back the chip agrees with the slot. -/
theorem State.afterWriteBack_coherent (s : State) : s.afterWriteBack.Coherent := by
  intro _ _
  simp [State.byteAt_afterWriteBack]

theorem State.HostReady.afterWriteBack {s : State} (h : s.HostReady) : s.afterWriteBack.HostReady where
  ready := h.ready.afterWriteBack
  conforms := by simpa [State.Conforming] using h.conforms
  inRange hv := by simpa [State.InRange] using h.inRange hv
  dirtyValid hd := by cases hd
  coherent := s.afterWriteBack_coherent

theorem State.am_afterWriteBack {s : State} (hv : s.slot.valid = true) (x : Addr) : s.afterWriteBack.am x = s.am x := by
  by_cases hx : s.slot.tag = x
  · rw [State.am_resident hv hx]
    exact State.am_resident hv hx
  · have hne : ¬ (s.slot.valid = true ∧ s.slot.tag = x) := fun h => hx h.2
    have hx' : x.toNat ≠ s.slot.tag.toNat := fun e => hx (BitVec.eq_of_toNat_eq e).symm
    rw [State.am_not_resident hne, State.am_not_resident (s := s.afterWriteBack) hne, State.byteAt_afterWriteBack,
      if_neg fun h => hx' h.2, State.afterWriteBack_cfg]

theorem State.HostReady.afterLoad {s : State} (h : s.HostReady) {a : Addr} (ha : s.InRange a) :
    (s.afterLoad a).HostReady where
  ready := h.ready.afterLoad a
  conforms := h.conforms
  inRange _ := ha
  dirtyValid _ := rfl
  coherent _ _ := rfl

/-- Replacing a clean byte by the chip's byte at `a` is not seen: both are what the chip holds. -/
theorem State.am_afterLoad {s : State} (hc : s.Coherent) (hd : s.slot.dirty = false) (a x : Addr) :
    (s.afterLoad a).am x = s.am x := by
  have hl : (s.afterLoad a).Coherent := fun _ _ => rfl
  rw [hc.am_eq_byteAt hd, hl.am_eq_byteAt rfl]
  rfl

theorem State.afterAccess_resident (s : State) (a : Addr) :
    (s.afterAccess a).slot.valid = true ∧ (s.afterAccess a).slot.tag = a := by
  rcases afterAccess_cases s a with ⟨hh, e⟩ | ⟨-, -, e⟩ | ⟨-, -, e⟩ <;> rw [e]
  · simpa [Slot.hit] using hh
  · exact ⟨rfl, rfl⟩
  · exact ⟨rfl, rfl⟩

theorem State.afterAccess_cfg (s : State) (a : Addr) : (s.afterAccess a).cfg = s.cfg := by
  rcases afterAccess_cases s a with ⟨-, e⟩ | ⟨-, -, e⟩ | ⟨-, -, e⟩ <;> rw [e]
  · rw [State.afterLoad_cfg, State.afterWriteBack_cfg]
  · rfl

/-- The access step leaves the state host-ready and `AM` as it was (R57). -/
theorem State.HostReady.afterAccess {s : State} (h : s.HostReady) {a : Addr} (ha : s.InRange a) :
    (s.afterAccess a).HostReady ∧ ∀ x, (s.afterAccess a).am x = s.am x := by
  rcases afterAccess_cases s a with ⟨-, e⟩ | ⟨-, hm, e⟩ | ⟨-, hm, e⟩ <;> rw [e]
  · exact ⟨h, fun _ => rfl⟩
  · obtain ⟨hv, -⟩ : s.slot.valid = true ∧ s.slot.dirty = true := by simpa [Slot.mustEvict] using hm
    have hw := h.afterWriteBack
    refine ⟨hw.afterLoad (by simpa [State.InRange] using ha), fun x => ?_⟩
    rw [State.am_afterLoad hw.coherent rfl, State.am_afterWriteBack hv]
  · have hd : s.slot.dirty = false := by
      cases hd : s.slot.dirty with
      | false => rfl
      | true => simp [Slot.mustEvict, h.dirtyValid hd, hd] at hm
    exact ⟨h.afterLoad ha, State.am_afterLoad h.coherent hd a⟩

theorem State.HostReady.store {s : State} (h : s.HostReady) {a : Addr} (ha : s.InRange a) (v : Byte) :
    (s.setSlot (s.slot.store a v)).HostReady where
  ready := ⟨h.ready.board, h.ready.idle, h.ready.released, h.ready.live⟩
  conforms := h.conforms
  inRange _ := ha
  dirtyValid _ := rfl
  coherent _ hd := by cases hd

/-- Where the slot is already resident for `a`, WRITE_BYTE's assignment changes `AM` at `a` and nowhere else. -/
theorem State.am_store {s : State} {a : Addr} (ht : s.slot.tag = a) (v : Byte) (x : Addr) :
    (s.setSlot (s.slot.store a v)).am x = if x = a then v else s.am x := by
  by_cases hx : x = a
  · rw [if_pos hx]
    exact State.am_resident rfl hx.symm
  · rw [if_neg hx, State.am_not_resident fun h => hx (h.2.symm.trans ht)]
    exact State.am_not_resident fun h => hx h.2.symm

/-! ## The four host commands -/

theorem exec_readByte_hostReady {s : State} (h : s.HostReady) {a : Addr} (ha : s.InRange a) :
    exec (.readByte a) s = .next ((s.afterAccess a).respond (.byte (s.am a))) := by
  obtain ⟨cap, hd⟩ := drive_accessPlan (i := .readByte a) (p := accessPlan a s) (k := 0) h.ready h.conforms ha
    h.dirtyInRange
  obtain ⟨hv, ht⟩ := s.afterAccess_resident a
  rw [exec_eq_start, start_idle h.ready.idle]
  refine hd.trans (congrArg (fun b => Host.Outcome.next ((s.afterAccess a).respond (.byte b))) ?_)
  rw [← (h.afterAccess ha).2 a, State.am_resident hv ht]

theorem exec_writeByte_hostReady {s : State} (h : s.HostReady) {a : Addr} (ha : s.InRange a) (v : Byte) :
    exec (.writeByte a v) s =
      .next ((s.afterAccess a).setSlot ((s.afterAccess a).slot.store a v)).respondDraw := by
  obtain ⟨cap, hd⟩ := drive_accessPlan (i := .writeByte a v) (p := accessPlan a s) (k := 0) h.ready h.conforms ha
    h.dirtyInRange
  rw [exec_eq_start, start_idle h.ready.idle]
  exact hd

theorem exec_flush_dirty {s : State} (h : s.HostReady) (hd : s.slot.dirty = true) :
    exec .flush s = .next s.afterWriteBack.respondDraw := by
  have hp : planOf .flush s = writeBackPlan s ++ [] := by
    rw [List.append_nil]
    exact if_pos hd
  rw [exec_eq_start, start_idle h.ready.idle, hp, drive_writeBackPlan h.ready h.conforms (h.dirtyInRange hd)]
  rfl

theorem exec_flush_clean {s : State} (h : s.HostReady) (hd : s.slot.dirty = false) :
    exec .flush s = .next s.respondDraw := by
  have hp : planOf .flush s = [] := if_neg (by simp [Slot.mustFlush, hd])
  rw [exec_eq_start, start_idle h.ready.idle, hp]
  rfl

theorem exec_nop_idle {s : State} (h : s.seq = .idle) : exec .nop s = .next s.respondDraw := by
  rw [exec_eq_start, start_idle h]
  rfl

/-- FLUSH leaves a clean slot, and `AM` as it was. -/
theorem exec_flush_hostReady {s : State} (h : s.HostReady) :
    ∃ t, exec .flush s = .next t ∧ t.HostReady ∧ t.slot.dirty = false ∧ ∀ x, t.am x = s.am x := by
  cases hd : s.slot.dirty with
  | true => exact ⟨_, exec_flush_dirty h hd, h.afterWriteBack.respondDraw, rfl, State.am_afterWriteBack (h.dirtyValid hd)⟩
  | false => exact ⟨_, exec_flush_clean h hd, h.respondDraw, hd, fun _ => rfl⟩

/-- Settles O54: each command is an access or a write-back, which are not seen, and what it writes itself. -/
theorem hostSeesByteArray : Obligations.HostSeesByteArray := by
  intro i s hi h hr
  cases i with
  | readByte a =>
    obtain ⟨hready, ham⟩ := h.afterAccess hr
    exact ⟨_, exec_readByte_hostReady h hr, hready.respond _, ham, fun b hb => (by cases hb; rfl), nofun⟩
  | writeByte a v =>
    obtain ⟨hready, ham⟩ := h.afterAccess hr
    have ha : (s.afterAccess a).InRange a := by rw [State.InRange, State.afterAccess_cfg]; exact hr
    refine ⟨_, exec_writeByte_hostReady h hr v, (hready.store ha v).respondDraw, fun x => ?_, nofun, nofun⟩
    rw [State.am_respondDraw, State.am_store (s.afterAccess_resident a).2, ham]
    rfl
  | flush =>
    obtain ⟨t, he, hready, hclean, ham⟩ := exec_flush_hostReady h
    exact ⟨t, he, hready, ham, nofun, fun _ => hready.coherent.am_eq_byteAt hclean⟩
  | nop =>
    exact ⟨_, exec_nop_idle h.ready.idle, h.respondDraw, fun _ => rfl, nofun, nofun⟩
  | _ => cases hi

/-! ## Sequences of commands -/

/-- A host word reads back as the command it was made from (R80, R81). -/
theorem decode_encode_host {i : Instr} (h : i.isHost = true) : decode (encode i) = .ok i := by
  cases i with
  | readByte a => simp [decode, encode, decodeHost]
  | writeByte a v => simp [decode, encode, decodeHost]
  | flush => simp [decode, encode, decodeHost]
  | nop => simp [decode, encode, decodeHost]
  | _ => cases h

theorem State.HostReady.presenting {s : State} (h : s.HostReady) (is : List Instr) : (s.presenting is).HostReady :=
  ⟨⟨h.ready.board, h.ready.idle, h.ready.released, h.ready.live⟩, h.conforms, h.inRange, h.dirtyValid, h.coherent⟩

/-- With a host command presented first, an idle block executes it, the others still to come. -/
theorem step_presenting_cons {s : State} (hs : s.seq = .idle) {i : Instr} (hi : i.isHost = true) (is : List Instr) :
    step (s.presenting (i :: is)) = exec i (s.presenting is) := by
  have hstep := step_input (s := s.presenting (i :: is)) (State.takesInput_of_idle hs) rfl
  rw [hstep, applyInput, decode_encode_host hi]
  rfl

theorem State.presenting_of_inputs {t s : State} {is : List Instr} (h : t.inputs = (s.presenting is).inputs) :
    t.presenting is = t := by
  rw [State.presenting, show is.map (fun i => Input.present (encode i)) = t.inputs from h.symm]

theorem State.commandInRange_congr {s t : State} (h : t.cfg = s.cfg) (i : Instr) :
    t.CommandInRange i ↔ s.CommandInRange i := by
  cases i <;> simp only [State.CommandInRange, State.InRange, h]

/-- Settles O55, by induction on the commands: the first acts as on the array, and leaves the others presented. -/
theorem hostCommandSequenceIsArray : Obligations.HostCommandSequenceIsArray := by
  intro is
  induction is with
  | nil => exact fun s h _ => ⟨s.presenting [], rfl, h.presenting [], rfl, fun _ => rfl⟩
  | cons i is ih =>
    intro s h hall
    obtain ⟨⟨hi, hr⟩, hrest⟩ := List.forall_mem_cons.1 hall
    obtain ⟨t, he, hready, ham, -, -⟩ := hostSeesByteArray i (s.presenting is) hi (h.presenting is)
      ((State.commandInRange_congr (t := s.presenting is) (s := s) rfl i).2 hr)
    have hk := exec_kept he
    have hp : t.presenting is = t := State.presenting_of_inputs hk.inputs
    obtain ⟨u, hrun, hu, hin, hau⟩ := ih t hready fun j hj =>
      ⟨(hrest j hj).1, (State.commandInRange_congr (t := t) (s := s) hk.cfg j).2 (hrest j hj).2⟩
    rw [hp] at hrun
    have hm : t.am = arrayAfter i s.am := funext ham
    exact ⟨u, (core_run_next ((step_presenting_cons h.ready.idle hi is).trans he)).trans hrun, hu, hin, fun x => by
      rw [hau, hm]; rfl⟩

end Sys2Proof.Machine
end

section
/-! PROOF of O60. The tag and value of an empty slot are read by no operation (R18, R19): the transport does not see the
slot, and a plan that loads it captures a byte first, so what stood there is replaced before anything reads it. -/

namespace Sys2Proof.Machine

/-- Other bits in the tag and value of a slot, if it is empty. -/
def Slot.withDead (t : Addr) (v : Byte) (x : Slot) : Slot :=
  if x.valid = true then x else { x with tag := t, value := v }

section
variable (t : Addr) (v : Byte)

theorem Slot.withDead_empty {x : Slot} (h : x.valid = false) : x.withDead t v = { x with tag := t, value := v } :=
  if_neg (by simp [h])

theorem State.withDeadSlot_eq (s : State) : s.withDeadSlot t v = s.setSlot (s.slot.withDead t v) := by
  unfold State.withDeadSlot Slot.withDead
  split <;> rfl

@[simp] theorem State.withDeadSlot_cfg (s : State) : (s.withDeadSlot t v).cfg = s.cfg := by
  rw [State.withDeadSlot_eq]
  rfl

@[simp] theorem State.withDeadSlot_seq (s : State) : (s.withDeadSlot t v).seq = s.seq := by
  rw [State.withDeadSlot_eq]
  rfl

/-- The transport does not see the bits of an empty slot. -/
theorem unseen_withDeadSlot : Unseen (State.withDeadSlot t v) := by
  rw [funext (State.withDeadSlot_eq t v)]
  exact unseen_mapSlot _

theorem setSlot_withDeadSlot (s : State) (x : Slot) : (s.withDeadSlot t v).setSlot x = s.setSlot x := by
  rw [State.withDeadSlot_eq]
  rfl

theorem hang_withDeadSlot (i : Instr) (p : Plan) (k : Nat) (cap : List Byte) (s : State) :
    hang i p k cap (s.withDeadSlot t v) = (hang i p k cap s).withDeadSlot t v := by
  rw [State.withDeadSlot_eq, State.withDeadSlot_eq]
  rfl

/-! ## One step of a plan -/

/-- A slot treatment other than a load keeps the bits of an empty slot out of sight. -/
theorem slotAfter_withDead {after : OnReturn} (h : ∀ a, after ≠ .load a) (cap : List Byte) (x : Slot) :
    slotAfter after cap (x.withDead t v) = (slotAfter after cap x).withDead t v := by
  cases after with
  | ignore => rfl
  | capture => rfl
  | clean =>
    unfold Slot.withDead
    split <;> simp_all [Slot.markClean]
  | load a => exact absurd rfl (h a)

/-- A load of a captured byte replaces whatever the slot held. -/
theorem slotAfter_load_congr (a : Addr) {cap : List Byte} (h : cap ≠ []) (x y : Slot) :
    slotAfter (.load a) cap x = slotAfter (.load a) cap y := by
  cases cap with
  | nil => exact absurd rfl h
  | cons b bs => rfl

/-- A plan step before other slot bits is the plan step, if what follows its return is. -/
theorem drive_cons_withDeadSlot {i : Instr} {p : Plan} {k : Nat} {cap : List Byte} {x : PlanStep} {rest : Plan}
    {s : State}
    (hnext : ∀ {u : State} {b : Option Byte}, perform x.op s = .done u b →
      drive i p (k + 1) (capAfter x.after b cap) rest
          (u.setSlot (slotAfter x.after (capAfter x.after b cap) (u.withDeadSlot t v).slot)) =
        mapNext (State.withDeadSlot t v) (drive i p (k + 1) (capAfter x.after b cap) rest
          (u.setSlot (slotAfter x.after (capAfter x.after b cap) u.slot)))) :
    drive i p k cap (x :: rest) (s.withDeadSlot t v) =
      mapNext (State.withDeadSlot t v) (drive i p k cap (x :: rest) s) := by
  have hp := (unseen_withDeadSlot t v).perform x.op s
  cases hx : perform x.op s with
  | refused r =>
    rw [hx] at hp
    rw [drive_cons_refused hp, drive_cons_refused hx]
    rfl
  | waiting =>
    rw [hx] at hp
    rw [drive_cons_waiting hp, drive_cons_waiting hx, hang_withDeadSlot]
    rfl
  | done u b =>
    rw [hx] at hp
    rw [drive_cons_done hp, drive_cons_done hx, ← hnext hx, setSlot_withDeadSlot]

theorem drive_cons_withDeadSlot_of_not_load {i : Instr} {p : Plan} {k : Nat} {cap : List Byte} {x : PlanStep}
    {rest : Plan} {s : State} (hx : ∀ a, x.after ≠ .load a)
    (hrest : ∀ {u : State} {b : Option Byte}, perform x.op s = .done u b → ∀ w : State,
      drive i p (k + 1) (capAfter x.after b cap) rest (w.withDeadSlot t v) =
        mapNext (State.withDeadSlot t v) (drive i p (k + 1) (capAfter x.after b cap) rest w)) :
    drive i p k cap (x :: rest) (s.withDeadSlot t v) =
      mapNext (State.withDeadSlot t v) (drive i p k cap (x :: rest) s) := by
  refine drive_cons_withDeadSlot t v fun {u b} hd => ?_
  rw [← hrest hd, State.withDeadSlot_eq, State.withDeadSlot_eq]
  exact congrArg (fun y => drive i p (k + 1) _ rest (u.setSlot y)) (slotAfter_withDead t v hx _ u.slot)

/-! ## Whole plans -/

/-- A plan that loads nothing, of an operation that reads nothing of the slot at its end. -/
theorem drive_withDeadSlot_of_no_load {i : Instr} {p rest : Plan} (hr : ∀ x ∈ rest, ∀ a, x.after ≠ .load a)
    (hc : ∀ (cap : List Byte) (u : State),
      complete i cap (u.withDeadSlot t v) = (complete i cap u).withDeadSlot t v)
    (k : Nat) (cap : List Byte) (s : State) :
    drive i p k cap rest (s.withDeadSlot t v) = mapNext (State.withDeadSlot t v) (drive i p k cap rest s) := by
  induction rest generalizing k cap s with
  | nil => exact congrArg _ (hc cap s)
  | cons x rest ih =>
    obtain ⟨hx, hrest⟩ := List.forall_mem_cons.1 hr
    exact drive_cons_withDeadSlot_of_not_load t v hx fun _ => ih hrest _ _

/-- The captured bytes of `cap` or those that `rest` is still to capture are at least one. -/
def Captures (cap : List Byte) (rest : Plan) : Prop := cap ≠ [] ∨ ∃ o, ⟨.exchange o, .capture⟩ ∈ rest

/-- A step that returns leaves a captured byte, or one still to be captured. -/
theorem Captures.of_done {cap : List Byte} {x : PlanStep} {rest : Plan} {s u : State} {b : Option Byte}
    (h : Captures cap (x :: rest)) (hd : perform x.op s = .done u b) : Captures (capAfter x.after b cap) rest := by
  rcases h with h | ⟨o, ho⟩
  · refine .inl ?_
    unfold capAfter
    split <;> simp [h]
  · rcases List.mem_cons.1 ho with rfl | ho
    · obtain ⟨d, i, s1, -, -, -, -, rfl, -⟩ := performExchange_done hd
      exact .inl (by simp)
    · exact .inr ⟨o, ho⟩

/-- A load ends its operation with a slot that is not empty. -/
theorem complete_load_withDeadSlot (i : Instr) (cap : List Byte) (s : State) (a : Addr) (y : Slot) :
    (complete i cap (s.setSlot (slotAfter (.load a) cap y))).withDeadSlot t v =
      complete i cap (s.setSlot (slotAfter (.load a) cap y)) := by
  cases i <;> exact if_pos rfl

/-- A plan that captures a byte and at its end loads it. -/
theorem drive_withDeadSlot_of_load (i : Instr) (p : Plan) (op : BusOp) (a : Addr) {rest : Plan}
    (hr : ∀ x ∈ rest, ∀ a, x.after ≠ .load a) (k : Nat) {cap : List Byte} (hcap : Captures cap rest) (s : State) :
    drive i p k cap (rest ++ [⟨op, .load a⟩]) (s.withDeadSlot t v) =
      mapNext (State.withDeadSlot t v) (drive i p k cap (rest ++ [⟨op, .load a⟩]) s) := by
  induction rest generalizing k cap s with
  | nil =>
    have hne : cap ≠ [] := hcap.resolve_right (by simp)
    refine drive_cons_withDeadSlot t v fun {u b} _ => ?_
    rw [drive_nil, drive_nil, mapNext]
    have hsame : capAfter (.load a) b cap = cap := by cases b <;> rfl
    rw [hsame, slotAfter_load_congr a hne _ u.slot, complete_load_withDeadSlot]
  | cons x rest ih =>
    obtain ⟨hx, hrest⟩ := List.forall_mem_cons.1 hr
    exact drive_cons_withDeadSlot_of_not_load t v hx fun hd => ih hrest _ (hcap.of_done hd)

/-! ## Operations on an empty slot -/

theorem start_withDeadSlot {i : Instr} {p : Plan} {s : State}
    (h : drive i p 0 [] p (s.withDeadSlot t v) = mapNext (State.withDeadSlot t v) (drive i p 0 [] p s)) :
    start i p (s.withDeadSlot t v) = mapNext (State.withDeadSlot t v) (start i p s) := by
  have hseq := s.withDeadSlot_seq t v
  cases hs : s.seq with
  | idle => rw [start_idle (hseq.trans hs), start_idle hs, h]
  | run i' p' k cap =>
    rw [start_busy (hseq.trans hs), start_busy hs]
    rfl

/-- An operation that loads nothing and reads nothing of the slot at its end. -/
theorem start_withDeadSlot_of_no_load {i : Instr} {p : Plan} (s : State) (hp : ∀ x ∈ p, x.SparesSlot)
    (hc : ∀ (cap : List Byte) (u : State),
      complete i cap (u.withDeadSlot t v) = (complete i cap u).withDeadSlot t v) :
    start i p (s.withDeadSlot t v) = mapNext (State.withDeadSlot t v) (start i p s) :=
  start_withDeadSlot t v (drive_withDeadSlot_of_no_load t v (fun x hx => (hp x hx).ne_load) hc 0 [] s)

/-- An operation that loads address `a` and does nothing else on the bus. -/
theorem start_withDeadSlot_of_load (i : Instr) (d : Dev) (a : Addr) (s : State) :
    start i (readPlan d a 1 (.load a)) (s.withDeadSlot t v) =
      mapNext (State.withDeadSlot t v) (start i (readPlan d a 1 (.load a)) s) := by
  have hcap : Captures [] (readFront d a 1) := .inr ⟨Config.filler, by simp [readFront, exchanges]⟩
  refine start_withDeadSlot t v ?_
  rw [readPlan_eq_front]
  exact drive_withDeadSlot_of_load t v i _ _ a (fun x hx => (readFront_sparesSlot d a 1 x hx).ne_load) 0 hcap s

theorem missPlan_of_empty (a : Addr) {s : State} (h : s.slot.valid = false) :
    missPlan a s = readPlan s.cfg.devSel a 1 (.load a) := by
  simp [missPlan, Slot.mustEvict, h]

/-- An empty slot is hit by no address (R19). -/
theorem accessPlan_of_empty (a : Addr) {s : State} (h : s.slot.valid = false) : accessPlan a s = missPlan a s :=
  if_neg (by simp [Slot.hit, h])

theorem flushPlan_of_clean {s : State} (h : s.slot.dirty = false) : flushPlan s = [] :=
  if_neg (by simp [Slot.mustFlush, h])

section
variable {s : State} (hv : s.slot.valid = false)
include hv

theorem withDeadSlot_slot : (s.withDeadSlot t v).slot = { s.slot with tag := t, value := v } := by
  rw [State.withDeadSlot_eq]
  exact Slot.withDead_empty t v hv

theorem missPlan_withDeadSlot (a : Addr) : missPlan a (s.withDeadSlot t v) = missPlan a s := by
  rw [missPlan_of_empty a (by rw [withDeadSlot_slot t v hv]; exact hv), missPlan_of_empty a hv,
    State.withDeadSlot_cfg]

theorem accessPlan_withDeadSlot (a : Addr) : accessPlan a (s.withDeadSlot t v) = accessPlan a s := by
  rw [accessPlan_of_empty a (by rw [withDeadSlot_slot t v hv]; exact hv), accessPlan_of_empty a hv,
    missPlan_withDeadSlot t v hv]

/-- The plan of an operation does not depend on the bits of an empty clean slot. -/
theorem planOf_withDeadSlot (hd : s.slot.dirty = false) (i : Instr) :
    planOf i (s.withDeadSlot t v) = planOf i s := by
  cases i with
  | miss a => exact missPlan_withDeadSlot t v hv a
  | readByte a => exact accessPlan_withDeadSlot t v hv a
  | writeByte a w => exact accessPlan_withDeadSlot t v hv a
  | flush =>
    show flushPlan _ = flushPlan _
    rw [flushPlan_of_clean hd, flushPlan_of_clean (by rw [withDeadSlot_slot t v hv]; exact hd)]
  | _ => rfl

end

/-- No operation but READ_BYTE reads the slot when it completes; WRITE_BYTE replaces it (R128). -/
theorem complete_withDeadSlot {i : Instr} (hr : ∀ a, i ≠ .readByte a) (cap : List Byte) (u : State) :
    complete i cap (u.withDeadSlot t v) = (complete i cap u).withDeadSlot t v := by
  rw [State.withDeadSlot_eq, State.withDeadSlot_eq]
  cases i with
  | readByte a => exact absurd rfl (hr a)
  | _ => rfl

end

/-- Settles O60: on an empty clean slot each operation's plan is the same whatever the bits, and either loads a captured
byte at its end or leaves the slot alone. -/
theorem emptySlotBitsUnread : Obligations.EmptySlotBitsUnread := by
  intro i t v s hv hd
  rw [exec_eq_start, exec_eq_start, planOf_withDeadSlot t v hv hd]
  have hload : ∀ a, accessPlan a s = readPlan s.cfg.devSel a 1 (.load a) := fun a => by
    rw [accessPlan_of_empty a hv, missPlan_of_empty a hv]
  have hno : (∀ x ∈ planOf i s, x.SparesSlot) → (∀ a, i ≠ .readByte a) →
      start i (planOf i s) (s.withDeadSlot t v) = mapNext (State.withDeadSlot t v) (start i (planOf i s) s) :=
    fun hp hr => start_withDeadSlot_of_no_load t v s hp (complete_withDeadSlot t v hr)
  cases i with
  | select d => exact hno (List.forall_mem_singleton.2 (.inl rfl)) nofun
  | exchange o => exact hno (List.forall_mem_singleton.2 (.inr rfl)) nofun
  | deselect d => exact hno (List.forall_mem_singleton.2 (.inl rfl)) nofun
  | dpRead d a n => exact hno (readPlan_sparesSlot d a n) nofun
  | dpWrite d a data => exact hno (writePlan_sparesSlot d a data) nofun
  | miss a =>
    rw [planOf, missPlan_of_empty a hv]
    exact start_withDeadSlot_of_load t v _ _ a s
  | readByte a =>
    rw [planOf, hload a]
    exact start_withDeadSlot_of_load t v _ _ a s
  | writeByte a b =>
    rw [planOf, hload a]
    exact start_withDeadSlot_of_load t v _ _ a s
  | flush =>
    refine hno ?_ nofun
    rw [planOf, flushPlan_of_clean hd]
    exact List.forall_mem_nil _
  | nop => exact hno (List.forall_mem_nil _) nofun

end Sys2Proof.Machine
end

section
/-! PROOF of O4 and O8. What is presented: a host integer reaches the block as its low 24 bits (R50), and a wire frame of
no operation is refused as soon as it is presented (R54 (b), R168). -/

namespace Sys2Proof.Machine

/-- The address port keeps the low 24 bits of a host integer (R50). -/
theorem truncAddr_mod (n : Nat) : truncAddr (n % 16777216) = truncAddr n := by
  apply BitVec.eq_of_toNat_eq
  simp only [truncAddr, BitVec.toNat_ofNat]
  omega

theorem hostWordOfInt_congr {m n : Nat} (h : m % 16777216 = n % 16777216) (op : BitVec 2) (v : Byte) :
    hostWordOfInt op m v = hostWordOfInt op n v := by
  have ha : truncAddr m = truncAddr n := by rw [← truncAddr_mod m, h, truncAddr_mod]
  rw [hostWordOfInt, ha, hostWordOfInt]

/-- The word of a READ_BYTE, whatever its ignored field holds (R81, R82). -/
theorem decode_hostWord_readByte (a : Addr) (v : Byte) : decode (.host (hostWord 0b11#2 a v)) = .ok (.readByte a) := by
  simp [decode, decodeHost]

/-- Settles O4: the word depends on the integer through `truncAddr` alone. -/
theorem hostIntegersTruncate : Obligations.HostIntegersTruncate := by
  intro m n v h
  refine ⟨by rw [hostWordOfInt_congr h], by rw [hostWordOfInt_congr h], ?_⟩
  rw [hostWordOfInt, decode_hostWord_readByte, ← truncAddr_mod]
  rfl

/-- A frame with fewer than the four header bytes is rejected (R77). -/
theorem decodeWire_short {frame : List Byte} (h : frame.length < 4) (d : Dev) :
    decodeWire d frame = .error .shortFrame := by
  match frame, h with
  | [], _ | [_], _ | [_, _], _ | [_, _, _], _ => rfl
  | _ :: _ :: _ :: _ :: _, h => simp only [List.length_cons] at h; omega

/-- A frame of another opcode is rejected, for its length or for its opcode (R77). -/
theorem decodeWire_unknown {frame : List Byte} {op : Byte} (hop : frame.head? = some op) (hr : op ≠ Config.opRead)
    (hw : op ≠ Config.opWrite) (d : Dev) :
    decodeWire d frame = .error .shortFrame ∨ decodeWire d frame = .error (.unknownOpcode op) := by
  by_cases hl : frame.length < 4
  · exact .inl (decodeWire_short hl d)
  · match frame, hop, hl with
    | _ :: _ :: _ :: _ :: _, rfl, _ => exact .inr (by rw [decodeWire, if_neg hr, if_neg hw])
    | [_], _, hl | [_, _], _, hl | [_, _, _], _, hl => simp at hl

/-- An idle block refuses a request that decodes to no operation, under the name of its error (R168). -/
theorem step_rejects {s : State} {r : Request} {rest : List Input} {e : DecodeError} (hs : s.seq = .idle)
    (hi : s.inputs = .present r :: rest) (he : decode r = .error e) : step s = .refused (rejection e) := by
  rw [step_input (State.takesInput_of_idle hs) hi, applyInput, he]
  rfl

/-- Settles O8: the decoder rejects such a frame, as short or for its opcode, and either error ends in `unknownFrame`. -/
theorem unknownFramesRefused : Obligations.UnknownFramesRefused := by
  intro s d frame rest hs hi h
  have hbad : decodeWire d frame = .error .shortFrame ∨ ∃ op, decodeWire d frame = .error (.unknownOpcode op) := by
    rcases h with hl | ⟨op, hop, hr, hw⟩
    · exact .inl (decodeWire_short hl d)
    · exact (decodeWire_unknown hop hr hw d).imp_right fun h => ⟨op, h⟩
  rcases hbad with he | ⟨op, he⟩
  · exact step_rejects hs hi he
  · exact step_rejects hs hi he

end Sys2Proof.Machine
end

section
/-! PROOF of O13 to O17 and O49. One transport operation presented on its own is one step of the sequencer: an exchange
ends as its chip answers, a deselect as its frame stands. -/

namespace Sys2Proof.Machine

/-! ## DESELECT -/

/-- DESELECT of a transaction shorter than four exchanges is refused (R54 (b)). -/
theorem perform_deselect_short {d : Dev} {s : State} {sent : List Byte} (hb : s.boardInit = true) (hc : s.cs = d.line)
    (hm : (s.devFrame.get d).matches sent) (hl : sent.length < 4) :
    perform (.deselect d) s = .refused .unknownFrame := by
  have hline : lineAsserted s.cs d = true := hc ▸ lineAsserted_line d
  rw [perform, performDeselect, if_neg (by simp [hb]), if_neg (by simp [hline])]
  cases hf : s.devFrame.get d
  case closed => rw [hf] at hm; exact hm.elim
  case payload => rw [hf] at hm; have hlen := hm.2; omega
  all_goals rfl

/-- DESELECT of a transaction of another opcode is refused (R54 (b)). -/
theorem perform_deselect_unknown {d : Dev} {s : State} {op : Byte} {a : Addr} {j : Nat} (hb : s.boardInit = true)
    (hc : s.cs = d.line) (hf : s.devFrame.get d = .payload op a j) (hr : op ≠ Config.opRead) (hw : op ≠ Config.opWrite) :
    perform (.deselect d) s = .refused .unknownFrame := by
  have hline : lineAsserted s.cs d = true := hc ▸ lineAsserted_line d
  rw [perform, performDeselect, if_neg (by simp [hb]), if_neg (by simp [hline]), hf]
  dsimp only
  rw [if_neg hr, if_neg hw]

theorem exec_deselect_refused {d : Dev} {s : State} {r : Refusal} (hs : s.seq = .idle)
    (h : perform (.deselect d) s = .refused r) : exec (.deselect d) s = .refused r := by
  rw [exec_eq_start, start_idle hs]
  exact drive_cons_refused h

/-- Settles O13: of a transaction that is short, or has another opcode, the one transport operation is refused. -/
theorem deselectRefusesUnknownFrame : Obligations.DeselectRefusesUnknownFrame := by
  intro d s hb hs hc h
  refine exec_deselect_refused hs ?_
  rcases h with ⟨sent, hl, hm⟩ | ⟨op, a, j, hf, hr, hw⟩
  · exact perform_deselect_short hb hc hm hl
  · exact perform_deselect_unknown hb hc hf hr hw

/-! ## EXCHANGE where the selected chip answers -/

section
variable {d : Dev} {o : Byte} {s : State}

/-- EXCHANGE(o) ends in the state the selected chip's answer leaves, and returns the chip's byte (R97). -/
theorem exec_exchange_answered (hb : s.boardInit = true) (hs : s.seq = .idle) (hc : s.cs = d.line)
    (hl : s.bus ≠ some 0) {r : Byte × State} (ha : chipAnswer d o s = .ok r) :
    exec (.exchange o) s = .next ((r.2.spendExchange.emit (.xchg o r.1)).respond (.byte r.1)) := by
  rw [exec_eq_start, start_idle hs, planOf, drive_cons_done (by exact perform_exchange_pair hb hc hl ha)]
  rfl

theorem exec_exchange_refused (hb : s.boardInit = true) (hs : s.seq = .idle) (hc : s.cs = d.line)
    (hl : s.bus ≠ some 0) {r : Refusal} (ha : chipAnswer d o s = .error r) : exec (.exchange o) s = .refused r := by
  rw [exec_eq_start, start_idle hs]
  exact drive_cons_refused (perform_exchange_refused hb hc hl ha)

/-- EXCHANGE(o) that the chip answers with a draw, taking the frame position `g` (R54 (a)). -/
theorem exec_exchange_drawn (hb : s.boardInit = true) (hs : s.seq = .idle) (hc : s.cs = d.line) (hl : s.bus ≠ some 0)
    {g : Frame} (ha : chipAnswer d o s = .ok (answerDraw d g s)) :
    exec (.exchange o) s =
      .next { s with devFrame := s.devFrame.set d g, trace := s.trace ++ [.xchg o (Config.draw s.draws)],
                     draws := s.draws + 1, bus := s.bus.map (· - 1), response := .byte (Config.draw s.draws) } :=
  exec_exchange_answered hb hs hc hl ha

end

/-- Settles O14: in each of the three positions the chip answers a draw and takes the byte. -/
theorem exchangeTakesHeaderByte : Obligations.ExchangeTakesHeaderByte := by
  intro d o s hb hs hc hl g h
  refine exec_exchange_drawn hb hs hc hl ?_
  rcases h with ⟨hf, rfl⟩ | ⟨op, hf, rfl⟩ | ⟨op, b2, hf, rfl⟩ <;> rw [chipAnswer, hf]

/-- The fourth header exchange is answered where the chip has the address (R52). -/
theorem chipAnswer_headerEnd {d : Dev} {op b2 b1 o : Byte} {s : State} (hf : s.devFrame.get d = .k3 op b2 b1)
    (hc : s.Conforming d) (ha : s.InRange (joinAddr b2 b1 o)) :
    chipAnswer d o s = .ok (answerDraw d (.payload op (joinAddr b2 b1 o) 0) s) := by
  rw [chipAnswer, hf]
  dsimp only
  rw [answerHeaderEnd, if_neg (Nat.not_le_of_lt ha), State.forgetUnlessConforming_of_conforming hc]
  exact ite_self _

/-- The fourth header exchange is refused where the chip does not have the address (R49). -/
theorem chipAnswer_headerEnd_beyond {d : Dev} {op b2 b1 o : Byte} {s : State} (hf : s.devFrame.get d = .k3 op b2 b1)
    (ha : s.cfg.memSize ≤ (joinAddr b2 b1 o).toNat) : chipAnswer d o s = .error .addressBeyondDevice := by
  rw [chipAnswer, hf]
  exact if_pos ha

/-- Settles O15: the three address bytes join to the address the chip checks. -/
theorem exchangeCompletesAddress : Obligations.ExchangeCompletesAddress := by
  intro d op b2 b1 o s hb hs hc hl hf
  rw [← joinAddr_toNat]
  exact ⟨fun hconf ha => exec_exchange_drawn hb hs hc hl (chipAnswer_headerEnd hf hconf ha),
    fun ha => exec_exchange_refused hb hs hc hl (chipAnswer_headerEnd_beyond hf ha)⟩

/-- Settles O16: the chip answers the byte it stores and moves its frame on. -/
theorem exchangeReadsStoredByte : Obligations.ExchangeReadsStoredByte := by
  intro d o a j s hb hs hc hl hconf hf ha
  exact exec_exchange_answered hb hs hc hl (chipAnswer_read o hf ha hconf)

/-- Settles O17: the chip answers a draw in the state where the byte is stored. -/
theorem exchangeStoresSentByte : Obligations.ExchangeStoresSentByte := by
  intro d o a j s hb hs hc hl hconf hf ha
  have hsame : (s.writeByteAt d (a.toNat + j) o).byteAt d (a.toNat + j) = o := State.byteAt_writeByteAt_same ..
  have hother : ∀ e x, e ≠ d ∨ x ≠ a.toNat + j → (s.writeByteAt d (a.toNat + j) o).byteAt e x = s.byteAt e x :=
    fun e x h => State.byteAt_writeByteAt_ne s o h
  exact ⟨_, exec_exchange_answered hb hs hc hl (chipAnswer_write o hf ha hconf), hsame, hother, rfl, rfl, rfl, rfl, rfl,
    hs, rfl, rfl⟩

/-! ## EXCHANGE in any state -/

/-- EXCHANGE(o) that answers a next state has stopped there, or the selected chip has answered; the bytes of the chips
are then those the chip's answer leaves. -/
theorem exec_exchange_bytes {o : Byte} {d : Dev} {s t : State} (h : exec (.exchange o) s = .next t) (hc : s.cs = d.line) :
    (∀ e x, t.byteAt e x = s.byteAt e x) ∨
    ∃ i u, chipAnswer d o s = .ok (i, u) ∧ ∀ e x, t.byteAt e x = u.byteAt e x := by
  rw [exec_eq_start] at h
  rcases drive_cons_next (idle_of_start_next h).2 with ⟨-, rfl⟩ | ⟨u, b, hd, h⟩
  · exact .inl fun _ _ => rfl
  · obtain ⟨d', i, s1, -, hd', -, ha, -, rfl⟩ := performExchange_done hd
    rw [hc, Dev.ofLine?_line] at hd'
    cases hd'
    rw [drive_nil] at h
    cases h
    exact .inr ⟨i, s1, ha, fun _ _ => rfl⟩

/-- Settles O49: a conforming chip stores nothing outside a WRITE payload, and in one the byte at its position. -/
theorem exchangeFrame : Obligations.ExchangeFrame := by
  intro o d s t h hc hconf
  rcases exec_exchange_bytes h hc with hb | ⟨i, u, ha, hb⟩
  · exact ⟨fun _ _ _ e x _ => hb e x, fun _ => hb⟩
  rcases chipAnswer_bytes ha with hu | ⟨a, j, hf, -, hu⟩ | ⟨-, hn, -⟩
  · exact ⟨fun _ _ _ e x _ => (hb e x).trans (hu e x), fun _ e x => (hb e x).trans (hu e x)⟩
  · refine ⟨fun a' j' hf' e x hx => ?_, fun hno => absurd hf (hno a j)⟩
    rw [hf] at hf'
    cases hf'
    rw [hb, hu, State.byteAt_writeByteAt_ne s o hx]
  · exact absurd hconf hn

end Sys2Proof.Machine
end

section
/-! PROOF of O22, O23 and O24. A Device Protocol operation is one transaction: what the laws of a transaction inside a
plan say, said of the whole operation. -/

namespace Sys2Proof.Machine

/-- An operation started with one transaction as its plan runs it with nothing to follow. -/
theorem exec_dpRead_eq {s : State} (hs : s.seq = .idle) (d : Dev) (a : Addr) (n : Nat) :
    exec (.dpRead d a n) s =
      drive (.dpRead d a n) (readPlan d a n .ignore) 0 [] (readPlan d a n .ignore ++ []) s := by
  rw [exec_eq_start, start_idle hs, List.append_nil]
  rfl

theorem exec_dpWrite_eq {s : State} (hs : s.seq = .idle) (d : Dev) (a : Addr) (data : List Byte) :
    exec (.dpWrite d a data) s =
      drive (.dpWrite d a data) (writePlan d a data .ignore) 0 [] (writePlan d a data .ignore ++ []) s := by
  rw [exec_eq_start, start_idle hs, List.append_nil]
  rfl

/-- Settles O22: the transaction is refused at the end of its header, or at the first payload byte beyond. -/
theorem protocolRefusesBeyondDevice : Obligations.ProtocolRefusesBeyondDevice := by
  intro d a s h
  refine ⟨fun ha n data => ⟨?_, ?_⟩, fun ha n hn => ?_, fun ha data hn => ?_⟩
  · rw [exec_dpRead_eq h.idle, drive_readPlan_beyond h ha]
  · rw [exec_dpWrite_eq h.idle, drive_writePlan_beyond h ha]
  · rw [exec_dpRead_eq h.idle, drive_readPlan_range h ha hn]
  · rw [exec_dpWrite_eq h.idle, drive_writePlan_range h ha hn]

/-- Settles O23: the payload exchanges of a READ capture draws, and nothing else depends on the chip. -/
theorem dpReadOfFaultyChipReturnsDraws : Obligations.DpReadOfFaultyChipReturnsDraws := by
  intro d a n s h hc ha hr
  refine ⟨drawBytes (s.draws + 4) n, rfl, ?_⟩
  rw [exec_dpRead_eq h.idle, drive_readPlan_faulty h hc ha hr]
  rfl

/-! ## A read after a write -/

theorem exec_dpRead_ready {s : State} {d : Dev} {a : Addr} {n : Nat} (h : s.Ready) (hc : s.Conforming d)
    (ha : s.InRange a) (hr : a.toNat + n ≤ s.cfg.memSize) :
    exec (.dpRead d a n) s = .next ((s.afterRead d a n).respond (.bytes (s.chipBytes d a.toNat n))) := by
  rw [exec_dpRead_eq h.idle, drive_readPlan h.board h.released h.live hc ha hr]
  rfl

theorem State.afterWrite_setSlot (s : State) (d : Dev) (a : Addr) (data : List Byte) :
    (s.afterWrite d a data).setSlot s.slot = s.afterWrite d a data := by
  rw [← State.afterWrite_slot s d a data, State.setSlot_self]

theorem exec_dpWrite_ready {s : State} {d : Dev} {a : Addr} {data : List Byte} (h : s.Ready) (hc : s.Conforming d)
    (ha : s.InRange a) (hr : a.toNat + data.length ≤ s.cfg.memSize) :
    exec (.dpWrite d a data) s = .next ((s.afterWrite d a data).respond .none) := by
  rw [exec_dpWrite_eq h.idle, drive_writePlan h.board h.released h.live hc ha hr, slotAfter_ignore,
    State.afterWrite_setSlot]
  rfl

/-- After a WRITE the chip holds the data written, in order (R53). -/
theorem State.chipBytes_afterWrite (s : State) (d : Dev) (a : Addr) (data : List Byte) :
    (s.afterWrite d a data).chipBytes d a.toNat data.length = data := by
  refine List.ext_getElem (State.chipBytes_length ..) fun j _ hj => ?_
  rw [State.chipBytes_getElem, State.byteAt_afterWrite, State.byteAt_storeBytes s d a.toNat data j hj]

theorem State.chipBytes_respond (s : State) (r : Response) (d : Dev) (a n : Nat) :
    (s.respond r).chipBytes d a n = s.chipBytes d a n :=
  State.chipBytes_congr (t := s.respond r) (s := s) rfl rfl d a n

/-- A WRITE leaves the premises as they were. -/
theorem State.Ready.afterWrite {s : State} (h : s.Ready) (d : Dev) (a : Addr) (data : List Byte) :
    (s.afterWrite d a data).Ready :=
  ⟨by simpa using h.board, by simpa using h.idle, by simpa using h.released, by simpa using h.live⟩

theorem State.Ready.respond {s : State} (h : s.Ready) (r : Response) : (s.respond r).Ready :=
  ⟨h.board, h.idle, h.released, h.live⟩

/-- Settles O24: the write leaves a ready state whose chip holds the data, and the read returns what the chip holds. -/
theorem dpReadAfterDpWrite : Obligations.DpReadAfterDpWrite := by
  intro d a data s h hc ha hr
  have hread := exec_dpRead_ready ((h.afterWrite d a data).respond .none) (by simpa [State.Conforming] using hc)
    (by simpa [State.InRange] using ha) (by simpa using hr)
  have hbytes : ((s.afterWrite d a data).respond .none).chipBytes d a.toNat data.length = data :=
    (State.chipBytes_respond ..).trans (s.chipBytes_afterWrite d a data)
  exact ⟨_, _, exec_dpWrite_ready h hc ha hr, hread, congrArg Response.bytes hbytes⟩

end Sys2Proof.Machine
end

section
/-! PROOF of O31 and O35. A miss whose address the chip does not have ends in a refusal, its write-back made or not
(R49); a completed FLUSH has left the slot clean, and so has no plan the next time (R48). -/

namespace Sys2Proof.Machine

/-! ## A miss beyond the device -/

theorem Slot.dirty_of_mustEvict {x : Slot} (h : x.mustEvict = true) : x.dirty = true :=
  ((Bool.and_eq_true ..).mp h).2

/-- A miss on an address the chip does not have is refused in its load (R49). -/
theorem drive_missPlan_beyond {i : Instr} {p : Plan} {k : Nat} {cap : List Byte} {s : State} {a : Addr} (h : s.Ready)
    (hc : s.Conforming s.cfg.devSel) (ht : s.DirtyInRange) (ha : s.cfg.memSize ≤ a.toNat) :
    drive i p k cap (missPlan a s) s = .refused .addressBeyondDevice := by
  have load : ∀ {u : State} {k : Nat}, u.Ready → u.cfg = s.cfg →
      drive i p k cap (readPlan s.cfg.devSel a 1 (.load a)) u = .refused .addressBeyondDevice := by
    intro u k hu hcfg
    rw [← List.append_nil (readPlan ..)]
    exact drive_readPlan_beyond hu (hcfg ▸ ha)
  unfold missPlan
  by_cases hm : s.slot.mustEvict = true
  · rw [if_pos hm, drive_writeBackPlan h hc (ht (Slot.dirty_of_mustEvict hm))]
    exact load h.afterWriteBack s.afterWriteBack_cfg
  · rw [if_neg hm, List.nil_append]
    exact load h rfl

/-- Settles O31: each of the three operations runs the plan of the miss. -/
theorem missBeyondDeviceRefused : Obligations.MissBeyondDeviceRefused := by
  intro a v s h hc ht ha hh
  have hplan : accessPlan a s = missPlan a s := if_neg (by simp [hh])
  have refused : ∀ i, planOf i s = missPlan a s → exec i s = .refused .addressBeyondDevice := by
    intro i hp
    rw [exec_eq_start, start_idle h.idle, hp, drive_missPlan_beyond h hc ht ha]
  exact ⟨refused _ hplan, refused _ hplan, refused _ rfl⟩

/-! ## FLUSH twice -/

/-- A FLUSH that ends its plan leaves the slot clean, on whatever chip (R129). -/
theorem exec_flush_completes_clean {s t : State} (h : exec .flush s = .next t) (ht : t.seq = .idle) :
    t.slot.dirty = false := by
  rw [exec_eq_start] at h
  have hd := (idle_of_start_next h).2
  cases hs : s.slot.dirty with
  | false =>
    rw [planOf, flushPlan_of_clean hs, drive_nil] at hd
    cases hd
    exact hs
  | true =>
    have hp : planOf .flush s = writeBackPlan s := if_pos hs
    rw [hp] at hd
    rcases transaction_effect (rest := []) (.inr rfl) .ignore .clean (.inl rfl) [s.slot.value] 0 [] s hd with
      ⟨k, cap, u, rfl, -, -⟩ | ⟨k, cap, u, -, hu, hd⟩
    · exact absurd ht (hang_seq_ne _ _ k cap u)
    · rw [drive_nil] at hd
      cases hd
      show u.slot.dirty = false
      rw [hu]
      rfl

/-- FLUSH of a clean slot sends nothing (R129), whatever the bus, the board and the chips are. -/
theorem exec_flush_of_clean {s : State} (hs : s.seq = .idle) (hd : s.slot.dirty = false) :
    exec .flush s = .next s.respondDraw := by
  rw [exec_eq_start, start_idle hs, planOf, flushPlan_of_clean hd]
  rfl

/-- Settles O35: a completed FLUSH leaves the slot clean. -/
theorem flushIsIdempotent : Obligations.FlushIsIdempotent :=
  fun _ _ h ht => exec_flush_of_clean ht (exec_flush_completes_clean h ht)

end Sys2Proof.Machine
end

section
/-! PROOF of O44. A power cycle leaves no written byte, and every chip in its next epoch (R66). -/

namespace Sys2Proof.Machine

theorem PerDev.get_succ (p : PerDev Nat) (d : Dev) :
    (⟨p.dev0 + 1, p.dev1 + 1, p.dev2 + 1⟩ : PerDev Nat).get d = p.get d + 1 := by cases d <;> rfl

/-- Every byte is its draw of the next power-up (R66, D17). -/
theorem byteAt_powerCycle (s : State) (d : Dev) (x : Nat) :
    (powerCycle s).byteAt d x = Config.chipByte d (s.epoch.get d + 1) x := by
  rw [← PerDev.get_succ]
  cases d <;> rfl

theorem powerCycle_cfg (s : State) : (powerCycle s).cfg = s.cfg := resetBlock_cfg s

theorem powerCycle_inputs (s : State) : (powerCycle s).inputs = s.inputs := resetBlock_inputs s

/-- Settles O44: the step takes the input, and the state it answers is that of `powerCycle`. -/
theorem powerCycleLosesEverything : Obligations.PowerCycleLosesEverything := by
  intro s rest hi hw
  exact ⟨_, step_input hw hi, rfl, rfl, rfl, rfl, rfl, powerCycle_cfg _, powerCycle_inputs _, byteAt_powerCycle _⟩

end Sys2Proof.Machine
end

section
/-! PROOF of O48 and O51. What an operation may do to the bytes of the chips, done or stopped: a SELECT, a DESELECT and a
READ transaction nothing; a WRITE transaction what its payload range allows (R47, R53). -/

namespace Sys2Proof.Machine

/-! ## Operations that store nothing -/

theorem byteAt_complete (i : Instr) (cap : List Byte) (s : State) (e : Dev) (x : Nat) :
    (complete i cap s).byteAt e x = s.byteAt e x := by
  cases i <;> rfl

/-- SELECT and DESELECT change no byte (R96, R98). -/
theorem perform_bytes_of_line {x : BusOp} {s u : State} {b : Option Byte} (hx : ∀ o, x ≠ .exchange o)
    (h : perform x s = .done u b) (e : Dev) (y : Nat) : u.byteAt e y = s.byteAt e y := by
  cases x with
  | select d =>
    obtain ⟨-, -, -, rfl⟩ := performSelect_done h
    rfl
  | exchange o => exact absurd rfl (hx o)
  | deselect d =>
    obtain ⟨-, -, -, ⟨-, rfl⟩ | ⟨_, _, -, rfl⟩ | ⟨_, _, -, rfl⟩⟩ := performDeselect_done h <;> rfl

/-- A plan without an exchange changes no byte. -/
theorem drive_bytes_of_lines {i : Instr} {p : Plan} (hp : ∀ x ∈ p, ∀ o, x.op ≠ .exchange o) {s t : State}
    (h : drive i p 0 [] p s = .next t) (e : Dev) (y : Nat) : t.byteAt e y = s.byteAt e y := by
  refine drive_keeps (P := fun u => u.byteAt e y = s.byteAt e y) i p ?_ ?_ ?_ ?_ (Nat.zero_le _) rfl h
  · intro x u u' b hx hd hu
    exact (perform_bytes_of_line (hp x hx) hd e y).trans hu
  · intro x u cap _ hu
    exact hu
  · intro u cap hu
    exact (byteAt_complete i cap u e y).trans hu
  · intro u k x cap _ _ hu
    exact hu

/-- A read transaction inside a plan stops inside, or the rest of the plan goes on from its effect. -/
theorem drive_readPlan_effect {i : Instr} {p : Plan} {k n : Nat} {cap : List Byte} {rest : Plan} {s t : State} {d : Dev}
    {a : Addr} {last : OnReturn} (h : drive i p k cap (readPlan d a n last ++ rest) s = .next t) :
    (∃ k cap u, t = hang i p k cap u ∧ TxEffect Config.opRead d a n s u) ∨
      ∃ k cap u, TxEffect Config.opRead d a n s u ∧ drive i p k cap rest u = .next t := by
  simp only [readPlan, List.cons_append, List.append_assoc, List.nil_append] at h
  have heff := transaction_effect (.inl rfl) .capture last (.inr rfl) _ k cap s h
  rw [List.length_replicate] at heff
  rcases heff with ⟨k, cap, u, ht, hu, -⟩ | ⟨k, cap, u, hu, -, hd⟩
  · exact .inl ⟨k, cap, u, ht, hu⟩
  · exact .inr ⟨k, cap, u, hu, hd⟩

/-- The same of a write transaction. -/
theorem drive_writePlan_effect {i : Instr} {p : Plan} {k : Nat} {cap data : List Byte} {rest : Plan} {s t : State}
    {d : Dev} {a : Addr} {last : OnReturn} (h : drive i p k cap (writePlan d a data last ++ rest) s = .next t) :
    (∃ k cap u, t = hang i p k cap u ∧ TxEffect Config.opWrite d a data.length s u) ∨
      ∃ k cap u, TxEffect Config.opWrite d a data.length s u ∧ drive i p k cap rest u = .next t := by
  simp only [writePlan, List.cons_append, List.append_assoc, List.nil_append] at h
  rcases transaction_effect (.inr rfl) .ignore last (.inl rfl) data k cap s h with
    ⟨k, cap, u, ht, hu, -⟩ | ⟨k, cap, u, hu, -, hd⟩
  · exact .inl ⟨k, cap, u, ht, hu⟩
  · exact .inr ⟨k, cap, u, hu, hd⟩

/-- DP_READ changes no byte of any chip, done or stopped (R52). -/
theorem exec_dpRead_bytes {d : Dev} {a : Addr} {n : Nat} {s t : State} (h : exec (.dpRead d a n) s = .next t) (e : Dev)
    (x : Nat) : t.byteAt e x = s.byteAt e x := by
  rw [exec_dpRead_eq (idle_of_start_next h).1] at h
  rcases drive_readPlan_effect h with ⟨k, cap, u, rfl, hu⟩ | ⟨k, cap, u, hu, hd⟩
  · exact hu.read rfl e x
  · cases hd
    exact hu.read rfl e x

/-- Settles O48: three of the four send no exchange, and DP_READ is a READ transaction. -/
theorem nonStoringOperationsFrame : Obligations.NonStoringOperationsFrame := by
  intro i s t h hi
  have hdrive : drive i (planOf i s) 0 [] (planOf i s) s = .next t := by
    rw [exec_eq_start] at h
    exact (idle_of_start_next h).2
  rcases hi with ⟨d, rfl⟩ | ⟨d, rfl⟩ | ⟨d, a, n, rfl⟩ | rfl
  · exact drive_bytes_of_lines (List.forall_mem_singleton.2 fun _ hx => BusOp.noConfusion hx) hdrive
  · exact drive_bytes_of_lines (List.forall_mem_singleton.2 fun _ hx => BusOp.noConfusion hx) hdrive
  · exact exec_dpRead_bytes h
  · exact drive_bytes_of_lines (List.forall_mem_nil _) hdrive

/-! ## Store operations -/

/-- From `s` to `t` no frame and no byte of a chip other than `d` has changed, nor a byte of `d`, if it conforms, at an
address not in `A`. -/
structure OnlyAt (d : Dev) (A : Nat → Prop) (s t : State) : Prop where
  conforms : t.conforms = s.conforms
  frames : ∀ e, e ≠ d → t.devFrame.get e = s.devFrame.get e
  other : ∀ e x, e ≠ d → t.byteAt e x = s.byteAt e x
  inside : s.Conforming d → ∀ x, ¬ A x → t.byteAt d x = s.byteAt d x

section
variable {d : Dev} {A : Nat → Prop} {s t u : State}

/-- Nothing is reached where the chips' memories and frames are as they were. -/
theorem OnlyAt.of_chips_eq (hm : t.devMem = s.devMem) (he : t.epoch = s.epoch) (hf : t.devFrame = s.devFrame)
    (hc : t.conforms = s.conforms) : OnlyAt d A s t :=
  ⟨hc, fun _ _ => by rw [hf], fun e x _ => State.byteAt_congr hm he e x, fun _ x _ => State.byteAt_congr hm he d x⟩

theorem OnlyAt.trans (h : OnlyAt d A s t) (g : OnlyAt d A t u) : OnlyAt d A s u where
  conforms := g.conforms.trans h.conforms
  frames e he := (g.frames e he).trans (h.frames e he)
  other e x he := (g.other e x he).trans (h.other e x he)
  inside hc x hx := (g.inside (by rw [State.Conforming, h.conforms]; exact hc) x hx).trans (h.inside hc x hx)

theorem onlyAt_complete (i : Instr) (cap : List Byte) (s : State) : OnlyAt d A s (complete i cap s) := by
  cases i <;> exact .of_chips_eq rfl rfl rfl rfl

theorem onlyAt_hang (i : Instr) (p : Plan) (k : Nat) (cap : List Byte) (s : State) : OnlyAt d A s (hang i p k cap s) :=
  .of_chips_eq rfl rfl rfl rfl

/-- A READ transaction changes no byte at all. -/
theorem TxEffect.onlyAt_read {a : Addr} {n : Nat} (h : TxEffect Config.opRead d a n s t) : OnlyAt d A s t :=
  ⟨h.conf, h.frames, h.other, fun _ x _ => h.read rfl d x⟩

/-- A WRITE transaction of one byte changes at most the byte at its address. -/
theorem TxEffect.onlyAt_write {a : Addr} (h : TxEffect Config.opWrite d a 1 s t) (hA : A a.toNat) : OnlyAt d A s t where
  conforms := h.conf
  frames := h.frames
  other := h.other
  inside hc x hx := by
    have hne : x ≠ a.toNat := fun e => hx (e ▸ hA)
    exact h.inside hc x (by omega)

end

section
variable {i : Instr} {p : Plan} {k : Nat} {cap : List Byte} {s t : State} {A : Nat → Prop}

/-- A write-back inside a plan reaches the slot's own address and no other; what the rest of the plan may do is added. -/
theorem drive_writeBackPlan_onlyAt {rest : Plan} (hA : A s.slot.tag.toNat)
    (hrest : ∀ {k cap u}, drive i p k cap rest u = .next t → OnlyAt s.cfg.devSel A u t)
    (h : drive i p k cap (writeBackPlan s ++ rest) s = .next t) : OnlyAt s.cfg.devSel A s t := by
  rcases drive_writePlan_effect h with ⟨k, cap, u, rfl, hu⟩ | ⟨k, cap, u, hu, hd⟩
  · exact (hu.onlyAt_write hA).trans (onlyAt_hang ..)
  · exact (hu.onlyAt_write hA).trans (hrest hd)

/-- A load at the end of a plan reaches no byte. -/
theorem drive_loadPlan_onlyAt {d : Dev} {a : Addr} (h : drive i p k cap (readPlan d a 1 (.load a)) s = .next t) :
    OnlyAt d A s t := by
  rw [← List.append_nil (readPlan ..)] at h
  rcases drive_readPlan_effect h with ⟨k, cap, u, rfl, hu⟩ | ⟨k, cap, u, hu, hd⟩
  · exact hu.onlyAt_read.trans (onlyAt_hang ..)
  · cases hd
    exact hu.onlyAt_read.trans (onlyAt_complete ..)

theorem drive_nil_onlyAt {d : Dev} (h : drive i p k cap [] s = .next t) : OnlyAt d A s t := by
  cases h
  exact onlyAt_complete ..

end

section
variable {i : Instr} {p : Plan} {k : Nat} {cap : List Byte} {s t : State}

/-- What a store operation may reach: the slot's own address, if the slot is dirty (R56). -/
def Slot.reaches (y : Slot) (x : Nat) : Prop := y.dirty = true ∧ x = y.tag.toNat

theorem drive_missPlan_onlyAt {a : Addr} (h : drive i p k cap (missPlan a s) s = .next t) :
    OnlyAt s.cfg.devSel s.slot.reaches s t := by
  unfold missPlan at h
  split at h
  · next hm => exact drive_writeBackPlan_onlyAt ⟨Slot.dirty_of_mustEvict hm, rfl⟩ drive_loadPlan_onlyAt h
  · exact drive_loadPlan_onlyAt h

theorem drive_accessPlan_onlyAt {a : Addr} (h : drive i p k cap (accessPlan a s) s = .next t) :
    OnlyAt s.cfg.devSel s.slot.reaches s t := by
  unfold accessPlan at h
  split at h
  · exact drive_nil_onlyAt h
  · exact drive_missPlan_onlyAt h

theorem drive_flushPlan_onlyAt (h : drive i p k cap (flushPlan s) s = .next t) :
    OnlyAt s.cfg.devSel s.slot.reaches s t := by
  unfold flushPlan at h
  split at h
  · next hd =>
    rw [← List.append_nil (writeBackPlan s)] at h
    exact drive_writeBackPlan_onlyAt ⟨hd, rfl⟩ drive_nil_onlyAt h
  · exact drive_nil_onlyAt h

end

/-- Settles O51: the plan of each is a write-back of the dirty slot, a load, both, or nothing. -/
theorem storeOperationsFrame : Obligations.StoreOperationsFrame := by
  intro i s t h hi
  rw [exec_eq_start] at h
  have hdrive := (idle_of_start_next h).2
  have honly : OnlyAt s.cfg.devSel s.slot.reaches s t := by
    rcases hi with ⟨a, rfl⟩ | ⟨a, rfl⟩ | ⟨a, v, rfl⟩ | rfl
    · exact drive_missPlan_onlyAt hdrive
    · exact drive_accessPlan_onlyAt hdrive
    · exact drive_accessPlan_onlyAt hdrive
    · exact drive_flushPlan_onlyAt hdrive
  refine ⟨fun e he => ⟨fun x => honly.other e x he, honly.frames e he⟩, fun hc x hx => honly.inside hc x ?_⟩
  rintro ⟨hd, rfl⟩
  rcases hx with hx | hx
  · rw [hd] at hx
    cases hx
  · exact hx rfl

end Sys2Proof.Machine
end

section
/-! PROOF of O57 and O58. Where the slot and the chip agree, and where they do not: after FLUSH the chip holds what the
host sees (R61); a byte another agent stores is not seen while the slot is resident for its address (R62). -/

namespace Sys2Proof.Machine

/-- Settles O57: FLUSH leaves a clean slot, and with it coherence gives the chip's bytes. -/
theorem flushIsConsistencyPoint : Obligations.FlushIsConsistencyPoint := by
  intro s h
  obtain ⟨t, he, hready, hclean, ham⟩ := exec_flush_hostReady h
  have hcfg : t.cfg = s.cfg := (exec_kept he).cfg
  exact ⟨t, he, hclean, fun x => ⟨by rw [hready.coherent.am_eq_byteAt hclean, hcfg], ham x⟩⟩

/-- READ_BYTE of the resident address returns the slot's byte and changes nothing else (R127). -/
theorem exec_readByte_resident {s : State} {a : Addr} (hs : s.seq = .idle) (hv : s.slot.valid = true)
    (ht : s.slot.tag = a) : exec (.readByte a) s = .next (s.respond (.byte s.slot.value)) := by
  have hp : planOf (.readByte a) s = [] := if_pos (by simp [Slot.hit, hv, ht])
  rw [exec_eq_start, start_idle hs, hp]
  rfl

/-- An input OTHER in range stores its byte (D26). -/
theorem step_other {s : State} {d : Dev} {a : Addr} {v : Byte} {rest : List Input} (hw : s.TakesInput)
    (hi : s.inputs = .other d a v :: rest) (ha : s.InRange a) :
    step s = .next ({ s with inputs := rest }.writeByteAt d a.toNat v) := by
  rw [step_input hw hi, applyInput, if_pos ha]
  rfl

/-- Settles O58: OTHER stores its byte in the chip, and a hit reads the slot alone. -/
theorem otherWriterIsNotSeen : Obligations.OtherWriterIsNotSeen := by
  intro d a b v s rest hs hi ha
  have hother : ∀ e x, e ≠ d ∨ x ≠ a.toNat →
      ({ s with inputs := rest }.writeByteAt d a.toNat v).byteAt e x = s.byteAt e x :=
    fun e x h => State.byteAt_writeByteAt_ne { s with inputs := rest } v h
  exact ⟨_, step_other (State.takesInput_of_idle hs) hi ha, State.byteAt_writeByteAt_same .., rfl, hother,
    exec_readByte_resident (s := { s with inputs := rest }.writeByteAt d a.toNat v) hs⟩

end Sys2Proof.Machine
end

section
/-! PROOF of O1, O2, O3, O5, O6 and O7. Encoder and decoder against each other, surface by surface: select lines (R84),
wire frames (R71 to R74), host words (R80 to R82); then what a step does with a decoded request. -/

namespace Sys2Proof.Machine

/-! ## Port events -/

/-- All lines released, then line `d` alone: SELECT (R84). -/
theorem decodePort_select (d : Dev) : decodePort (.lines 0b000#3 d.line) = .ok (.select d) := by
  simp [decodePort]

/-- Line `d` alone, then all lines released: DESELECT (R84). -/
theorem decodePort_deselect (d : Dev) : decodePort (.lines d.line 0b000#3) = .ok (.deselect d) := by
  simp [decodePort, Dev.line_ne_zero d]

/-! ## Wire frames -/

/-- The header of the address whose bytes these are (R71, R73). -/
@[simp] theorem header_joinAddr (op b2 b1 b0 : Byte) : header op (joinAddr b2 b1 b0) = [op, b2, b1, b0] := by
  simp [header]

/-- A read header with `n` fillers asks for `n` bytes (R74). -/
theorem decodeWire_read (d : Dev) (a : Addr) (n : Nat) :
    decodeWire d (header Config.opRead a ++ List.replicate n Config.filler) = .ok (.dpRead d a n) := by
  simp [header, decodeWire]

/-- A write header with any payload asks for its bytes to be written (R71, R72). -/
theorem decodeWire_write (d : Dev) (a : Addr) (data : List Byte) :
    decodeWire d (header Config.opWrite a ++ data) = .ok (.dpWrite d a data) := by
  have hop : Config.opWrite ≠ Config.opRead := by decide
  simp [header, decodeWire, hop]

/-- The two kinds of frame that are accepted: a read header with a payload all filler, a write header with any payload
(R74, R77). -/
theorem decodeWire_ok {d : Dev} {frame : List Byte} {i : Instr} (h : decodeWire d frame = .ok i) :
    (∃ a n, frame = header Config.opRead a ++ List.replicate n Config.filler ∧ i = .dpRead d a n) ∨
    (∃ a data, frame = header Config.opWrite a ++ data ∧ i = .dpWrite d a data) := by
  unfold decodeWire at h
  split at h
  · next op b2 b1 b0 payload =>
    split at h
    · next hr =>
      split at h
      · next hp =>
        have hfill : payload = List.replicate payload.length Config.filler :=
          List.eq_replicate_of_mem (by simpa using hp)
        cases h
        exact .inl ⟨_, _, by rw [header_joinAddr, ← hfill, hr]; rfl, rfl⟩
      · cases h
    · split at h
      · next hw =>
        cases h
        exact .inr ⟨_, _, by rw [header_joinAddr, hw]; rfl, rfl⟩
      · cases h
  · cases h

/-- Settles O3: an accepted frame is a read or a write frame, each written as the encoder writes it. -/
theorem acceptedFrameIsEncoding : Obligations.AcceptedFrameIsEncoding := by
  intro d frame i h
  rcases decodeWire_ok h with ⟨a, n, rfl, rfl⟩ | ⟨a, data, rfl, rfl⟩
  · rfl
  · rfl

/-! ## Every operation -/

/-- Settles O1, surface by surface. -/
theorem decodeEncodeRoundTrip : Obligations.DecodeEncodeRoundTrip := by
  intro i
  cases i with
  | select d => exact decodePort_select d
  | exchange o => rfl
  | deselect d => exact decodePort_deselect d
  | dpRead d a n => exact decodeWire_read d a n
  | dpWrite d a data => exact decodeWire_write d a data
  | miss a => rfl
  | readByte a => exact decode_encode_host rfl
  | writeByte a v => exact decode_encode_host rfl
  | flush => exact decode_encode_host rfl
  | nop => exact decode_encode_host rfl

/-! ## Host words -/

/-- The word of a NOP, whatever its ignored fields hold (R81, R82). -/
theorem decode_hostWord_nop (a : Addr) (v : Byte) : decode (.host (hostWord 0b00#2 a v)) = .ok .nop := by
  simp [decode, decodeHost]

/-- The word of a FLUSH, whatever its ignored fields hold (R81, R82). -/
theorem decode_hostWord_flush (a : Addr) (v : Byte) : decode (.host (hostWord 0b01#2 a v)) = .ok .flush := by
  simp [decode, decodeHost]

/-- A host word is its three fields put together (R80). -/
theorem hostWord_fields (w : HostWord) :
    hostWord (w.extractLsb' 32 2) (w.extractLsb' 8 24) (w.extractLsb' 0 8) = w := by
  apply BitVec.eq_of_toNat_eq
  have h := w.isLt
  simp only [hostWord_toNat, BitVec.extractLsb'_toNat, Nat.shiftRight_eq_div_pow]
  omega

/-- Settles O2: `op` alone chooses the command, and the fields of a word give the word back. -/
theorem hostWordMeaning : Obligations.HostWordMeaning :=
  ⟨decode_hostWord_nop, decode_hostWord_flush, fun a v => decodeEncodeRoundTrip (.writeByte a v),
    decode_hostWord_readByte, fun w => ⟨_, _, _, (hostWord_fields w).symm⟩, fun _ => rfl, by decide, by decide⟩

/-- Settles O5: each word is the encoding of its operation, but for the FLUSH, whose ignored bits are not zero. -/
theorem specWordsDecode : Obligations.SpecWordsDecode :=
  ⟨decodeEncodeRoundTrip (.writeByte 0x000005#24 0xC3#8),
    decodeEncodeRoundTrip (.readByte 0xFFFFFF#24),
    decode_hostWord_flush 0xABCDEF#24 0x12#8,
    decodeEncodeRoundTrip .nop,
    decodeEncodeRoundTrip (.dpRead .dev0 0x123456#24 1),
    decodeEncodeRoundTrip (.dpWrite .dev0 0x123456#24 [0xA5#8]),
    decodeEncodeRoundTrip (.select .dev2),
    decodeEncodeRoundTrip (.deselect .dev1)⟩

/-! ## Requests at the block -/

/-- Settles O6: an idle block takes the input, and a request that decodes is executed. -/
theorem stepRunsDecodedInstruction : Obligations.StepRunsDecodedInstruction := by
  intro s r rest i hs hi hd
  rw [step_input (State.takesInput_of_idle hs) hi, applyInput, hd]
  rfl

/-- Settles O7: every operation begins with `start`, and that refuses at a busy block. -/
theorem busyBlockRefusesCommands : Obligations.BusyBlockRefusesCommands := by
  intro s i j p k cap h
  rw [exec_eq_start, start_busy h]

end Sys2Proof.Machine
end

section
/-! PROOF of O11, O12 and O18. The three transport operations presented on their own: where SELECT and DESELECT complete
they move one line, and each is refused where the line it needs is not as R96 to R98 require. -/

namespace Sys2Proof.Machine

/-! ## One transport operation as a whole plan -/

section
variable {i : Instr} {s : State}

/-- An operation whose plan is one transport operation completes in the state that one leaves, its byte ignored. -/
theorem exec_of_single_done {x : BusOp} {t : State} {b : Option Byte} (hp : planOf i s = [⟨x, .ignore⟩])
    (hs : s.seq = .idle) (h : perform x s = .done t b) : exec i s = .next (complete i [] t) := by
  rw [exec_eq_start, start_idle hs, hp, drive_cons_done (by exact h)]
  rfl

/-- An operation whose plan is one transport operation is refused as that is. -/
theorem exec_of_single_refused {x : PlanStep} {r : Refusal} (hp : planOf i s = [x]) (hs : s.seq = .idle)
    (h : perform x.op s = .refused r) : exec i s = .refused r := by
  rw [exec_eq_start, start_idle hs, hp]
  exact drive_cons_refused h

end

/-! ## SELECT -/

/-- With all lines released, asserting line `d` leaves it alone asserted (R96). -/
theorem State.assertLine_of_released {s : State} (h : s.cs = 0b000#3) (d : Dev) :
    s.assertLine d = { s with cs := d.line } := by
  rw [State.assertLine, h, BitVec.zero_or]

/-- SELECT while any line is asserted is refused (R96, R102). -/
theorem perform_select_overlap {d : Dev} {s : State} (hb : s.boardInit = true) (hc : s.cs ≠ 0b000#3) :
    perform (.select d) s = .refused .selectOverlap := by
  rw [perform, performSelect, if_neg (by simp [hb]), if_pos hc]

/-- Settles O11: the one transport operation asserts its line over a released port, and is refused over any other. -/
theorem selectAssertsOneLine : Obligations.SelectAssertsOneLine := by
  intro d s hb hs
  refine ⟨fun hc => ?_, fun hc => exec_of_single_refused rfl hs (perform_select_overlap hb hc)⟩
  rw [exec_of_single_done rfl hs (perform_select hb hc), State.assertLine_of_released hc]
  rfl

/-! ## DESELECT -/

/-- With line `d` alone asserted, the end of its transaction releases all lines and closes the frame (R98). -/
theorem endTransaction_of_selected {d : Dev} {s : State} (h : s.cs = d.line) :
    endTransaction d s =
      { s with cs := 0b000#3, devFrame := s.devFrame.set d .closed, trace := s.trace ++ [.desel d] } := by
  have hcs : s.cs &&& ~~~d.line = 0b000#3 := by rw [h]; exact BitVec.and_not_self _
  rw [endTransaction, State.releaseLine, hcs]
  rfl

/-- DESELECT of a released line is refused (R98, R103). -/
theorem perform_deselect_unselected {d : Dev} {s : State} (hb : s.boardInit = true) (hl : lineAsserted s.cs d = false) :
    perform (.deselect d) s = .refused .deselectUnselected := by
  rw [perform, performDeselect, if_neg (by simp [hb]), if_pos hl]

/-- Settles O12: the one transport operation ends the transaction and counts it by the frame's opcode. -/
theorem deselectEndsTransaction : Obligations.DeselectEndsTransaction := by
  intro d s hb hs
  refine ⟨fun a j hc hf => ?_, fun a j hc hf => ?_,
    fun hl => exec_deselect_refused hs (perform_deselect_unselected hb hl)⟩
  · rw [exec_of_single_done rfl hs (perform_deselect_read hb hc hf), endTransaction_of_selected hc]
    rfl
  · rw [exec_of_single_done rfl hs (perform_deselect_write hb hc hf), endTransaction_of_selected hc]
    rfl

/-! ## EXCHANGE -/

/-- A select vector that is no device's line names no device (R84). -/
theorem Dev.ofLine?_eq_none {l : Lines} (h : ∀ d : Dev, l ≠ d.line) : Dev.ofLine? l = none :=
  Option.eq_none_iff_forall_ne_some.mpr fun d hd => h d (Dev.line_of_ofLine? hd)

/-- EXCHANGE unless exactly one line is asserted is refused (R97, R103). -/
theorem perform_exchange_unselected {o : Byte} {s : State} (hb : s.boardInit = true) (h : ∀ d : Dev, s.cs ≠ d.line) :
    perform (.exchange o) s = .refused .exchangeWithoutSelect := by
  rw [perform, performExchange, if_neg (by simp [hb]), Dev.ofLine?_eq_none h]

/-- A payload exchange of a frame whose opcode is neither READ nor WRITE is refused (R54 (b)). -/
theorem chipAnswer_unknown {d : Dev} {op : Byte} {a : Addr} {j : Nat} {s : State} (o : Byte)
    (hf : s.devFrame.get d = .payload op a j) (hr : op ≠ Config.opRead) (hw : op ≠ Config.opWrite) :
    chipAnswer d o s = .error .unknownFrame := by
  rw [chipAnswer, hf]
  exact if_neg (not_or.mpr ⟨hr, hw⟩)

/-- Settles O18: the port refuses the exchange where no one line is asserted, the selected chip where its frame has gone
past its end or has another opcode. -/
theorem exchangeRefusals : Obligations.ExchangeRefusals := by
  intro o s hb hs
  refine ⟨fun hc => exec_of_single_refused rfl hs (perform_exchange_unselected hb hc),
    fun d op a j hc hl hf hop hj hr => ?_,
    fun d op a j hc hl hf hr hw => exec_exchange_refused hb hs hc hl (chipAnswer_unknown o hf hr hw)⟩
  have ha : chipAnswer d o s = .error .rangeBeyondDevice := by
    rw [chipAnswer_beyond o hf hop hr, if_neg hj.ne']
  exact exec_exchange_refused hb hs hc hl ha

end Sys2Proof.Machine
end

section
/-! PROOF of O20, O21 and O50. What a Device Protocol operation leaves in the chips: the effect of its one transaction,
whole (R111, R112) or cut by the bus (R63), said of the bytes at each address. -/

namespace Sys2Proof.Machine

/-- Settles O20: the operation is one READ transaction, and its result is what that captured. -/
theorem dpReadReturnsStoredBytes : Obligations.DpReadReturnsStoredBytes :=
  fun _ _ _ _ h hc ha hr => exec_dpRead_ready h hc ha hr

/-- Of the state that stored a payload only the memory counts for what a byte reads. -/
theorem State.byteAt_storeBytes_devMem (s : State) (d : Dev) (a : Nat) (bs : List Byte) (e : Dev) (x : Nat) :
    State.byteAt { s with devMem := (s.storeBytes d a bs).devMem } e x = (s.storeBytes d a bs).byteAt e x := by
  rw [← State.storeBytes_eq]

/-- Settles O21: the operation is one WRITE transaction, which stores the payload at its range and nowhere else. -/
theorem dpWriteStoresBytes : Obligations.DpWriteStoresBytes := by
  intro d a data s h hc ha hr
  refine ⟨(s.storeBytes d a.toNat data).devMem, ?_, fun j hj => ?_, fun e x hx => ?_⟩
  · rw [exec_dpWrite_ready h hc ha hr, State.afterWrite_eq]
    rfl
  · rw [State.byteAt_storeBytes_devMem, State.byteAt_storeBytes]
  · rw [State.byteAt_storeBytes_devMem, State.byteAt_storeBytes_ne s data hx]

/-- DP_WRITE has the effect of its WRITE transaction, done or stopped inside it (R112, R154). -/
theorem exec_dpWrite_effect {d : Dev} {a : Addr} {data : List Byte} {s t : State}
    (h : exec (.dpWrite d a data) s = .next t) :
    ∃ u, TxEffect Config.opWrite d a data.length s u ∧ ∀ e x, t.byteAt e x = u.byteAt e x := by
  rw [exec_dpWrite_eq (idle_of_start_next h).1] at h
  rcases drive_writePlan_effect h with ⟨k, cap, u, rfl, hu⟩ | ⟨k, cap, u, hu, hd⟩
  · exact ⟨u, hu, fun _ _ => rfl⟩
  · cases hd
    exact ⟨u, hu, fun _ _ => rfl⟩

/-- Settles O50: a WRITE transaction touches its own chip alone, and of a conforming one its own range alone. -/
theorem dpWriteFrame : Obligations.DpWriteFrame := by
  intro d a data s t h
  obtain ⟨u, hu, hbytes⟩ := exec_dpWrite_effect h
  exact ⟨fun e x he => (hbytes e x).trans (hu.other e x he), fun hc x hx => (hbytes d x).trans (hu.inside hc x hx)⟩

end Sys2Proof.Machine
end

section
/-! PROOF of O25 to O30, O32 to O34 and O40. The Cached Store on a conforming chip: each command is its plan, performed
(R126 to R131), then what it does last; on a hit or a clean FLUSH the plan is empty. A miss replaces the slot's byte,
written back first if dirty (R59); between the two transactions of a miss the slot holds the old byte, clean (R126 (e)). -/

namespace Sys2Proof.Machine

/-! ## Commands with nothing to send -/

/-- WRITE_BYTE of the resident address sets the slot and sends nothing (R128, R132). -/
theorem exec_writeByte_resident {s : State} {a : Addr} (hs : s.seq = .idle) (hv : s.slot.valid = true)
    (ht : s.slot.tag = a) (v : Byte) :
    exec (.writeByte a v) s = .next (s.setSlot (s.slot.store a v)).respondDraw := by
  have hp : planOf (.writeByte a v) s = [] := if_pos (by simp [Slot.hit, hv, ht])
  rw [exec_eq_start, start_idle hs, hp]
  rfl

/-- Settles O29: the plan of NOP is empty. -/
theorem nopChangesNothing : Obligations.NopChangesNothing := fun _ hs => exec_nop_idle hs

/-- Settles O30: on a hit both plans are empty. -/
theorem hitsNeedNoBus : Obligations.HitsNeedNoBus :=
  fun _ v _ hs hv ht => ⟨exec_readByte_resident hs hv ht, exec_writeByte_resident hs hv ht v⟩

/-- A WRITE_BYTE that ends its plan leaves the slot resident with the host's byte, on whatever chip (R128). -/
theorem exec_writeByte_completes_resident {a : Addr} {v : Byte} {s t : State} (h : exec (.writeByte a v) s = .next t)
    (ht : t.seq = .idle) : t.slot = { valid := true, tag := a, value := v, dirty := true } := by
  rw [exec_eq_start] at h
  rcases drive_ends (Nat.zero_le _) (idle_of_start_next h).2 with ⟨cap, u, rfl⟩ | ⟨k, cap, u, -, -, rfl, -⟩
  · rfl
  · exact absurd ht (hang_seq_ne _ _ k cap u)

/-- Settles O32: a completed WRITE_BYTE has left its byte resident, and the read is a hit. -/
theorem roundTripThroughTheSlot : Obligations.RoundTripThroughTheSlot := by
  intro a v s t h ht
  have hslot := exec_writeByte_completes_resident h ht
  have hread := exec_readByte_resident (a := a) ht (by rw [hslot]) (by rw [hslot])
  rw [show t.slot.value = v by rw [hslot]] at hread
  exact hread

/-! ## Commands on a live bus and a conforming chip -/

/-- Settles O25: MISS is its plan, and returns nothing. -/
theorem missWritesBackThenLoads : Obligations.MissWritesBackThenLoads := by
  intro a s h hc ha ht
  obtain ⟨cap, hd⟩ := drive_missPlan (i := .miss a) (p := missPlan a s) (k := 0) h hc ha ht
  rw [exec_eq_start, start_idle h.idle]
  exact hd

/-- An operation whose plan is an access completes after the access step (R127, R128, R131). -/
theorem exec_access_ready {i : Instr} {a : Addr} {s : State} (hp : planOf i s = accessPlan a s) (h : s.Ready)
    (hc : s.Conforming s.cfg.devSel) (ha : s.InRange a) (ht : s.DirtyInRange) :
    ∃ cap, exec i s = .next (complete i cap (s.afterAccess a)) := by
  rw [exec_eq_start, start_idle h.idle, hp]
  exact drive_accessPlan h hc ha ht

/-- Settles O26: after the access step READ_BYTE returns the slot's byte. -/
theorem readByteReturnsSlotByte : Obligations.ReadByteReturnsSlotByte := by
  intro a s h hc ha ht
  obtain ⟨cap, hx⟩ := exec_access_ready (i := .readByte a) rfl h hc ha ht
  exact hx

/-- Settles O27: after the access step WRITE_BYTE sets the slot. -/
theorem writeByteSetsSlotDirty : Obligations.WriteByteSetsSlotDirty := by
  intro a v s h hc ha ht
  obtain ⟨cap, hx⟩ := exec_access_ready (i := .writeByte a v) rfl h hc ha ht
  exact hx

/-- Settles O28: FLUSH of a dirty slot is a write-back, of a clean one nothing. -/
theorem flushWritesDirtyByte : Obligations.FlushWritesDirtyByte := by
  refine ⟨fun s h hd hc ht => ?_, fun s hs hd => exec_flush_of_clean hs hd⟩
  have hp : planOf .flush s = writeBackPlan s ++ [] := by
    rw [List.append_nil]
    exact if_pos hd
  rw [exec_eq_start, start_idle h.idle, hp, drive_writeBackPlan h hc ht]
  rfl

/-! ## Eviction -/

theorem Slot.hit_of_tag_ne {x : Slot} {a : Addr} (h : x.tag ≠ a) : x.hit a = false := by simp [Slot.hit, h]

/-- A miss that finds the slot valid and dirty writes its byte back before the load (R59). -/
theorem State.afterAccess_of_mustEvict {s : State} {a : Addr} (hh : s.slot.hit a = false)
    (hm : s.slot.mustEvict = true) : s.afterAccess a = s.afterWriteBack.afterLoad a := by
  rcases afterAccess_cases s a with ⟨hh', -⟩ | ⟨-, -, e⟩ | ⟨-, hm', -⟩
  · exact absurd (hh.symm.trans hh') Bool.false_ne_true
  · exact e
  · exact absurd (hm'.symm.trans hm) Bool.false_ne_true

/-- A miss that finds the slot clean is the load alone (R47). -/
theorem State.afterAccess_of_clean {s : State} {a : Addr} (hh : s.slot.hit a = false) (hd : s.slot.dirty = false) :
    s.afterAccess a = s.afterLoad a := by
  rcases afterAccess_cases s a with ⟨hh', -⟩ | ⟨-, hm, -⟩ | ⟨-, -, e⟩
  · exact absurd (hh.symm.trans hh') Bool.false_ne_true
  · exact absurd (hd.symm.trans (Slot.dirty_of_mustEvict hm)) Bool.false_ne_true
  · exact e

/-- Settles O34: the access step is one load, which stores nothing. -/
theorem cleanEvictionOnlyReads : Obligations.CleanEvictionOnlyReads := by
  intro b s h hc hb hd hh
  have hdirty : s.DirtyInRange := fun hd' => absurd (hd.symm.trans hd') Bool.false_ne_true
  have hx := readByteReturnsSlotByte b s h hc hb hdirty
  rw [State.afterAccess_of_clean hh hd] at hx
  exact ⟨_, hx, rfl, rfl, rfl, rfl, fun _ _ => rfl⟩

/-- A completed WRITE_BYTE in a host-ready state leaves it host-ready, the slot resident and dirty with the byte (R128). -/
theorem exec_writeByte_hostReady_slot {s : State} (h : s.HostReady) {a : Addr} (ha : s.InRange a) (v : Byte) :
    ∃ t, exec (.writeByte a v) s = .next t ∧ t.HostReady ∧ t.cfg = s.cfg ∧
      t.slot = { valid := true, tag := a, value := v, dirty := true } := by
  obtain ⟨t, he, hready, -, -, -⟩ := hostSeesByteArray (.writeByte a v) s rfl h ha
  exact ⟨t, he, hready, (exec_kept he).cfg, exec_writeByte_completes_resident he hready.ready.idle⟩

/-- After a write-back the chip holds the slot's byte at the slot's address. -/
theorem State.byteAt_afterWriteBack_tag (s : State) :
    s.afterWriteBack.byteAt s.cfg.devSel s.slot.tag.toNat = s.slot.value := by
  rw [State.byteAt_afterWriteBack, if_pos ⟨rfl, rfl⟩]

/-- A write-back leaves every other address of the chip as it was. -/
theorem State.byteAt_afterWriteBack_of_ne {s : State} {b : Addr} (h : s.slot.tag ≠ b) (d : Dev) :
    s.afterWriteBack.byteAt d b.toNat = s.byteAt d b.toNat := by
  rw [State.byteAt_afterWriteBack, if_neg fun e => h (BitVec.eq_of_toNat_eq e.2).symm]

/-- Settles O33: the first read finds the slot dirty and writes it back before it loads; the second finds it clean and
loads what was written back. -/
theorem evictionWritesThenReads : Obligations.EvictionWritesThenReads := by
  intro a b v1 s h ha hb hab
  obtain ⟨t, het, ht, hcfg, hslot⟩ := exec_writeByte_hostReady_slot h ha v1
  have htag : t.slot.tag = a := by rw [hslot]
  have hvalue : t.slot.value = v1 := by rw [hslot]
  have hbt : t.InRange b := by rw [State.InRange, hcfg]; exact hb
  have hloaded : t.afterAccess b = t.afterWriteBack.afterLoad b :=
    State.afterAccess_of_mustEvict (Slot.hit_of_tag_ne (htag ▸ hab)) (by rw [hslot]; rfl)
  have heu := exec_readByte_hostReady ht hbt
  have hu := (ht.afterAccess hbt).1.respond (.byte (t.am b))
  rw [hloaded] at heu hu
  set u := (t.afterWriteBack.afterLoad b).respond (.byte (t.am b))
  have hcu : u.cfg = s.cfg := t.afterWriteBack_cfg.trans hcfg
  have hua : u.byteAt s.cfg.devSel a.toNat = v1 := by
    rw [← hcfg, ← htag, ← hvalue]
    exact t.byteAt_afterWriteBack_tag
  have hew := exec_readByte_hostReady (a := a) hu (by rw [State.InRange, hcu]; exact ha)
  rw [State.afterAccess_of_clean (Slot.hit_of_tag_ne hab.symm) rfl,
    State.am_not_resident fun e => hab e.2.symm, hcu, hua] at hew
  refine ⟨t, u, _, het, heu, ?_, rfl, congrArg (· + 1) t.afterWriteBack_nREAD, hua, hew, rfl, rfl, rfl⟩
  show (t.afterWriteBack.afterLoad b).trace = _
  rw [State.afterLoad_trace, State.afterWriteBack_trace, State.afterWriteBack_cfg, State.afterWriteBack_draws,
    State.byteAt_afterWriteBack_of_ne (htag ▸ hab), htag, hvalue, hcfg]

/-! ## A hang between the two transactions of a miss -/

/-- The plan of a miss that must write back (R126, R131). -/
theorem missPlan_of_mustEvict {s : State} (hm : s.slot.mustEvict = true) (a : Addr) :
    missPlan a s = writeBackPlan s ++ readPlan s.cfg.devSel a 1 (.load a) := by
  rw [missPlan, if_pos hm]

/-- READ_BYTE, WRITE_BYTE and MISS have one plan where the slot is not resident for their address (R131). -/
theorem planOf_of_miss {s : State} {a : Addr} {v : Byte} {i : Instr} (hh : s.slot.hit a = false)
    (hi : i = .readByte a ∨ i = .writeByte a v ∨ i = .miss a) : planOf i s = missPlan a s := by
  have hp : accessPlan a s = missPlan a s := if_neg (by simp [hh])
  rcases hi with rfl | rfl | rfl
  · exact hp
  · exact hp
  · rfl

/-- `T_W(tag, value)` of the slot, then `dirty <- 0`, takes five of the exchanges the bus grants (R131, R190). -/
theorem drive_writeBackPlan_granted {i : Instr} {p : Plan} {k n : Nat} {cap : List Byte} {rest : Plan} {s : State}
    (hb : s.boardInit = true) (hcs : s.cs = 0b000#3) (hl : s.bus = some (n + 5)) (hc : s.Conforming s.cfg.devSel)
    (ht : s.InRange s.slot.tag) :
    drive i p k cap (writeBackPlan s ++ rest) s = drive i p (k + 7) cap rest (s.afterWriteBack.granting n) :=
  drive_writePlan_granted hb hcs hl hc ht

/-- An operation stopped in a transaction has changed no byte of a conforming chip. -/
theorem State.stoppedIn_of_conforming {s : State} {d : Dev} (h : s.Conforming d) (op : Byte) (a : Addr) (m : Nat)
    (f : Frame) :
    s.stoppedIn d op a m f =
      { s with
        cs := d.line
        devFrame := s.devFrame.set d f
        trace := s.trace ++ .sel d :: (headerEvents op a s.draws).take m
        draws := s.draws + m
        bus := some 0 } := by
  rw [State.stoppedIn, State.headerCut_of_conforming h]

/-- A miss on a bus that completes its write-back, and no more than four exchanges of its load, stops in the load. -/
theorem drive_missPlan_stops_in_load {i : Instr} {p : Plan} {n : Nat} {s : State} {a : Addr} (hn : n < 5)
    (hb : s.boardInit = true) (hcs : s.cs = 0b000#3) (hl : s.bus = some (n + 5)) (hc : s.Conforming s.cfg.devSel)
    (ha : s.InRange a) (ht : s.InRange s.slot.tag) (hm : s.slot.mustEvict = true) :
    ∃ f, drive i p 0 [] (missPlan a s) s =
      .next (hang i p (n + 8) [] ((s.afterWriteBack.granting n).stoppedIn s.cfg.devSel Config.opRead a n f)) := by
  obtain ⟨f, hload⟩ := drive_readPlan_stops (i := i) (p := p) (k := 7) (cap := []) (rest := []) (d := s.cfg.devSel) (a := a)
    (s := s.afterWriteBack.granting n) (last := .load a) hn (by simpa using hb) (by simpa using hcs) rfl
    (by simpa [State.InRange] using ha)
  rw [List.append_nil, show 7 + (n + 1) = n + 8 by omega] at hload
  rw [missPlan_of_mustEvict hm, drive_writeBackPlan_granted hb hcs hl hc ht]
  exact ⟨f, hload⟩

/-- Settles O40: the operation stops in its load, after a whole write-back and `dirty <- 0`. -/
theorem hangAfterWriteBack : Obligations.HangAfterWriteBack := by
  intro i a v m s hm5 hm10 hb hs hcs hl hc ha ht hh hv hd hi
  obtain ⟨n, rfl⟩ : ∃ n, m = n + 5 := ⟨m - 5, by omega⟩
  have hm : s.slot.mustEvict = true := by simp [Slot.mustEvict, hv, hd]
  obtain ⟨f, hx⟩ := drive_missPlan_stops_in_load (i := i) (p := missPlan a s) (n := n) (by omega) hb hcs hl hc ha ht hm
  rw [State.stoppedIn_of_conforming (by simpa [State.Conforming] using hc)] at hx
  have he : exec i s = drive i (missPlan a s) 0 [] (missPlan a s) s := by
    rw [exec_eq_start, start_idle hs, planOf_of_miss hh hi]
  refine ⟨_, missPlan a s, he.trans hx, rfl, missPlan_of_mustEvict hm a, ?_, rfl, s.byteAt_afterWriteBack_tag, rfl, rfl,
    s.afterWriteBack_nREAD⟩
  rw [missPlan_of_mustEvict hm]
  rfl

end Sys2Proof.Machine
end

section
/-! PROOF of O9, O10 and O41. The hang (R154): nothing raises a fault (R151), and a step is stuck exactly where an
operation waits for the bus and no input is left. A hang only delays: the state an operation stops in is a state its run
on a live bus passes through, and going on from there ends as that run does. -/

namespace Sys2Proof.Machine

/-! ## Where a step is stuck -/

/-- A step answers a fault exactly where a stopped operation still waits and no input is left (R154). -/
theorem step_fault_iff {s : State} {f : Fault} : step s = .fault f ↔
    ∃ i p k cap, s.seq = .run i p k cap ∧ blocked p k s = true ∧ s.inputs = [] := by
  constructor
  · intro h
    rcases step_cases s with ⟨-, -, e⟩ | ⟨x, rest, -, -, e⟩ | ⟨i, p, k, cap, hs, hb, hi, -⟩ | ⟨i, p, k, cap, -, -, e⟩
    · cases e.symm.trans h
    · exact absurd (e.symm.trans h) (applyInput_ne_fault _ _ _)
    · exact ⟨i, p, k, cap, hs, hb, hi⟩
    · exact absurd (e.symm.trans h) (drive_ne_fault _ _ _ _ _ _ _)
  · rintro ⟨i, p, k, cap, hs, hb, hi⟩
    cases f
    exact step_stopped_nil hs hb hi

/-- Settles O9: no operation and no input faults, and a stopped operation waits at an exchange. -/
theorem onlyHangsAreStuck : Obligations.OnlyHangsAreStuck := by
  refine ⟨exec_ne_fault, fun s f => step_fault_iff.trans ?_⟩
  simp only [blocked_iff]
  constructor
  · rintro ⟨i, p, k, cap, hs, ⟨hb, o, after, hx⟩, hi⟩
    exact ⟨hi, hb, i, p, k, cap, o, after, hs, hx⟩
  · rintro ⟨hi, hb, i, p, k, cap, o, after, hs, hx⟩
    exact ⟨i, p, k, cap, hs, ⟨hb, o, after, hx⟩, hi⟩

/-- Settles O10: with no input an idle block waits. -/
theorem idleBlockWaits : Obligations.IdleBlockWaits := fun _ => step_idle_nil

/-! ## Going on after a hang -/

/-- In an idle block an operation is its plan, performed from its first step (R28). -/
theorem exec_idle {s : State} (h : s.seq = .idle) (i : Instr) : exec i s = drive i (planOf i s) 0 [] (planOf i s) s := by
  rw [exec_eq_start, start_idle h]

/-- An operation that answers a next state found the block idle. -/
theorem idle_of_exec_next {i : Instr} {s t : State} (h : exec i s = .next t) :
    s.seq = .idle ∧ drive i (planOf i s) 0 [] (planOf i s) s = .next t := by
  rw [exec_eq_start] at h
  exact idle_of_start_next h

/-- The rest of a plan from a step it has. -/
theorem Plan.drop_of_getElem? {p : Plan} {k : Nat} {x : PlanStep} (h : p[k]? = some x) :
    p.drop k = x :: p.drop (k + 1) := by
  obtain ⟨hk, rfl⟩ := List.getElem?_eq_some_iff.1 h
  exact List.drop_eq_getElem_cons hk

/-- A step that the bus lets return is the same step of the sequencer on a live bus. -/
theorem drive_live_cons_done {i : Instr} {p : Plan} {k : Nat} {cap : List Byte} {x : PlanStep} {rest : Plan}
    {s u : State} {b : Option Byte} (h : perform x.op s = .done u b) :
    drive i p k cap (x :: rest) { s with bus := none } =
      drive i p (k + 1) (capAfter x.after b cap) rest
        { u.setSlot (slotAfter x.after (capAfter x.after b cap) u.slot) with bus := none } := by
  rcases perform_live x.op s with hw | hl
  · cases h.symm.trans hw
  · rw [h] at hl
    exact drive_cons_done hl

/-- Step `k` of plan `p` in state `u`, `cap` captured, is where the run of operation `i` from `s` comes by on a live bus. -/
def OnLiveRun (i : Instr) (p : Plan) (s : State) (k : Nat) (cap : List Byte) (u : State) : Prop :=
  u.seq = .idle ∧
    drive i p 0 [] p { s with bus := none } = drive i p k cap (p.drop k) { u with bus := none }

/-- In `t` operation `i`, begun in `s`, waits for the bus at a step that its run on a live bus comes by. -/
def StoppedOnLiveRun (i : Instr) (p : Plan) (s t : State) : Prop :=
  ∃ k cap u, t = hang i p k cap u ∧ blocked p k u = true ∧ OnLiveRun i p s k cap u

/-- An operation that has not ended its plan has stopped at an exchange that its run on a live bus comes by. -/
theorem drive_stops {i : Instr} {p : Plan} {s t : State} (hs : s.seq = .idle) (h : drive i p 0 [] p s = .next t)
    (ht : t.seq ≠ .idle) : StoppedOnLiveRun i p s t := by
  refine drive_carries (P := OnLiveRun i p s) (Q := fun t => t.seq ≠ .idle → StoppedOnLiveRun i p s t) i p ?_ ?_ ?_
    (Nat.zero_le _) rfl ⟨hs, rfl⟩ h ht
  · rintro k cap x u u' b hx hd ⟨hu, e⟩
    rw [Plan.drop_of_getElem? hx, drive_live_cons_done hd] at e
    exact ⟨(perform_kept hd).2.2.trans hu, e⟩
  · rintro cap u ⟨hu, -⟩ hne
    exact absurd ((complete_seq i cap u).trans hu) hne
  · rintro k cap x u hx hw hu -
    obtain ⟨o, d, ho, -, -, hbus⟩ := perform_waiting hw
    exact ⟨k, cap, u, rfl, blocked_iff.2 ⟨hbus, o, x.after, by rw [hx, ← ho]⟩, hu⟩

theorem complete_respond (i : Instr) (cap : List Byte) (s : State) (r : Response) :
    complete i cap (s.respond r) = complete i cap s := by
  cases i <;> rfl

/-- What the block last returned makes no difference to an operation (R83). -/
theorem drive_respond (i : Instr) (p : Plan) (k : Nat) (cap : List Byte) (rest : Plan) (s : State) (r : Response) :
    drive i p k cap rest (s.respond r) = drive i p k cap rest s := by
  induction rest generalizing k cap s with
  | nil => rw [drive_nil, drive_nil, complete_respond]
  | cons x rest ih =>
    have hp := (unseen_respond r).perform x.op s
    cases hx : perform x.op s with
    | waiting =>
      rw [hx] at hp
      rw [drive_cons_waiting hx, drive_cons_waiting hp]
      rfl
    | refused e =>
      rw [hx] at hp
      rw [drive_cons_refused hx, drive_cons_refused hp]
    | done u b =>
      rw [hx] at hp
      rw [drive_cons_done hx, drive_cons_done hp]
      exact ih (k + 1) _ (u.setSlot (slotAfter x.after (capAfter x.after b cap) u.slot))

/-- Where an operation stops it is blocked, and with no input left the next step is stuck (R154). -/
theorem step_stopped_stuck {i : Instr} {s t : State} (h : exec i s = .next t) (ht : t.seq ≠ .idle) :
    step { t with inputs := [] } = .fault .stuck := by
  obtain ⟨hs, hd⟩ := idle_of_exec_next h
  obtain ⟨k, cap, u, rfl, hb, -⟩ := drive_stops hs hd ht
  exact step_stopped_nil (i := i) (p := planOf i s) (k := k) (cap := cap) rfl hb rfl

/-- The plan of an operation does not depend on the bus (R131). -/
theorem planOf_bus (i : Instr) (s : State) (n : Option Nat) : planOf i { s with bus := n } = planOf i s := by
  cases i <;> rfl

/-- A stopped operation that is granted the bus for good goes on to where its run on a live bus ends. -/
theorem exec_resumes {i : Instr} {s t : State} (hin : s.inputs = []) (h : exec i s = .next t) (ht : t.seq ≠ .idle) :
    ∃ u, step { t with inputs := [.grant none] } = .next u ∧ step u = exec i { s with bus := none } := by
  have hti : t.inputs = [] := (exec_kept h).inputs.trans hin
  obtain ⟨hs, hd⟩ := idle_of_exec_next h
  obtain ⟨k, cap, v, rfl, hb, hv, hlive⟩ := drive_stops hs hd ht
  have htakes : State.TakesInput { hang i (planOf i s) k cap v with inputs := [.grant none] } := by
    rintro i' p' k' cap' hrun
    cases hrun
    exact hb
  refine ⟨{ hang i (planOf i s) k cap v with bus := none, inputs := [] }, step_input htakes rfl, ?_⟩
  have hfree : blocked (planOf i s) k { hang i (planOf i s) k cap v with bus := none, inputs := [] } = false := by
    simp [Bool.eq_false_iff, blocked_iff]
  have hgo : { hang i (planOf i s) k cap v with bus := none, inputs := [] }.setSeq .idle =
      State.respond { v with bus := none } .none := by
    rw [← hv, ← hti]
    rfl
  rw [step_resumes rfl hfree, hgo, drive_respond, exec_idle (s := { s with bus := none }) hs, planOf_bus i s none]
  exact hlive.symm

/-- Settles O41: the grant lets the operation go on from the state it stopped in, which its run on a live bus passes
through; that the hang has left no response makes no difference. -/
theorem resumedCommandEndsAsIfLive : Obligations.ResumedCommandEndsAsIfLive :=
  fun _ _ _ _ h ht => exec_resumes rfl h ht

end Sys2Proof.Machine
end

section
/-! PROOF of O36 and O37. Nothing the block does can tell that a chip fails (R155, R156): a write-back and a DP_WRITE end
alike whatever the chip makes of them (R114), and a load takes the byte it is given. -/

namespace Sys2Proof.Machine

section
variable (i : Instr) (cap : List Byte) (s : State)

@[simp] theorem complete_cs : (complete i cap s).cs = s.cs := by cases i <;> rfl
@[simp] theorem complete_trace : (complete i cap s).trace = s.trace := by cases i <;> rfl
@[simp] theorem complete_nREAD : (complete i cap s).nREAD = s.nREAD := by cases i <;> rfl
@[simp] theorem complete_nWRITE : (complete i cap s).nWRITE = s.nWRITE := by cases i <;> rfl

end

/-! ## A load from a chip that may not conform -/

/-- The state after a load of address `a` in which the chip gave the byte `b` and used `n` draws for it (R126). -/
def State.loadedWith (s : State) (a : Addr) (b : Byte) (n : Nat) : State :=
  { s with
    devFrame := s.devFrame.set s.cfg.devSel .closed
    trace := s.trace ++ readEvents s.cfg.devSel a s.draws [b]
    nREAD := s.nREAD + 1
    draws := s.draws + 4 + n
    slot := { valid := true, tag := a, value := b, dirty := false } }

/-- A load that ends a plan puts the byte it is given into the slot, from a faulty chip a draw (R54 (c), R156). -/
theorem drive_loadPlan_any {i : Instr} {p : Plan} {k : Nat} {s : State} {a : Addr} (h : s.Ready) (ha : s.InRange a) :
    ∃ b n, (¬ s.Conforming s.cfg.devSel → b = Config.draw (s.draws + 4)) ∧
      drive i p k [] (readPlan s.cfg.devSel a 1 (.load a)) s = .next (complete i [b] (s.loadedWith a b n)) := by
  rw [← List.append_nil (readPlan s.cfg.devSel a 1 (.load a))]
  by_cases hc : s.Conforming s.cfg.devSel
  · exact ⟨s.byteAt s.cfg.devSel a.toNat, 0, fun hc' => absurd hc hc', drive_loadPlan h hc ha⟩
  · exact ⟨Config.draw (s.draws + 4), 1, fun _ => rfl, drive_readPlan_faulty h hc ha ha⟩

/-- The plan of a miss that need not write back is the load alone (R126, R131). -/
theorem missPlan_of_not_mustEvict {s : State} (hm : s.slot.mustEvict = false) (a : Addr) :
    missPlan a s = readPlan s.cfg.devSel a 1 (.load a) := by
  rw [missPlan, if_neg (by simp [hm]), List.nil_append]

/-- READ_BYTE, WRITE_BYTE and MISS of an address that is not resident perform the plan of MISS (R127, R128, R131). -/
theorem exec_of_miss {i : Instr} {a : Addr} {v : Byte} {s : State} (hs : s.seq = .idle) (hh : s.slot.hit a = false)
    (hi : i = .readByte a ∨ i = .writeByte a v ∨ i = .miss a) :
    exec i s = drive i (missPlan a s) 0 [] (missPlan a s) s := by
  rw [exec_idle hs, planOf_of_miss hh hi]

/-- Settles O37: the plan is one load, of a draw, which READ_BYTE then returns. -/
theorem faultyByteTakenAsData : Obligations.FaultyByteTakenAsData := by
  intro a s h hc ha hh hm
  obtain ⟨b, n, hb, hl⟩ := drive_loadPlan_any (i := .readByte a) (p := missPlan a s) (k := 0) h ha
  obtain rfl := hb hc
  rw [← missPlan_of_not_mustEvict hm] at hl
  exact ⟨_, (exec_of_miss (v := 0#8) h.idle hh (.inl rfl)).trans hl, rfl, rfl, rfl, rfl⟩

/-! ## Writes to a chip that may not conform -/

/-- The state that a write-back begun in `s` leaves, the chips' bytes being those of `u` (R126, R129). -/
def State.writtenBack (s u : State) : State :=
  { u with
    devFrame := s.devFrame.set s.cfg.devSel .closed
    trace := s.trace ++ writeEvents s.cfg.devSel s.slot.tag s.draws [s.slot.value]
    nWRITE := s.nWRITE + 1
    draws := s.draws + 5
    slot := s.slot.markClean }

/-- A write-back inside a plan, on a chip that conforms or not: the chip's own bytes `u` apart it ends alike (R155). -/
theorem drive_writeBackPlan_any {i : Instr} {p : Plan} {k : Nat} {cap : List Byte} {rest : Plan} {s : State} (h : s.Ready)
    (ht : s.InRange s.slot.tag) :
    ∃ u, s.SameButChip s.cfg.devSel u ∧
      drive i p k cap (writeBackPlan s ++ rest) s = drive i p (k + 7) cap rest (s.writtenBack u) :=
  drive_writePlan_any h ht ht

/-- FLUSH of a dirty slot performs a write-back (R129). -/
theorem flushPlan_of_dirty {s : State} (hd : s.slot.dirty = true) : flushPlan s = writeBackPlan s ++ [] := by
  rw [List.append_nil]
  exact if_pos hd

/-- A miss that writes back and then loads completes alike on every chip, the byte `b` it is given apart (R155, R156). -/
theorem exec_of_dirty_miss {i : Instr} {a : Addr} {v : Byte} {s : State} (h : s.Ready) (hm : s.slot.mustEvict = true)
    (ht : s.InRange s.slot.tag) (ha : s.InRange a) (hh : s.slot.hit a = false)
    (hi : i = .readByte a ∨ i = .writeByte a v ∨ i = .miss a) :
    ∃ u b n, s.SameButChip s.cfg.devSel u ∧ (¬ s.Conforming s.cfg.devSel → b = Config.draw (s.draws + 9)) ∧
      exec i s = .next (complete i [b] ((s.writtenBack u).loadedWith a b n)) := by
  obtain ⟨u, hu, hw⟩ := drive_writeBackPlan_any (i := i) (p := missPlan a s) (k := 0) (cap := [])
    (rest := readPlan s.cfg.devSel a 1 (.load a)) h ht
  rw [← missPlan_of_mustEvict hm, ← exec_of_miss h.idle hh hi] at hw
  obtain ⟨m, e, rfl, -⟩ := id hu
  obtain ⟨b, n, hb, hl⟩ := drive_loadPlan_any (i := i) (p := missPlan a s) (k := 7) (a := a)
    (s := s.writtenBack { s with devMem := m, epoch := e }) ⟨h.board, h.idle, h.released, h.live⟩ ha
  exact ⟨_, b, n, hu, hb, hw.trans hl⟩

/-- At its end WRITE_BYTE stores its byte in the slot, READ_BYTE and MISS leave the slot (R126 to R128). -/
theorem complete_slot {i : Instr} {a : Addr} {v : Byte} (hi : i = .readByte a ∨ i = .writeByte a v ∨ i = .miss a)
    (cap : List Byte) (u : State) :
    (complete i cap u).slot = if i = .writeByte a v then u.slot.store a v else u.slot := by
  rcases hi with rfl | rfl | rfl
  · exact (if_neg nofun).symm
  · exact (if_pos rfl).symm
  · exact (if_neg nofun).symm

/-- Settles O36: each of them is one write transaction, which ends alike on every chip, and for a miss a load after it. -/
theorem flushCannotDetectFailure : Obligations.FlushCannotDetectFailure := by
  refine ⟨fun s h hd ht => ?flush, fun i a v s h hv hd ht ha hh hi => ?miss, fun d a data s h ha hr => ?dpWrite⟩
  case flush =>
    obtain ⟨u, hu, hw⟩ := drive_writeBackPlan_any (i := .flush) (p := flushPlan s) (k := 0) (cap := []) (rest := []) h ht
    rw [← flushPlan_of_dirty hd] at hw
    have hbytes := fun e x he => hu.byteAt (e := e) he x
    obtain ⟨m, e, rfl, -⟩ := hu
    exact ⟨_, (exec_idle h.idle .flush).trans hw, rfl, rfl, rfl, h.released, h.idle, rfl, hbytes⟩
  case miss =>
    have hm : s.slot.mustEvict = true := by simp [Slot.mustEvict, hv, hd]
    obtain ⟨u, b, n, hu, hb, hx⟩ := exec_of_dirty_miss h hm ht ha hh hi
    have hbytes := fun e x he => hu.byteAt (e := e) he x
    obtain ⟨m, e, rfl, -⟩ := hu
    refine ⟨_, b, hx, complete_slot hi _ _, ?_, hb, complete_nWRITE _ _ _, complete_nREAD _ _ _,
      (complete_cs _ _ _).trans h.released, (complete_seq _ _ _).trans h.idle, complete_trace _ _ _, fun e x he => ?_⟩
    · rintro rfl
      rfl
    · exact (byteAt_complete _ _ _ e x).trans (hbytes e x he)
  case dpWrite =>
    obtain ⟨u, hu, hw⟩ := drive_writePlan_any (i := .dpWrite d a data) (p := writePlan d a data .ignore) (k := 0)
      (cap := []) (rest := []) (d := d) (last := .ignore) h ha hr
    have hbytes := fun e x he => hu.byteAt (e := e) he x
    obtain ⟨m, e, rfl, -⟩ := hu
    exact ⟨_, (exec_dpWrite_eq h.idle d a data).trans hw, rfl, rfl, rfl, h.released, h.idle, rfl, rfl, rfl, rfl, hbytes⟩

end Sys2Proof.Machine
end

section
/-! PROOF of O39. A bus that completes fewer than five exchanges stops an operation in its first transaction (R154, vector
C24): the line is asserted, and nothing but the trace, the draws and the chip's frame has moved. -/

namespace Sys2Proof.Machine

/-! ## The state of an operation stopped in a transaction -/

section
variable (s : State) (d : Dev) (op : Byte) (a : Addr) (m : Nat) (f : Frame)

@[simp] theorem State.stoppedIn_slot : (s.stoppedIn d op a m f).slot = s.slot := by
  obtain ⟨_, _, hu, -⟩ := s.sameButChip_headerCut d op m
  simp [State.stoppedIn, hu]

@[simp] theorem State.stoppedIn_nREAD : (s.stoppedIn d op a m f).nREAD = s.nREAD := by
  obtain ⟨_, _, hu, -⟩ := s.sameButChip_headerCut d op m
  simp [State.stoppedIn, hu]

@[simp] theorem State.stoppedIn_nWRITE : (s.stoppedIn d op a m f).nWRITE = s.nWRITE := by
  obtain ⟨_, _, hu, -⟩ := s.sameButChip_headerCut d op m
  simp [State.stoppedIn, hu]

/-- An operation stopped in its first transaction has stored nothing in a conforming chip. -/
theorem State.byteAt_stoppedIn (h : s.Conforming d) (e : Dev) (x : Nat) :
    (s.stoppedIn d op a m f).byteAt e x = s.byteAt e x := by
  rw [State.stoppedIn_of_conforming h]
  rfl

end

/-- The first events of a transaction: its SELECT, then the header's exchanges. -/
theorem take_transaction_events {m : Nat} (hm : m < 5) (d : Dev) (op : Byte) (a : Addr) (n : Nat) (es : List BusEvent) :
    (.sel d :: (headerEvents op a n ++ es)).take (m + 1) = .sel d :: (headerEvents op a n).take m := by
  have hlen : (headerEvents op a n).length = 4 := rfl
  rw [List.take_succ_cons, List.take_append_of_le_length (by omega)]

/-- The plan of FLUSH of a dirty slot, and of a miss that finds the slot valid and dirty, begins with the write-back
(R126, R129, R131). -/
theorem planOf_begins_with_writeBack {i : Instr} {a : Addr} {v : Byte} {s : State} (hd : s.slot.dirty = true)
    (hi : i = .flush ∨ (s.slot.valid = true ∧ s.slot.hit a = false ∧
      (i = .readByte a ∨ i = .writeByte a v ∨ i = .miss a))) :
    ∃ rest, planOf i s = writeBackPlan s ++ rest := by
  rcases hi with rfl | ⟨hv, hh, hi⟩
  · exact ⟨[], flushPlan_of_dirty hd⟩
  · have hm : s.slot.mustEvict = true := by simp [Slot.mustEvict, hv, hd]
    exact ⟨_, (planOf_of_miss hh hi).trans (missPlan_of_mustEvict hm a)⟩

/-- Settles O39: the first transaction is the load, or the write-back, and the bus stops it at exchange `m`. -/
theorem hangStopsInMidFrame : Obligations.HangStopsInMidFrame := by
  refine ⟨fun i a v m s hm hb hs hcs hl _ ha hh he hi => ?load, fun i a v m s hm hb hs hcs hl ht hd hi => ?writeBack⟩
  case load =>
    obtain ⟨f, hx⟩ := drive_readPlan_stops (i := i) (p := readPlan s.cfg.devSel a 1 (.load a)) (k := 0) (cap := [])
      (rest := []) (d := s.cfg.devSel) (last := .load a) hm hb hcs hl ha
    rw [List.append_nil, Nat.zero_add, ← missPlan_of_not_mustEvict he, ← exec_of_miss hs hh hi] at hx
    refine ⟨_, hx, by rw [← missPlan_of_not_mustEvict he]; rfl, rfl, s.stoppedIn_slot _ _ a m f, rfl, rfl,
      s.stoppedIn_nREAD _ _ a m f, s.stoppedIn_nWRITE _ _ a m f, ?_, step_stopped_stuck hx (hang_seq_ne _ _ _ _ _)⟩
    rw [readEvents, take_transaction_events hm]
    rfl
  case writeBack =>
    obtain ⟨rest, hp⟩ := planOf_begins_with_writeBack hd hi
    obtain ⟨f, hx⟩ := drive_writePlan_stops (i := i) (p := writeBackPlan s ++ rest) (k := 0) (cap := []) (rest := rest)
      (d := s.cfg.devSel) (v := s.slot.value) (last := .clean) hm hb hcs hl ht
    have he : exec i s = drive i (writeBackPlan s ++ rest) 0 [] (writeBackPlan s ++ rest) s := by rw [exec_idle hs, hp]
    rw [Nat.zero_add] at hx
    refine ⟨_, rest, he.trans hx, rfl, rfl, s.stoppedIn_slot _ _ s.slot.tag m f, rfl, rfl,
      s.stoppedIn_nREAD _ _ s.slot.tag m f, s.stoppedIn_nWRITE _ _ s.slot.tag m f, ?_,
      s.byteAt_stoppedIn _ _ s.slot.tag m f,
      step_stopped_stuck (he.trans hx) (hang_seq_ne _ _ _ _ _)⟩
    rw [writeEvents, take_transaction_events hm]
    rfl

end Sys2Proof.Machine
end

section
/-! PROOF of O19. Before Board Init the port refuses whatever transport operation comes first (R178), so every operation
with one to perform is refused. -/

namespace Sys2Proof.Machine

/-- Each transport operation tests Board Init before anything else (R178). -/
theorem perform_before_boardInit {s : State} (hb : s.boardInit = false) (x : BusOp) :
    perform x s = .refused .beforeBoardInit := by
  cases x with
  | select d => exact if_pos hb
  | exchange o => exact if_pos hb
  | deselect d => exact if_pos hb

/-- An operation with any transport operation to perform is refused before Board Init (R168, R178). -/
theorem exec_before_boardInit {i : Instr} {s : State} (hb : s.boardInit = false) (hs : s.seq = .idle)
    (hp : planOf i s ≠ []) : exec i s = .refused .beforeBoardInit := by
  obtain ⟨x, rest, hx⟩ := List.exists_cons_of_ne_nil hp
  rw [exec_eq_start, start_idle hs]
  nth_rw 2 [hx]
  exact drive_cons_refused (perform_before_boardInit hb x.op)

/-- A miss has its load to perform, whatever the slot holds (R126). -/
theorem missPlan_ne_nil (a : Addr) (s : State) : missPlan a s ≠ [] := by simp [missPlan, readPlan]

theorem accessPlan_ne_nil {a : Addr} {s : State} (hh : s.slot.hit a = false) : accessPlan a s ≠ [] := by
  rw [accessPlan, if_neg (by simp [hh])]
  exact missPlan_ne_nil a s

theorem flushPlan_ne_nil {s : State} (hd : s.slot.dirty = true) : flushPlan s ≠ [] := by
  rw [flushPlan_of_dirty hd]
  exact List.cons_ne_nil _ _

/-- Settles O19: each of these operations has a transport operation to perform. -/
theorem nothingOnTheBusBeforeBoardInit : Obligations.NothingOnTheBusBeforeBoardInit := by
  intro s hb hs
  have refused : ∀ {i : Instr}, planOf i s ≠ [] → exec i s = .refused .beforeBoardInit := exec_before_boardInit hb hs
  exact ⟨fun _ => refused (List.cons_ne_nil _ _), fun _ => refused (List.cons_ne_nil _ _),
    fun _ => refused (List.cons_ne_nil _ _), fun _ _ _ => refused (List.cons_ne_nil _ _),
    fun _ _ _ => refused (List.cons_ne_nil _ _), fun a => refused (missPlan_ne_nil a s),
    fun _ hh => refused (accessPlan_ne_nil hh), fun _ _ hh => refused (accessPlan_ne_nil hh),
    fun hd => refused (flushPlan_ne_nil hd)⟩

end Sys2Proof.Machine
end

section
/-! PROOF of O42 and O43. A reset takes CTRL's own fields to their reset values (R176, R37); a chip whose frame
is closed or a READ's keeps its bytes, and one whose WRITE is cut keeps those outside the frame's addresses (R177, U19). -/

namespace Sys2Proof.Machine

/-! ## Any state -/

/-- A reset leaves alone the bytes of a chip whose frame is closed or a READ's (R176). -/
theorem byteAt_resetBlock_of_no_write {d : Dev} {s : State}
    (h : s.devFrame.get d = .closed ∨ (s.cutBytes d).head? = some Config.opRead) (x : Nat) :
    (resetBlock s).byteAt d x = s.byteAt d x := by
  refine byteAt_resetBlock fun u hf hq _ => congrArg (State.byteAt · d x) ?_
  rcases h with hclosed | hread
  · exact cutFrame_closed (hf ▸ hclosed)
  · exact cutFrame_read (by rw [State.cutBytes, hf, hq]; exact hread)

/-- Settles O42: the step takes the input, and the state it answers is that of `resetBlock`. -/
theorem resetDiscardsDirtyByte : Obligations.ResetDiscardsDirtyByte := by
  intro s rest hi hw
  exact ⟨_, step_input hw hi, rfl, rfl, rfl, rfl, rfl, rfl, rfl, PerDev.get_all _, resetBlock_cfg _, resetBlock_inputs _,
    fun _ h => byteAt_resetBlock_of_no_write h⟩

/-! ## One open frame -/

/-- Where one chip alone has an open frame, a reset changes no byte that cutting that frame leaves alone. -/
theorem byteAt_resetBlock_of_one_open {d : Dev} {f : Frame} {s : State} (hs : s.devFrame = (PerDev.all .closed).set d f)
    {e : Dev} {x : Nat}
    (h : e = d → ∀ u : State, u.devFrame.get d = f → u.seq = s.seq → u.conforms = s.conforms →
      (cutFrame d u).byteAt d x = u.byteAt d x) : (resetBlock s).byteAt e x = s.byteAt e x := by
  by_cases he : e = d
  · subst he
    exact byteAt_resetBlock fun u hf => h rfl u (by rw [hf, hs, PerDev.get_set_same])
  · exact byteAt_resetBlock_of_no_write (.inl (by rw [hs, PerDev.get_set_ne _ _ he, PerDev.get_all])) x

/-- Settles O43: the cut frame leaves open a run of addresses in its payload, and one address in its header. -/
theorem resetInMidWriteKeepsOtherBytes : Obligations.ResetInMidWriteKeepsOtherBytes := by
  refine ⟨fun d a j s hs e x hx => ?payload, fun d f sent a s hs hm hl hc ha e x hx => ?header⟩
  case payload =>
    refine byteAt_resetBlock_of_one_open hs fun he u hf hq _ => ?_
    have hout : x < a.toNat ∨ a.toNat + cutCount j s.seq ≤ x := by
      rcases hx with hne | hlt | hgt | ⟨hidle, hj, hge⟩
      · exact absurd he hne
      · exact .inl hlt
      · have := cutCount_le j s.seq
        exact .inr (by omega)
      · exact .inr (by rw [cutCount_of_sending_nil hidle hj]; exact hge)
    rw [cutFrame_writePayload hf, hq]
    exact byteAt_scramble_ne _ _ _ _ (.inr hout)
  case header =>
    refine byteAt_resetBlock_of_one_open hs fun he u hf hq hcu => ?_
    have hne : x ≠ a.toNat := hx.resolve_left (not_not_intro he)
    have hbytes : u.cutBytes d = s.cutBytes d := by
      rw [State.cutBytes, State.cutBytes, hf, hq, hs, PerDev.get_set_same]
    rw [cutFrame_writeHeader (by rw [hf]; exact hm) hl (by rw [State.Conforming, hcu]; exact hc) (by rw [hbytes]; exact ha)]
    exact byteAt_scramble_ne _ _ _ _ (.inr (by omega))

end Sys2Proof.Machine
end

section
/-! PROOF of O38 and O56. What host commands cost on the bus (R190, R191): a write-back is one WRITE transaction, a load
one READ, and each command is at most one of each; over a sequence the costs add up, since what a command costs depends
on all of the slot but its value. -/

namespace Sys2Proof.Machine

/-! ## The cost of a piece of a run -/

/-- An event is an exchange (R13). -/
def BusEvent.isExchange : BusEvent → Bool
  | .xchg _ _ => true
  | _ => false

/-- From `s` to `t` the bus carries `reads` READ and `writes` WRITE transactions of one byte, all counted, each of 7
events, 5 of them exchanges (R190). -/
structure BusCost (reads writes : Nat) (s t : State) : Prop where
  nREAD : t.nREAD = s.nREAD + reads
  nWRITE : t.nWRITE = s.nWRITE + writes
  trace : ∃ es, t.trace = s.trace ++ es ∧ es.length = 7 * (writes + reads) ∧
    es.countP BusEvent.isExchange = 5 * (writes + reads)

namespace BusCost

theorem refl (s : State) : BusCost 0 0 s s := ⟨rfl, rfl, [], (List.append_nil _).symm, rfl, rfl⟩

theorem trans {r w r' w' : Nat} {s t u : State} (h : BusCost r w s t) (g : BusCost r' w' t u) :
    BusCost (r + r') (w + w') s u := by
  obtain ⟨hr, hw, es, ht, hl, hx⟩ := h
  obtain ⟨gr, gw, fs, gt, gl, gx⟩ := g
  refine ⟨by omega, by omega, es ++ fs, by rw [gt, ht, List.append_assoc], ?_, ?_⟩
  · rw [List.length_append]; omega
  · rw [List.countP_append]; omega

/-- What touches neither the trace nor the counters costs nothing. -/
theorem of_unchanged {r w : Nat} {s t u : State} (h : BusCost r w s t) (hr : u.nREAD = t.nREAD)
    (hw : u.nWRITE = t.nWRITE) (ht : u.trace = t.trace) : BusCost r w s u := by
  obtain ⟨er, ew, es, et, hl, hx⟩ := h
  exact ⟨hr.trans er, hw.trans ew, es, ht.trans et, hl, hx⟩

theorem afterLoad (s : State) (a : Addr) : BusCost 1 0 s (s.afterLoad a) := ⟨rfl, rfl, _, rfl, rfl, rfl⟩

theorem afterWriteBack (s : State) : BusCost 0 1 s s.afterWriteBack := ⟨s.afterWriteBack_nREAD, rfl, _, rfl, rfl, rfl⟩

/-- The access step costs a READ on a miss, and a WRITE too if that finds the slot dirty (R190). -/
theorem afterAccess (s : State) (a : Addr) :
    BusCost (s.slot.accessReads a) (s.slot.accessWrites a) s (s.afterAccess a) := by
  unfold Slot.accessReads Slot.accessWrites
  rcases afterAccess_cases s a with ⟨hh, e⟩ | ⟨hh, hm, e⟩ | ⟨hh, hm, e⟩ <;> rw [e, hh]
  · exact .refl s
  · rw [hm]
    exact (afterWriteBack s).trans (.afterLoad _ a)
  · rw [hm]
    exact .afterLoad s a

end BusCost

/-! ## One host command -/

/-- A host command costs what the table of R190 says for the slot at its start. -/
theorem busCost_of_exec {i : Instr} {s t : State} (hi : i.isHost = true) (h : s.HostReady) (hr : s.CommandInRange i)
    (he : exec i s = .next t) : BusCost (s.slot.readsOf i) (s.slot.writesOf i) s t := by
  cases i with
  | readByte a =>
    cases (exec_readByte_hostReady h hr).symm.trans he
    exact (BusCost.afterAccess s a).of_unchanged rfl rfl rfl
  | writeByte a v =>
    cases (exec_writeByte_hostReady h hr v).symm.trans he
    exact (BusCost.afterAccess s a).of_unchanged rfl rfl rfl
  | flush =>
    cases hd : s.slot.dirty with
    | true =>
      cases (exec_flush_dirty h hd).symm.trans he
      rw [Slot.writesOf, Slot.mustFlush, hd]
      exact (BusCost.afterWriteBack s).of_unchanged rfl rfl rfl
    | false =>
      cases (exec_flush_clean h hd).symm.trans he
      rw [Slot.writesOf, Slot.mustFlush, hd]
      exact (BusCost.refl s).of_unchanged rfl rfl rfl
  | nop =>
    cases (exec_nop_idle h.ready.idle).symm.trans he
    exact (BusCost.refl s).of_unchanged rfl rfl rfl
  | _ => cases hi

/-- Settles O38: each of the four commands completes, at that cost. -/
theorem busCostOfEachCommand : Obligations.BusCostOfEachCommand := by
  intro a v s h ha i hi
  have hhost : i.isHost = true := by rcases hi with rfl | rfl | rfl | rfl <;> rfl
  have hrange : s.CommandInRange i := by
    rcases hi with rfl | rfl | rfl | rfl
    · exact ha
    · exact ha
    · trivial
    · trivial
  obtain ⟨t, he, -⟩ := hostSeesByteArray i s hhost h hrange
  obtain ⟨hreads, hwrites, es, htrace, hlength, hexchanges⟩ := busCost_of_exec hhost h hrange he
  exact ⟨t, es, he, htrace, hwrites, hreads, hlength, hexchanges⟩

/-! ## The slot's value left out of account -/

/-- The slot with another value. -/
def Slot.withValue (x : Slot) (v : Byte) : Slot := { x with value := v }

/-- A command treats the value apart from the rest of the slot. -/
theorem Slot.afterCommand_withValue (x : Slot) (v : Byte) (i : Instr) :
    ∃ w, (x.withValue v).afterCommand i = (x.afterCommand i).withValue w := by
  cases i with
  | readByte a =>
    have hh : (x.withValue v).hit a = x.hit a := rfl
    refine ⟨v, ?_⟩
    rw [Slot.afterCommand, Slot.afterCommand, hh]
    split <;> rfl
  | writeByte a u => exact ⟨u, rfl⟩
  | _ => exact ⟨v, rfl⟩

theorem Slot.readsOf_withValue (x : Slot) (v : Byte) (i : Instr) : (x.withValue v).readsOf i = x.readsOf i := by
  cases i <;> rfl

theorem Slot.writesOf_withValue (x : Slot) (v : Byte) (i : Instr) : (x.withValue v).writesOf i = x.writesOf i := by
  cases i <;> rfl

theorem readsOfRun_withValue (x : Slot) (v : Byte) (is : List Instr) : readsOfRun (x.withValue v) is = readsOfRun x is := by
  induction is generalizing x v with
  | nil => rfl
  | cons i is ih =>
    obtain ⟨w, hw⟩ := x.afterCommand_withValue v i
    rw [readsOfRun, readsOfRun, hw, ih, Slot.readsOf_withValue]

theorem writesOfRun_withValue (x : Slot) (v : Byte) (is : List Instr) :
    writesOfRun (x.withValue v) is = writesOfRun x is := by
  induction is generalizing x v with
  | nil => rfl
  | cons i is ih =>
    obtain ⟨w, hw⟩ := x.afterCommand_withValue v i
    rw [writesOfRun, writesOfRun, hw, ih, Slot.writesOf_withValue]

/-- After the access step the slot is as before on a hit, and resident and clean on a miss (R127). -/
theorem State.afterAccess_slot (s : State) (a : Addr) :
    ∃ v, (s.afterAccess a).slot = (s.slot.afterCommand (.readByte a)).withValue v := by
  rw [Slot.afterCommand]
  rcases afterAccess_cases s a with ⟨hh, e⟩ | ⟨hh, -, e⟩ | ⟨hh, -, e⟩ <;> rw [e, hh]
  · exact ⟨s.slot.value, rfl⟩
  · exact ⟨_, rfl⟩
  · exact ⟨_, rfl⟩

theorem Slot.markClean_of_clean {x : Slot} (hd : x.dirty = false) : x.markClean = x := by
  rw [Slot.markClean, ← hd]

/-- A host command leaves the slot that the count of costs goes on with. -/
theorem slot_of_exec {i : Instr} {s t : State} (hi : i.isHost = true) (h : s.HostReady) (hr : s.CommandInRange i)
    (he : exec i s = .next t) : ∃ v, t.slot = (s.slot.afterCommand i).withValue v := by
  cases i with
  | readByte a =>
    cases (exec_readByte_hostReady h hr).symm.trans he
    exact s.afterAccess_slot a
  | writeByte a v =>
    cases (exec_writeByte_hostReady h hr v).symm.trans he
    exact ⟨v, rfl⟩
  | flush =>
    refine ⟨s.slot.value, ?_⟩
    cases hd : s.slot.dirty with
    | true =>
      cases (exec_flush_dirty h hd).symm.trans he
      rfl
    | false =>
      cases (exec_flush_clean h hd).symm.trans he
      exact (Slot.markClean_of_clean hd).symm
  | nop =>
    cases (exec_nop_idle h.ready.idle).symm.trans he
    exact ⟨s.slot.value, rfl⟩
  | _ => cases hi

/-! ## Sequences of commands -/

/-- A sequence of host commands completes, with the transactions counted that R191 gives. -/
theorem run_presenting_counts (is : List Instr) (s : State) (h : s.HostReady)
    (hall : ∀ i ∈ is, i.isHost = true ∧ s.CommandInRange i) :
    ∃ t, Sys2Proof.core.run is.length (s.presenting is) = .next t ∧ t.nREAD = s.nREAD + readsOfRun s.slot is ∧
      t.nWRITE = s.nWRITE + writesOfRun s.slot is := by
  induction is generalizing s with
  | nil => exact ⟨s.presenting [], rfl, rfl, rfl⟩
  | cons i is ih =>
    obtain ⟨⟨hi, hr⟩, hrest⟩ := List.forall_mem_cons.1 hall
    have hs := h.presenting is
    have hr' : (s.presenting is).CommandInRange i := (State.commandInRange_congr (s := s) rfl i).2 hr
    obtain ⟨t, he, hready, -⟩ := hostSeesByteArray i (s.presenting is) hi hs hr'
    have hk := exec_kept he
    have hcost := busCost_of_exec hi hs hr' he
    obtain ⟨v, hslot⟩ := slot_of_exec hi hs hr' he
    obtain ⟨u, hrun, hreads, hwrites⟩ := ih t hready fun j hj =>
      ⟨(hrest j hj).1, (State.commandInRange_congr (s := s) hk.cfg j).2 (hrest j hj).2⟩
    rw [State.presenting_of_inputs hk.inputs] at hrun
    refine ⟨u, (core_run_next ((step_presenting_cons h.ready.idle hi is).trans he)).trans hrun, ?_, ?_⟩
    · rw [hreads, hcost.nREAD, hslot, readsOfRun_withValue]
      exact Nat.add_assoc _ _ _
    · rw [hwrites, hcost.nWRITE, hslot, writesOfRun_withValue]
      exact Nat.add_assoc _ _ _

/-! ## Bounds -/

/-- An access writes back no more than what was dirty. -/
theorem Slot.accessWrites_le_dirty (x : Slot) (a : Addr) : x.accessWrites a ≤ x.dirty.toNat := by
  unfold Slot.accessWrites
  split
  · exact Nat.zero_le _
  · split
    · next hm => rw [Slot.dirty_of_mustEvict hm]; exact Nat.le_refl 1
    · exact Nat.zero_le _

/-- An access that writes back also reads. -/
theorem Slot.accessWrites_le_accessReads (x : Slot) (a : Addr) : x.accessWrites a ≤ x.accessReads a := by
  unfold Slot.accessWrites Slot.accessReads
  split
  · exact Nat.le_refl 0
  · split
    · exact Nat.le_refl 1
    · exact Nat.zero_le 1

/-- What a command writes back and leaves dirty was dirty before, or is the host's own write. -/
theorem Slot.writesOf_add_dirty_le (x : Slot) (i : Instr) :
    x.writesOf i + (x.afterCommand i).dirty.toNat ≤ countWriteByte [i] + x.dirty.toNat := by
  cases i with
  | readByte a =>
    have hw : x.accessWrites a ≤ x.dirty.toNat := x.accessWrites_le_dirty a
    cases hh : x.hit a with
    | true => simp [Slot.writesOf, Slot.accessWrites, Slot.afterCommand, hh]
    | false => simpa [Slot.writesOf, Slot.afterCommand, hh, Slot.residentClean, countWriteByte] using hw
  | writeByte a v =>
    rw [Nat.add_comm]
    exact Nat.add_le_add_left (x.accessWrites_le_dirty a) 1
  | flush => cases hd : x.dirty <;> simp [Slot.writesOf, Slot.mustFlush, Slot.afterCommand, Slot.markClean, hd]
  | _ => exact Nat.le_refl _

/-- Only an access or a FLUSH writes back, and the access also reads. -/
theorem Slot.writesOf_le (x : Slot) (i : Instr) : x.writesOf i ≤ x.readsOf i + countFlush [i] := by
  cases i with
  | readByte a => exact x.accessWrites_le_accessReads a
  | writeByte a v => exact x.accessWrites_le_accessReads a
  | flush =>
    rw [Slot.writesOf]
    split
    · exact Nat.le_refl 1
    · exact Nat.zero_le 1
  | _ => exact Nat.zero_le _

theorem countWriteByte_cons (i : Instr) (is : List Instr) :
    countWriteByte (i :: is) = countWriteByte [i] + countWriteByte is := List.countP_append (l₁ := [i])

theorem countFlush_cons (i : Instr) (is : List Instr) : countFlush (i :: is) = countFlush [i] + countFlush is :=
  List.countP_append (l₁ := [i])

/-- Each WRITE of a sequence sends a byte dirty at the start or written since. -/
theorem writesOfRun_le_writeBytes (x : Slot) (is : List Instr) :
    writesOfRun x is ≤ countWriteByte is + x.dirty.toNat := by
  induction is generalizing x with
  | nil => exact Nat.zero_le _
  | cons i is ih =>
    have hfirst := x.writesOf_add_dirty_le i
    have hrest := ih (x.afterCommand i)
    rw [writesOfRun, countWriteByte_cons]
    omega

/-- Each WRITE of a sequence belongs to a miss or to a FLUSH. -/
theorem writesOfRun_le_reads_add_flushes (x : Slot) (is : List Instr) :
    writesOfRun x is ≤ readsOfRun x is + countFlush is := by
  induction is generalizing x with
  | nil => exact Nat.zero_le _
  | cons i is ih =>
    have hfirst := x.writesOf_le i
    have hrest := ih (x.afterCommand i)
    rw [writesOfRun, readsOfRun, countFlush_cons]
    omega

/-- Settles O56: the counts by induction on the commands, the bounds command by command. -/
theorem costOfACommandSequence : Obligations.CostOfACommandSequence := by
  intro is s h hall
  refine ⟨run_presenting_counts is s h hall, fun hd => ?_, writesOfRun_le_reads_add_flushes s.slot is⟩
  have hbound := writesOfRun_le_writeBytes s.slot is
  rw [hd] at hbound
  exact hbound

end Sys2Proof.Machine
end
